-- ==== Sys2Proof/Word.lean ====
section
/-! DEFINITION. The widths of 00_scope.md R7: a data byte of 8 bits, an address of 16 bits. -/

namespace Sys2Proof

/-- One data byte (R7: "data width", 8 bits). -/
abbrev Byte := BitVec 8

/-- One bus address, `pc`, `sp` or a register pair (R7: "address width", 16 bits). -/
abbrev Word := BitVec 16

end Sys2Proof
end

