-- ==== Sys2Proof/Machine/Bytes.lean ====
section
/-! DEFINITION. Byte order and extension (00_scope.md R8, 20_memory.md R68, 30_encoding.md R127). -/

namespace Sys2Proof

/-- `v[15:8]`. -/
def hiByte (v : Word) : Byte := v.extractLsb' 8 8

/-- `v[7:0]`. -/
def loByte (v : Word) : Byte := v.extractLsb' 0 8

/-- `hi : lo` (R8: the left operand is the more significant). -/
def joinBytes (hi lo : Byte) : Word := hi ++ lo

/-- `sext_16(e)` (R127). -/
def signExtend16 (e : Byte) : Word := e.signExtend 16

/-- `zext_16(n)` (R127). -/
def zeroExtend16 (n : Byte) : Word := n.setWidth 16

/-- `0xFF00 + zext_16(n)`: an address in the high page (R127, R180). -/
def highPage (n : Byte) : Word := 0xFF00#16 + zeroExtend16 n

end Sys2Proof
end

