-- ==== Sys2Proof/Syntax.lean ====
section
/-! DEFINITION. The instructions: one constructor of `Instr` for each of the 115 rows of spec/opcode_table.json, in the table's
order. Operand selectors are types of their own, so that the machine never sees a raw field. -/

namespace Sys2Proof

/-- The seven registers of the 3-bit selector `r8` (30_encoding.md R122), slot 6 left out. -/
inductive Reg8 where
  | b | c | d | e | h | l | a
deriving DecidableEq, Repr

/-- The whole 3-bit selector `r8` (R122): a register, or slot 6, the byte at address HL. -/
inductive Operand8 where
  | reg (r : Reg8)
  | hlInd
deriving DecidableEq, Repr

/-- The pair selector `r16` (R123). -/
inductive Reg16 where
  | bc | de | hl | sp
deriving DecidableEq, Repr

/-- The pair selector `r16stk` of PUSH and POP (R123). -/
inductive Stk16 where
  | bc | de | hl | af
deriving DecidableEq, Repr

/-- The condition selector (R124). -/
inductive Cond where
  | nz | z | nc | c
deriving DecidableEq, Repr

/-- A 3-bit number used as such: the bit number `b` of BIT, RES, SET and the target index `t` of RST (R127). -/
abbrev U3 := Fin 8

/-- The operation that the sub-opcode's fields x and y select in the prefixed table (R125, R130). -/
inductive CbOp where
  | rlc | rrc | rl | rr | sla | sra | swap | srl
  | bit (b : U3)
  | res (b : U3)
  | set (b : U3)
deriving DecidableEq, Repr

/-- The instructions. -/
inductive Instr where
  -- control and miscellaneous (40_control_misc.md, R126)
  | nop
  | stop
  | halt
  | di
  | ei
  | prefixCb (sub : Byte)
  -- jumps, calls, returns (41_jumps_calls.md)
  | jpNn (nn : Word)
  | jpCcNn (cc : Cond) (nn : Word)
  | jpHl
  | jrE (e : Byte)
  | jrCcE (cc : Cond) (e : Byte)
  | callNn (nn : Word)
  | callCcNn (cc : Cond) (nn : Word)
  | ret
  | retCc (cc : Cond)
  | reti
  | rst (t : U3)
  -- 8-bit loads and stores (42_load8.md)
  | ldRR (dst src : Reg8)
  | ldRHl (dst : Reg8)
  | ldHlR (src : Reg8)
  | ldRN (dst : Reg8) (n : Byte)
  | ldHlN (n : Byte)
  | ldhNA (n : Byte)
  | ldhAN (n : Byte)
  | ldCA
  | ldAC
  | ldBcA
  | ldDeA
  | ldABc
  | ldADe
  | ldHliA
  | ldHldA
  | ldAHli
  | ldAHld
  | ldNnA (nn : Word)
  | ldANn (nn : Word)
  -- 16-bit loads and the stack (43_load16.md)
  | ldRrNn (p : Reg16) (nn : Word)
  | ldNnSp (nn : Word)
  | pushRr (p : Stk16)
  | popRr (p : Stk16)
  | ldHlSpE (e : Byte)
  | ldSpHl
  -- 8-bit arithmetic and logic (44_alu8.md)
  | addAR (r : Reg8)
  | addAHl
  | addAN (n : Byte)
  | adcAR (r : Reg8)
  | adcAHl
  | adcAN (n : Byte)
  | subAR (r : Reg8)
  | subAHl
  | subAN (n : Byte)
  | sbcAR (r : Reg8)
  | sbcAHl
  | sbcAN (n : Byte)
  | andAR (r : Reg8)
  | andAHl
  | andAN (n : Byte)
  | xorAR (r : Reg8)
  | xorAHl
  | xorAN (n : Byte)
  | orAR (r : Reg8)
  | orAHl
  | orAN (n : Byte)
  | cpAR (r : Reg8)
  | cpAHl
  | cpAN (n : Byte)
  | incR (r : Reg8)
  | incHl
  | decR (r : Reg8)
  | decHl
  | cpl
  | daa
  | scf
  | ccf
  -- 16-bit arithmetic (45_alu16.md)
  | incRr (p : Reg16)
  | decRr (p : Reg16)
  | addHlRr (p : Reg16)
  | addSpE (e : Byte)
  -- rotates, shifts, bit operations (46_rotate_shift_bit.md)
  | rlca
  | rrca
  | rla
  | rra
  | rlcR (r : Reg8)
  | rlcHl
  | rrcR (r : Reg8)
  | rrcHl
  | rlR (r : Reg8)
  | rlHl
  | rrR (r : Reg8)
  | rrHl
  | slaR (r : Reg8)
  | slaHl
  | sraR (r : Reg8)
  | sraHl
  | swapR (r : Reg8)
  | swapHl
  | srlR (r : Reg8)
  | srlHl
  | bitR (b : U3) (r : Reg8)
  | bitHl (b : U3)
  | resR (b : U3) (r : Reg8)
  | resHl (b : U3)
  | setR (b : U3) (r : Reg8)
  | setHl (b : U3)
  -- the eleven illegal opcode bytes (30_encoding.md R132)
  | illegalD3
  | illegalDB
  | illegalDD
  | illegalE3
  | illegalE4
  | illegalEB
  | illegalEC
  | illegalED
  | illegalF4
  | illegalFC
  | illegalFD
deriving DecidableEq, Repr

end Sys2Proof
end

