-- ==== Sys2Proof/WellFormed.lean ====
section
/-! DEFINITION. Which terms of `Instr` the encoding of 30_encoding.md spells. Register selectors exclude slot 6 by their type and
immediates are bit vectors, so ONE check is left: the prefix byte "selects no operation of its own" (R126), so the decoder never
gives `prefixCb`; its words are those of the prefixed table's instructions (log 5). -/

namespace Sys2Proof

/-- An instruction that the opcode maps R129 and R130 spell. -/
def Instr.wellFormed (i : Instr) : Bool :=
  match i with
  | .prefixCb _ => false
  | .nop => true
  | .stop => true
  | .halt => true
  | .di => true
  | .ei => true
  | .jpNn _ => true
  | .jpCcNn _ _ => true
  | .jpHl => true
  | .jrE _ => true
  | .jrCcE _ _ => true
  | .callNn _ => true
  | .callCcNn _ _ => true
  | .ret => true
  | .retCc _ => true
  | .reti => true
  | .rst _ => true
  | .ldRR _ _ => true
  | .ldRHl _ => true
  | .ldHlR _ => true
  | .ldRN _ _ => true
  | .ldHlN _ => true
  | .ldhNA _ => true
  | .ldhAN _ => true
  | .ldCA => true
  | .ldAC => true
  | .ldBcA => true
  | .ldDeA => true
  | .ldABc => true
  | .ldADe => true
  | .ldHliA => true
  | .ldHldA => true
  | .ldAHli => true
  | .ldAHld => true
  | .ldNnA _ => true
  | .ldANn _ => true
  | .ldRrNn _ _ => true
  | .ldNnSp _ => true
  | .pushRr _ => true
  | .popRr _ => true
  | .ldHlSpE _ => true
  | .ldSpHl => true
  | .addAR _ => true
  | .addAHl => true
  | .addAN _ => true
  | .adcAR _ => true
  | .adcAHl => true
  | .adcAN _ => true
  | .subAR _ => true
  | .subAHl => true
  | .subAN _ => true
  | .sbcAR _ => true
  | .sbcAHl => true
  | .sbcAN _ => true
  | .andAR _ => true
  | .andAHl => true
  | .andAN _ => true
  | .xorAR _ => true
  | .xorAHl => true
  | .xorAN _ => true
  | .orAR _ => true
  | .orAHl => true
  | .orAN _ => true
  | .cpAR _ => true
  | .cpAHl => true
  | .cpAN _ => true
  | .incR _ => true
  | .incHl => true
  | .decR _ => true
  | .decHl => true
  | .cpl => true
  | .daa => true
  | .scf => true
  | .ccf => true
  | .incRr _ => true
  | .decRr _ => true
  | .addHlRr _ => true
  | .addSpE _ => true
  | .rlca => true
  | .rrca => true
  | .rla => true
  | .rra => true
  | .rlcR _ => true
  | .rlcHl => true
  | .rrcR _ => true
  | .rrcHl => true
  | .rlR _ => true
  | .rlHl => true
  | .rrR _ => true
  | .rrHl => true
  | .slaR _ => true
  | .slaHl => true
  | .sraR _ => true
  | .sraHl => true
  | .swapR _ => true
  | .swapHl => true
  | .srlR _ => true
  | .srlHl => true
  | .bitR _ _ => true
  | .bitHl _ => true
  | .resR _ _ => true
  | .resHl _ => true
  | .setR _ _ => true
  | .setHl _ => true
  | .illegalD3 => true
  | .illegalDB => true
  | .illegalDD => true
  | .illegalE3 => true
  | .illegalE4 => true
  | .illegalEB => true
  | .illegalEC => true
  | .illegalED => true
  | .illegalF4 => true
  | .illegalFC => true
  | .illegalFD => true

end Sys2Proof
end

