-- ==== Sys2Proof/Decode.lean ====
section
/-! DEFINITION. From bytes to instructions and back: the fields of the opcode byte (30_encoding.md R121), the opcode maps R129 and
R130, decoding of a byte string, the encoder, the tier G list R131, and the host's `decodeTableWord`. -/

namespace Sys2Proof

/-! ### Fields (R121) and selectors (R122 to R125) -/

/-- Field `x`, bits 7:6. -/
def fieldX (op : Byte) : Fin 4 := ⟨op.toNat / 64, by have := op.isLt; omega⟩

/-- Field `y`, bits 5:3. -/
def fieldY (op : Byte) : Fin 8 := ⟨op.toNat / 8 % 8, by omega⟩

/-- Field `z`, bits 2:0. -/
def fieldZ (op : Byte) : Fin 8 := ⟨op.toNat % 8, by omega⟩

/-- The byte with fields `x`, `y`, `z`. -/
def packFields (x : Fin 4) (y z : Fin 8) : Byte := BitVec.ofNat 8 (x.val * 64 + y.val * 8 + z.val)

/-- R122. -/
def operand8OfCode (n : Fin 8) : Operand8 :=
  match n with
  | 0 => .reg .b
  | 1 => .reg .c
  | 2 => .reg .d
  | 3 => .reg .e
  | 4 => .reg .h
  | 5 => .reg .l
  | 6 => .hlInd
  | 7 => .reg .a

/-- R122, the other way. -/
def reg8Code (r : Reg8) : Fin 8 :=
  match r with
  | .b => 0
  | .c => 1
  | .d => 2
  | .e => 3
  | .h => 4
  | .l => 5
  | .a => 7

/-- R123, `r16`. -/
def reg16OfCode (n : Fin 4) : Reg16 :=
  match n with
  | 0 => .bc
  | 1 => .de
  | 2 => .hl
  | 3 => .sp

/-- R123, `r16`, the other way. -/
def reg16Code (p : Reg16) : Fin 4 :=
  match p with
  | .bc => 0
  | .de => 1
  | .hl => 2
  | .sp => 3

/-- R123, `r16stk`. -/
def stk16OfCode (n : Fin 4) : Stk16 :=
  match n with
  | 0 => .bc
  | 1 => .de
  | 2 => .hl
  | 3 => .af

/-- R123, `r16stk`, the other way. -/
def stk16Code (p : Stk16) : Fin 4 :=
  match p with
  | .bc => 0
  | .de => 1
  | .hl => 2
  | .af => 3

/-- R124. -/
def condOfCode (n : Fin 4) : Cond :=
  match n with
  | 0 => .nz
  | 1 => .z
  | 2 => .nc
  | 3 => .c

/-- R124, the other way. -/
def condCode (cc : Cond) : Fin 4 :=
  match cc with
  | .nz => 0
  | .z => 1
  | .nc => 2
  | .c => 3

/-- Field `p` of R121: the two upper bits of `y`. -/
def fieldP (y : Fin 8) : Fin 4 := ⟨y.val / 2, by omega⟩

/-- Field `q` of R121: the low bit of `y`. -/
def fieldQ (y : Fin 8) : Fin 2 := ⟨y.val % 2, by omega⟩

/-- The condition selector, `y[1:0]` (R124). -/
def fieldCond (y : Fin 8) : Cond := condOfCode ⟨y.val % 4, by omega⟩

/-- `y` from `p` and `q`. -/
def packPQ (p : Fin 4) (q : Fin 2) : Fin 8 := ⟨p.val * 2 + q.val, by omega⟩

/-- `y` of the conditional jumps, calls and returns with `y < 4` (x = 3). -/
def packCondLow (cc : Cond) : Fin 8 := ⟨(condCode cc).val, by omega⟩

/-- `y` of the conditional relative jumps, `001cc000` (x = 0). -/
def packCondHigh (cc : Cond) : Fin 8 := ⟨(condCode cc).val + 4, by omega⟩

/-! ### The opcode maps -/

/-- What follows an opcode byte (R120, R121). -/
inductive OpForm where
  /-- Format I: nothing follows. -/
  | implied (i : Instr)
  /-- Formats N and E: one operand byte. -/
  | withByte (f : Byte → Instr)
  /-- Format NN: two operand bytes, low byte first. -/
  | withWord (f : Word → Instr)
  /-- Format CB: the sub-opcode. -/
  | prefixed
  /-- Format N whose byte is ignored, and not fetched by this machine (STOP, R152). -/
  | unreadByte (i : Instr)

/-- The two-operand operations on A, main table x = 2 (R125, R220): the `r` and `(HL)` forms. -/
def aluForm (y : Fin 8) (v : Operand8) : Instr :=
  match y, v with
  | 0, .reg r => .addAR r
  | 0, .hlInd => .addAHl
  | 1, .reg r => .adcAR r
  | 1, .hlInd => .adcAHl
  | 2, .reg r => .subAR r
  | 2, .hlInd => .subAHl
  | 3, .reg r => .sbcAR r
  | 3, .hlInd => .sbcAHl
  | 4, .reg r => .andAR r
  | 4, .hlInd => .andAHl
  | 5, .reg r => .xorAR r
  | 5, .hlInd => .xorAHl
  | 6, .reg r => .orAR r
  | 6, .hlInd => .orAHl
  | 7, .reg r => .cpAR r
  | 7, .hlInd => .cpAHl

/-- The immediate forms of the same operations, main table x = 3, z = 6. -/
def aluImmForm (y : Fin 8) (n : Byte) : Instr :=
  match y with
  | 0 => .addAN n
  | 1 => .adcAN n
  | 2 => .subAN n
  | 3 => .sbcAN n
  | 4 => .andAN n
  | 5 => .xorAN n
  | 6 => .orAN n
  | 7 => .cpAN n

/-- `LD r8[y], r8[z]`, main table x = 1; `y = z = 6` is HALT (R129). -/
def ldForm (dst src : Operand8) : Instr :=
  match dst, src with
  | .reg dst, .reg src => .ldRR dst src
  | .reg dst, .hlInd => .ldRHl dst
  | .hlInd, .reg src => .ldHlR src
  | .hlInd, .hlInd => .halt

/-- Main table, x = 0 (opcodes 0x00 to 0x3F). -/
def formX0 (y z : Fin 8) : OpForm :=
  match z with
  | 0 =>
    match y with
    | 0 => .implied .nop
    | 1 => .withWord .ldNnSp
    | 2 => .unreadByte .stop
    | 3 => .withByte .jrE
    | 4 => .withByte (.jrCcE (fieldCond y))
    | 5 => .withByte (.jrCcE (fieldCond y))
    | 6 => .withByte (.jrCcE (fieldCond y))
    | 7 => .withByte (.jrCcE (fieldCond y))
  | 1 =>
    match fieldQ y with
    | 0 => .withWord (.ldRrNn (reg16OfCode (fieldP y)))
    | 1 => .implied (.addHlRr (reg16OfCode (fieldP y)))
  | 2 =>
    match y with
    | 0 => .implied .ldBcA
    | 1 => .implied .ldABc
    | 2 => .implied .ldDeA
    | 3 => .implied .ldADe
    | 4 => .implied .ldHliA
    | 5 => .implied .ldAHli
    | 6 => .implied .ldHldA
    | 7 => .implied .ldAHld
  | 3 =>
    match fieldQ y with
    | 0 => .implied (.incRr (reg16OfCode (fieldP y)))
    | 1 => .implied (.decRr (reg16OfCode (fieldP y)))
  | 4 =>
    match operand8OfCode y with
    | .reg r => .implied (.incR r)
    | .hlInd => .implied .incHl
  | 5 =>
    match operand8OfCode y with
    | .reg r => .implied (.decR r)
    | .hlInd => .implied .decHl
  | 6 =>
    match operand8OfCode y with
    | .reg r => .withByte (.ldRN r)
    | .hlInd => .withByte .ldHlN
  | 7 =>
    match y with
    | 0 => .implied .rlca
    | 1 => .implied .rrca
    | 2 => .implied .rla
    | 3 => .implied .rra
    | 4 => .implied .daa
    | 5 => .implied .cpl
    | 6 => .implied .scf
    | 7 => .implied .ccf

/-- Main table, x = 3 (opcodes 0xC0 to 0xFF), with the eleven illegal bytes of R132. -/
def formX3 (y z : Fin 8) : OpForm :=
  match z with
  | 0 =>
    match y with
    | 0 => .implied (.retCc (fieldCond y))
    | 1 => .implied (.retCc (fieldCond y))
    | 2 => .implied (.retCc (fieldCond y))
    | 3 => .implied (.retCc (fieldCond y))
    | 4 => .withByte .ldhNA
    | 5 => .withByte .addSpE
    | 6 => .withByte .ldhAN
    | 7 => .withByte .ldHlSpE
  | 1 =>
    match fieldQ y with
    | 0 => .implied (.popRr (stk16OfCode (fieldP y)))
    | 1 =>
      match fieldP y with
      | 0 => .implied .ret
      | 1 => .implied .reti
      | 2 => .implied .jpHl
      | 3 => .implied .ldSpHl
  | 2 =>
    match y with
    | 0 => .withWord (.jpCcNn (fieldCond y))
    | 1 => .withWord (.jpCcNn (fieldCond y))
    | 2 => .withWord (.jpCcNn (fieldCond y))
    | 3 => .withWord (.jpCcNn (fieldCond y))
    | 4 => .implied .ldCA
    | 5 => .withWord .ldNnA
    | 6 => .implied .ldAC
    | 7 => .withWord .ldANn
  | 3 =>
    match y with
    | 0 => .withWord .jpNn
    | 1 => .prefixed
    | 2 => .implied .illegalD3
    | 3 => .implied .illegalDB
    | 4 => .implied .illegalE3
    | 5 => .implied .illegalEB
    | 6 => .implied .di
    | 7 => .implied .ei
  | 4 =>
    match y with
    | 0 => .withWord (.callCcNn (fieldCond y))
    | 1 => .withWord (.callCcNn (fieldCond y))
    | 2 => .withWord (.callCcNn (fieldCond y))
    | 3 => .withWord (.callCcNn (fieldCond y))
    | 4 => .implied .illegalE4
    | 5 => .implied .illegalEC
    | 6 => .implied .illegalF4
    | 7 => .implied .illegalFC
  | 5 =>
    match fieldQ y with
    | 0 => .implied (.pushRr (stk16OfCode (fieldP y)))
    | 1 =>
      match fieldP y with
      | 0 => .withWord .callNn
      | 1 => .implied .illegalDD
      | 2 => .implied .illegalED
      | 3 => .implied .illegalFD
  | 6 => .withByte (aluImmForm y)
  | 7 => .implied (.rst y)

/-- R129: what each opcode byte of the main table selects. -/
def opForm (op : Byte) : OpForm :=
  match fieldX op with
  | 0 => formX0 (fieldY op) (fieldZ op)
  | 1 => .implied (ldForm (operand8OfCode (fieldY op)) (operand8OfCode (fieldZ op)))
  | 2 => .implied (aluForm (fieldY op) (operand8OfCode (fieldZ op)))
  | 3 => formX3 (fieldY op) (fieldZ op)

/-- R125, R130: the operation that a sub-opcode selects. -/
def cbOp (sub : Byte) : CbOp :=
  match fieldX sub with
  | 0 =>
    match fieldY sub with
    | 0 => .rlc
    | 1 => .rrc
    | 2 => .rl
    | 3 => .rr
    | 4 => .sla
    | 5 => .sra
    | 6 => .swap
    | 7 => .srl
  | 1 => .bit (fieldY sub)
  | 2 => .res (fieldY sub)
  | 3 => .set (fieldY sub)

/-- The operand that a sub-opcode selects (R122, R130). -/
def cbOperand (sub : Byte) : Operand8 := operand8OfCode (fieldZ sub)

/-- The instruction of the prefixed table with this operation and operand. -/
def cbForm (op : CbOp) (v : Operand8) : Instr :=
  match op, v with
  | .rlc, .reg r => .rlcR r
  | .rlc, .hlInd => .rlcHl
  | .rrc, .reg r => .rrcR r
  | .rrc, .hlInd => .rrcHl
  | .rl, .reg r => .rlR r
  | .rl, .hlInd => .rlHl
  | .rr, .reg r => .rrR r
  | .rr, .hlInd => .rrHl
  | .sla, .reg r => .slaR r
  | .sla, .hlInd => .slaHl
  | .sra, .reg r => .sraR r
  | .sra, .hlInd => .sraHl
  | .swap, .reg r => .swapR r
  | .swap, .hlInd => .swapHl
  | .srl, .reg r => .srlR r
  | .srl, .hlInd => .srlHl
  | .bit b, .reg r => .bitR b r
  | .bit b, .hlInd => .bitHl b
  | .res b, .reg r => .resR b r
  | .res b, .hlInd => .resHl b
  | .set b, .reg r => .setR b r
  | .set b, .hlInd => .setHl b

/-- R130: the instruction each sub-opcode of the prefixed table selects. All 256 are defined. -/
def decodeCb (sub : Byte) : Instr := cbForm (cbOp sub) (cbOperand sub)

/-- The tier G opcode bytes, in the order R131 lists them. -/
def tierGOpcodes : List Byte :=
  [0x76, 0x10, 0xF3, 0xFB, 0xE9, 0xC4, 0xCC, 0xD4, 0xDC, 0xC0, 0xC8, 0xD0, 0xD8]
  ++ [0xC7, 0xCF, 0xD7, 0xDF, 0xE7, 0xEF, 0xF7, 0xFF]
  ++ [0x02, 0x12, 0x0A, 0x1A, 0x22, 0x32, 0x2A, 0x3A, 0xEA, 0xFA]
  ++ [0x88, 0x89, 0x8A, 0x8B, 0x8C, 0x8D, 0x8E, 0x8F, 0xCE]
  ++ [0x98, 0x99, 0x9A, 0x9B, 0x9C, 0x9D, 0x9E, 0x9F, 0xDE]
  ++ [0x27, 0x37, 0x3F, 0x03, 0x13, 0x23, 0x33, 0x0B, 0x1B, 0x2B, 0x3B]
  ++ [0x09, 0x19, 0x29, 0x39, 0xE8]

/-- R131: the opcode byte is a tier G opcode. -/
def tierG (op : Byte) : Bool := tierGOpcodes.contains op

/-! ### Decoding a byte string -/

/-- Why a byte string is not an instruction. The first byte alone never is a reason: every opcode byte is an instruction, the
prefix byte or one of the eleven illegal bytes, which are rows of the table (R132, R133). -/
inductive DecodeError where
  /-- There is no byte. -/
  | empty
  /-- The operand bytes that this opcode needs are not all there. -/
  | truncated (op : Byte)
  /-- The prefix byte is not followed by a sub-opcode. -/
  | missingSubOpcode
deriving DecidableEq, Repr

/-- The first instruction of a byte string, and the bytes after it (R128, without the fetches). -/
def decode (bytes : List Byte) : Except DecodeError (Instr × List Byte) :=
  match bytes with
  | [] => .error .empty
  | op :: rest =>
    match opForm op with
    | .implied i => .ok (i, rest)
    | .unreadByte i => .ok (i, rest.drop 1)
    | .prefixed =>
      match rest with
      | sub :: rest' => .ok (decodeCb sub, rest')
      | [] => .error .missingSubOpcode
    | .withByte f =>
      match rest with
      | n :: rest' => .ok (f n, rest')
      | [] => .error (.truncated op)
    | .withWord f =>
      match rest with
      | lo :: hi :: rest' => .ok (f (joinBytes hi lo), rest')
      | _ => .error (.truncated op)

/-- The host's reading of a row's word: the instruction is the bytes of `w` from its least significant one on, every bit at or
above `nbits` being 0 (logs 10 and 11). -/
def tableBytes (nbits w : Nat) : List Byte :=
  let v := w % 2 ^ nbits
  [BitVec.ofNat 8 v, BitVec.ofNat 8 (v / 256), BitVec.ofNat 8 (v / 65536)]

/-- The instruction that the decoder reads from an instruction whose bits are `w`. -/
def decodeTableWord (nbits w : Nat) : Option Instr :=
  match decode (tableBytes nbits w) with
  | .ok (i, _) => some i
  | .error _ => none

/-! ### The encoder (R121 to R132) -/

/-- Format NN: an opcode byte and a little-endian word. -/
def encodeWord (op : Byte) (nn : Word) : List Byte := [op, loByte nn, hiByte nn]

/-- Format CB: the prefix byte and a sub-opcode. -/
def encodeCb (x : Fin 4) (y z : Fin 8) : List Byte := [0xCB, packFields x y z]

/-- The bytes of an instruction, in ascending address order. STOP's ignored second byte is 0x00 (log 7). -/
def encode (i : Instr) : List Byte :=
  match i with
  | .nop => [0x00]
  | .stop => [0x10, 0x00]
  | .halt => [0x76]
  | .di => [0xF3]
  | .ei => [0xFB]
  | .prefixCb sub => [0xCB, sub]
  | .jpNn nn => encodeWord 0xC3 nn
  | .jpCcNn cc nn => encodeWord (packFields 3 (packCondLow cc) 2) nn
  | .jpHl => [0xE9]
  | .jrE e => [0x18, e]
  | .jrCcE cc e => [packFields 0 (packCondHigh cc) 0, e]
  | .callNn nn => encodeWord 0xCD nn
  | .callCcNn cc nn => encodeWord (packFields 3 (packCondLow cc) 4) nn
  | .ret => [0xC9]
  | .retCc cc => [packFields 3 (packCondLow cc) 0]
  | .reti => [0xD9]
  | .rst t => [packFields 3 t 7]
  | .ldRR dst src => [packFields 1 (reg8Code dst) (reg8Code src)]
  | .ldRHl dst => [packFields 1 (reg8Code dst) 6]
  | .ldHlR src => [packFields 1 6 (reg8Code src)]
  | .ldRN dst n => [packFields 0 (reg8Code dst) 6, n]
  | .ldHlN n => [0x36, n]
  | .ldhNA n => [0xE0, n]
  | .ldhAN n => [0xF0, n]
  | .ldCA => [0xE2]
  | .ldAC => [0xF2]
  | .ldBcA => [0x02]
  | .ldDeA => [0x12]
  | .ldABc => [0x0A]
  | .ldADe => [0x1A]
  | .ldHliA => [0x22]
  | .ldHldA => [0x32]
  | .ldAHli => [0x2A]
  | .ldAHld => [0x3A]
  | .ldNnA nn => encodeWord 0xEA nn
  | .ldANn nn => encodeWord 0xFA nn
  | .ldRrNn p nn => encodeWord (packFields 0 (packPQ (reg16Code p) 0) 1) nn
  | .ldNnSp nn => encodeWord 0x08 nn
  | .pushRr p => [packFields 3 (packPQ (stk16Code p) 0) 5]
  | .popRr p => [packFields 3 (packPQ (stk16Code p) 0) 1]
  | .ldHlSpE e => [0xF8, e]
  | .ldSpHl => [0xF9]
  | .addAR r => [packFields 2 0 (reg8Code r)]
  | .addAHl => [0x86]
  | .addAN n => [0xC6, n]
  | .adcAR r => [packFields 2 1 (reg8Code r)]
  | .adcAHl => [0x8E]
  | .adcAN n => [0xCE, n]
  | .subAR r => [packFields 2 2 (reg8Code r)]
  | .subAHl => [0x96]
  | .subAN n => [0xD6, n]
  | .sbcAR r => [packFields 2 3 (reg8Code r)]
  | .sbcAHl => [0x9E]
  | .sbcAN n => [0xDE, n]
  | .andAR r => [packFields 2 4 (reg8Code r)]
  | .andAHl => [0xA6]
  | .andAN n => [0xE6, n]
  | .xorAR r => [packFields 2 5 (reg8Code r)]
  | .xorAHl => [0xAE]
  | .xorAN n => [0xEE, n]
  | .orAR r => [packFields 2 6 (reg8Code r)]
  | .orAHl => [0xB6]
  | .orAN n => [0xF6, n]
  | .cpAR r => [packFields 2 7 (reg8Code r)]
  | .cpAHl => [0xBE]
  | .cpAN n => [0xFE, n]
  | .incR r => [packFields 0 (reg8Code r) 4]
  | .incHl => [0x34]
  | .decR r => [packFields 0 (reg8Code r) 5]
  | .decHl => [0x35]
  | .cpl => [0x2F]
  | .daa => [0x27]
  | .scf => [0x37]
  | .ccf => [0x3F]
  | .incRr p => [packFields 0 (packPQ (reg16Code p) 0) 3]
  | .decRr p => [packFields 0 (packPQ (reg16Code p) 1) 3]
  | .addHlRr p => [packFields 0 (packPQ (reg16Code p) 1) 1]
  | .addSpE e => [0xE8, e]
  | .rlca => [0x07]
  | .rrca => [0x0F]
  | .rla => [0x17]
  | .rra => [0x1F]
  | .rlcR r => encodeCb 0 0 (reg8Code r)
  | .rlcHl => encodeCb 0 0 6
  | .rrcR r => encodeCb 0 1 (reg8Code r)
  | .rrcHl => encodeCb 0 1 6
  | .rlR r => encodeCb 0 2 (reg8Code r)
  | .rlHl => encodeCb 0 2 6
  | .rrR r => encodeCb 0 3 (reg8Code r)
  | .rrHl => encodeCb 0 3 6
  | .slaR r => encodeCb 0 4 (reg8Code r)
  | .slaHl => encodeCb 0 4 6
  | .sraR r => encodeCb 0 5 (reg8Code r)
  | .sraHl => encodeCb 0 5 6
  | .swapR r => encodeCb 0 6 (reg8Code r)
  | .swapHl => encodeCb 0 6 6
  | .srlR r => encodeCb 0 7 (reg8Code r)
  | .srlHl => encodeCb 0 7 6
  | .bitR b r => encodeCb 1 b (reg8Code r)
  | .bitHl b => encodeCb 1 b 6
  | .resR b r => encodeCb 2 b (reg8Code r)
  | .resHl b => encodeCb 2 b 6
  | .setR b r => encodeCb 3 b (reg8Code r)
  | .setHl b => encodeCb 3 b 6
  | .illegalD3 => [0xD3]
  | .illegalDB => [0xDB]
  | .illegalDD => [0xDD]
  | .illegalE3 => [0xE3]
  | .illegalE4 => [0xE4]
  | .illegalEB => [0xEB]
  | .illegalEC => [0xEC]
  | .illegalED => [0xED]
  | .illegalF4 => [0xF4]
  | .illegalFC => [0xFC]
  | .illegalFD => [0xFD]

end Sys2Proof
end

