-- ==== Sys2Proof/Config.lean ====
section
/-! DEFINITION. The implementation parameters of 00_scope.md R7 that a model takes as arguments. The default values are in
`Sys2Proof/Machine/Defaults.lean`. Every value is held in the machine's state (log 1), so a statement about every state holds
for every value of every parameter. -/

namespace Sys2Proof

/-- `REPERTOIRE` (R5, R7): with `documented` every tier G opcode is fatal. -/
inductive Repertoire where
  | full
  | documented
deriving DecidableEq, Repr

/-! ### The cycle table `CYC` (R7, R380)

One entry for each row of spec/opcode_table.json, two for a conditional one; the rules give every opcode of a row the same cost
(log 15). The entries that R7 names apart (`CYC_PUSH`, `CYC_POP`, `CYC_BIT_HL`) are fields of `Config`. -/

/-- The costs of a conditional transfer. -/
structure CondCosts where
  taken : Nat
  notTaken : Nat
deriving DecidableEq, Repr

/-- The costs of an operation on a register and on the byte at HL. -/
structure PlaceCosts where
  r : Nat
  hl : Nat
deriving DecidableEq, Repr

/-- The costs of an operation whose operand is a register, the byte at HL or an immediate byte. -/
structure FormCosts where
  r : Nat
  hl : Nat
  n : Nat
deriving DecidableEq, Repr

/-- 40_control_misc.md. -/
structure ControlCosts where
  nop : Nat
  halt : Nat
  di : Nat
  ei : Nat
deriving DecidableEq, Repr

/-- 41_jumps_calls.md. -/
structure JumpCosts where
  jpNn : Nat
  jpCcNn : CondCosts
  jpHl : Nat
  jrE : Nat
  jrCcE : CondCosts
  callNn : Nat
  callCcNn : CondCosts
  ret : Nat
  retCc : CondCosts
  reti : Nat
  rst : Nat
deriving DecidableEq, Repr

/-- 42_load8.md. -/
structure Load8Costs where
  rr : Nat
  rHl : Nat
  hlR : Nat
  rn : Nat
  hlN : Nat
  hNA : Nat
  hAN : Nat
  cA : Nat
  aC : Nat
  bcA : Nat
  deA : Nat
  aBc : Nat
  aDe : Nat
  hliA : Nat
  hldA : Nat
  aHli : Nat
  aHld : Nat
  nnA : Nat
  aNn : Nat
deriving DecidableEq, Repr

/-- 43_load16.md, but for PUSH and POP. -/
structure Load16Costs where
  rrNn : Nat
  nnSp : Nat
  hlSpE : Nat
  spHl : Nat
deriving DecidableEq, Repr

/-- 44_alu8.md. -/
structure Alu8Costs where
  add : FormCosts
  adc : FormCosts
  sub : FormCosts
  sbc : FormCosts
  and : FormCosts
  xor : FormCosts
  or : FormCosts
  cp : FormCosts
  inc : PlaceCosts
  dec : PlaceCosts
  cpl : Nat
  daa : Nat
  scf : Nat
  ccf : Nat
deriving DecidableEq, Repr

/-- 45_alu16.md. -/
structure Alu16Costs where
  incRr : Nat
  decRr : Nat
  addHlRr : Nat
  addSpE : Nat
deriving DecidableEq, Repr

/-- 46_rotate_shift_bit.md, but for `BIT b,(HL)`. -/
structure BitsCosts where
  rlca : Nat
  rrca : Nat
  rla : Nat
  rra : Nat
  rlc : PlaceCosts
  rrc : PlaceCosts
  rl : PlaceCosts
  rr : PlaceCosts
  sla : PlaceCosts
  sra : PlaceCosts
  swap : PlaceCosts
  srl : PlaceCosts
  bitR : Nat
  res : PlaceCosts
  set : PlaceCosts
deriving DecidableEq, Repr

/-- `CYC`. -/
structure CycleTable where
  control : ControlCosts
  jumps : JumpCosts
  load8 : Load8Costs
  load16 : Load16Costs
  alu8 : Alu8Costs
  alu16 : Alu16Costs
  bits : BitsCosts
deriving DecidableEq, Repr

/-- The open parameters of R7, one field each, under the names R7 gives them. The image and the
initial RAM contents are launch parameters (`Machine/Boot.lean`); the rows that R7 marks as fixed are no fields. -/
structure Config where
  /-- `REPERTOIRE` (D1). -/
  repertoire : Repertoire
  /-- `RESET_A`. -/
  resetA : Byte
  /-- `RESET_B`. -/
  resetB : Byte
  /-- `RESET_C`. -/
  resetC : Byte
  /-- `RESET_D`. -/
  resetD : Byte
  /-- `RESET_E`. -/
  resetE : Byte
  /-- `RESET_H`. -/
  resetH : Byte
  /-- `RESET_L`. -/
  resetL : Byte
  /-- `RESET_FLAGS`, the Zero flag. -/
  resetFZ : Bool
  /-- `RESET_FLAGS`, the Subtract flag. -/
  resetFN : Bool
  /-- `RESET_FLAGS`, the Half-carry flag. -/
  resetFH : Bool
  /-- `RESET_FLAGS`, the Carry flag. -/
  resetFC : Bool
  /-- `RESET_SP`. -/
  resetSp : Word
  /-- `RESET_PC`. -/
  resetPc : Word
  /-- `F_LOW`: the low nibble of the flag byte as PUSH AF stores it (R24, D3). -/
  fLow : BitVec 4
  /-- `MAP_VIDEO_RAM` (R61, D4). -/
  mapVideoRam : Bool
  /-- `HRAM_SIZE`: high RAM takes the addresses from 0xFF80 on, this many and up to 0xFFFE (R67, D5; log 20). -/
  hramSize : Nat
  /-- `CYC` (R380, D6). -/
  cyc : CycleTable
  /-- `CYC_PUSH` (R213, D6). -/
  cycPush : Nat
  /-- `CYC_POP` (R214, D6). -/
  cycPop : Nat
  /-- `CYC_BIT_HL` (R274, D6). -/
  cycBitHl : Nat
  /-- `CYC_DISPATCH` (R308, D7). -/
  cycDispatch : Nat
  /-- `CYC_HALT_IDLE` (R312, D8). -/
  cycHaltIdle : Nat
  /-- `RAM_SIZE_TABLE`: header code to cartridge RAM bytes (R92, D9). -/
  ramSizeTable : List (Byte × Nat)
  /-- `RAM_BANK_SIZE`: bytes per cartridge RAM bank (R101, D10). -/
  ramBankSize : Nat
  /-- `LCD_REG_RESET` (R37, D12). -/
  lcdRegReset : Byte
deriving DecidableEq, Repr

end Sys2Proof
end

