-- ==== Sys2Proof/Machine/Defaults.lean ====
section
/-! DEFINITION. The default value of every parameter, as 00_scope.md R7 states it, and the sizes and numbers the spec fixes. -/

namespace Sys2Proof.Machine

/-- `RAM_SIZE_TABLE` (R92). -/
def defaultRamSizeTable : List (Byte × Nat) :=
  [(0x00, 0), (0x02, 8192), (0x03, 32768), (0x04, 131072), (0x05, 65536)]

/-- `CYC`, the cycle table (R380). -/
def defaultCycles : CycleTable where
  control := { nop := 4, halt := 4, di := 4, ei := 4 }
  jumps :=
    { jpNn := 16, jpCcNn := { taken := 16, notTaken := 12 }, jpHl := 4, jrE := 12, jrCcE := { taken := 12, notTaken := 8 }
      callNn := 24, callCcNn := { taken := 24, notTaken := 12 }, ret := 16, retCc := { taken := 20, notTaken := 8 }, reti := 16
      rst := 16 }
  load8 :=
    { rr := 4, rHl := 8, hlR := 8, rn := 8, hlN := 12, hNA := 12, hAN := 12, cA := 8, aC := 8, bcA := 8, deA := 8, aBc := 8
      aDe := 8, hliA := 8, hldA := 8, aHli := 8, aHld := 8, nnA := 16, aNn := 16 }
  load16 := { rrNn := 12, nnSp := 20, hlSpE := 12, spHl := 8 }
  alu8 :=
    { add := ⟨4, 8, 8⟩, adc := ⟨4, 8, 8⟩, sub := ⟨4, 8, 8⟩, sbc := ⟨4, 8, 8⟩, and := ⟨4, 8, 8⟩, xor := ⟨4, 8, 8⟩
      or := ⟨4, 8, 8⟩, cp := ⟨4, 8, 8⟩, inc := ⟨4, 12⟩, dec := ⟨4, 12⟩, cpl := 4, daa := 4, scf := 4, ccf := 4 }
  alu16 := { incRr := 8, decRr := 8, addHlRr := 8, addSpE := 16 }
  bits :=
    { rlca := 4, rrca := 4, rla := 4, rra := 4, rlc := ⟨8, 16⟩, rrc := ⟨8, 16⟩, rl := ⟨8, 16⟩, rr := ⟨8, 16⟩, sla := ⟨8, 16⟩
      sra := ⟨8, 16⟩, swap := ⟨8, 16⟩, srl := ⟨8, 16⟩, bitR := 8, res := ⟨8, 16⟩, set := ⟨8, 16⟩ }

/-- The defaults of R7. -/
def defaultConfig : Config where
  repertoire := .full
  resetA := 0x01
  resetB := 0x00
  resetC := 0x13
  resetD := 0x00
  resetE := 0xD8
  resetH := 0x01
  resetL := 0x4D
  resetFZ := true
  resetFN := false
  resetFH := true
  resetFC := true
  resetSp := 0xFFFE
  resetPc := 0x0100
  fLow := 0
  mapVideoRam := false
  hramSize := 127
  cyc := defaultCycles
  cycPush := 16
  cycPop := 12
  cycBitHl := 16
  cycDispatch := 20
  cycHaltIdle := 4
  ramSizeTable := defaultRamSizeTable
  ramBankSize := 8192
  lcdRegReset := 0x00

/-- Bytes in one ROM bank (R90, R99). -/
def romBankSize : Nat := 16384

/-- Bytes in the cartridge RAM window (R57). -/
def ramWindowSize : Nat := 8192

/-- Bytes in each work-RAM bank (R59). -/
def wramSize : Nat := 4096

/-- Addresses from 0xFF80 to 0xFFFE (R57). -/
def hramSpan : Nat := 127

/-- Bytes of video RAM (R61). -/
def vramSize : Nat := 8192

/-- Bytes of object attribute memory (R61). -/
def oamSize : Nat := 160

/-- Dots in one frame (R341). -/
def dotsPerFrame : Nat := 70224

/-- Dots in one scanline (R341). -/
def dotsPerLine : Nat := 456

/-- The dot at which vertical blank begins (R341, R343). -/
def vblankDot : Nat := 65664

end Sys2Proof.Machine
end

