-- ==== Sys2Proof/Machine/Memory.lean ====
section
/-! DEFINITION. A block of byte cells in ONE canonical form: (offset, byte) pairs with strictly rising offsets and no pair equal to
what an unlisted offset reads as. Every memory of 10_state.md R33 is one such block, keyed by the offset inside the block. -/

namespace Sys2Proof.Machine

/-- A block of cells. -/
abbrev Memory := List Host.Cell

/-- What an offset that is not listed reads as. 10_state.md R37 leaves the RAMs' initial contents unspecified; the byte 0x00 is the
model's DESIGN CHOICE (log 2). In the cartridge image a byte that is not listed is 0x00 as well (log 3). -/
def unlistedByte : Byte := 0x00

/-- The byte at an offset. -/
def Memory.read (m : Memory) (k : Nat) : Byte :=
  match m with
  | [] => unlistedByte
  | (a, v) :: rest => if k = a then v else Memory.read rest k

/-- Store a byte, keeping the canonical form. -/
def Memory.write (m : Memory) (k : Nat) (v : Byte) : Memory :=
  match m with
  | [] => if v = unlistedByte then [] else [(k, v)]
  | (a, w) :: rest =>
    if k < a then (if v = unlistedByte then (a, w) :: rest else (k, v) :: (a, w) :: rest)
    else if k = a then (if v = unlistedByte then rest else (k, v) :: rest)
    else (a, w) :: Memory.write rest k v

/-- The canonical form. -/
def Memory.wf (m : Memory) : Bool :=
  match m with
  | [] => true
  | (a, v) :: rest => v != unlistedByte && rest.all (fun cell => decide (a < cell.1)) && Memory.wf rest

/-- Every listed offset lies inside a block of `size` bytes. -/
def Memory.within (m : Memory) (size : Nat) : Bool := m.all (fun cell => decide (cell.1 < size))

end Sys2Proof.Machine
end

