-- ==== Sys2Proof/Machine/State.lean ====
section
/-! DEFINITION. Every piece of state the spec gives the machine (10_state.md), the reasons a step can stop, and the state after
reset (R37). Plain data throughout. -/

namespace Sys2Proof.Machine

/-- The seven general registers (R20). The pairs BC, DE, HL are views (R22; `Machine/Operands.lean`). -/
structure Regs where
  b : Byte
  c : Byte
  d : Byte
  e : Byte
  h : Byte
  l : Byte
  a : Byte
deriving DecidableEq, Repr

/-- The four flags (R23). The byte F is a view (R24). -/
structure Flags where
  /-- `fZ`, Zero. -/
  z : Bool
  /-- `fN`, Subtract. -/
  n : Bool
  /-- `fH`, Half-carry. -/
  h : Bool
  /-- `fC`, Carry. -/
  c : Bool
deriving DecidableEq, Repr

/-- The memories of R33 outside the cartridge. `vram` and `oam` are reachable only when `MAP_VIDEO_RAM` is true (R61). -/
structure Ram where
  wram0 : Memory
  wram1 : Memory
  hram : Memory
  vram : Memory
  oam : Memory
deriving DecidableEq, Repr

/-- The controller variants (R91). -/
inductive Variant where
  | noController
  | mbc1
deriving DecidableEq, Repr

/-- The banking mode latch (R34, R97). -/
inductive BankMode where
  /-- 0: simple ROM banking. -/
  | simpleRom
  /-- 1: RAM banking. -/
  | ramBanking
deriving DecidableEq, Repr

/-- The cartridge: the image, the variant it selects, its RAM and the bank controller's latches (R33, R34, R90 to R92). In the
no-controller variant the RAM and the latches are inert (R93; log 12). -/
structure Cart where
  variant : Variant
  /-- `ROM`, immutable. -/
  rom : Memory
  /-- `NBANKS = length(ROM) / 16384`. -/
  banks : Nat
  /-- `CARTRAM`. -/
  ram : Memory
  /-- `length(CARTRAM)`. -/
  ramSize : Nat
  /-- `ram_en`. -/
  ramEn : Bool
  /-- `bank_lo`. -/
  bankLo : BitVec 5
  /-- `bank_hi`. -/
  bankHi : BitVec 2
  /-- `mode`. -/
  mode : BankMode
deriving DecidableEq, Repr

/-- The display register bytes (R36). Of `STAT` only bits 7:3 are state. -/
structure LcdRegs where
  lcdc : Byte
  stat : BitVec 5
  scy : Byte
  scx : Byte
  lyc : Byte
  bgp : Byte
  obp0 : Byte
  obp1 : Byte
  wy : Byte
  wx : Byte
deriving DecidableEq, Repr

/-- The whole machine. -/
structure State where
  regs : Regs
  flags : Flags
  sp : Word
  pc : Word
  /-- The interrupt master enable (R28). -/
  ime : Bool
  /-- `ei_pending` (R28). -/
  eiPending : Bool
  /-- `halted` (R31). -/
  halted : Bool
  /-- `IE` (R29). -/
  ie : Byte
  /-- `IF` (R30). -/
  irq : BitVec 5
  ram : Ram
  cart : Cart
  /-- The dot counter (R35). -/
  dot : Nat
  lcd : LcdRegs
  /-- The cycle count of the step (R10, R12, R13): the model's own field (log 4). -/
  cycles : Nat
  /-- The parameters (R7), which nothing changes (log 1). -/
  config : Config
deriving DecidableEq, Repr

/-- Whether a fatal bus access was a read (a fetch is one) or a write (R301, "info"). -/
inductive AccessKind where
  | read
  | write
deriving DecidableEq, Repr

/-- What is wrong with a cartridge image at load time (R90 to R92, R301, "info"). -/
inductive HeaderProblem where
  /-- The header byte at this offset (0x0147 or 0x0149) has this value, which selects nothing. -/
  | byteAt (offset : Nat) (value : Byte)
  /-- The image's length is not legal (R90). -/
  | length (n : Nat)
deriving DecidableEq, Repr

/-- The fatal kinds of R301. Each ends the run; the state is gone (R300; log 6). -/
inductive Fault where
  /-- Raised by the eleven illegal bytes (R132), by STOP (R152), by HALT in the case R151 refuses, and by a tier G opcode under
  `REPERTOIRE = documented` (R128). Safe: the spec itself stops there. -/
  | unimplementedOpcode (op : Byte)
  /-- Raised by any fetch, load, store, push, pop or dispatch at an address with no owner (R52, R53, R57). Safe: the spec itself
  stops there. -/
  | unmappedAddress (addr : Word) (kind : AccessKind)
  /-- Raised by `boot` only, before a machine exists (R90 to R92). Safe. -/
  | malformedCartridgeHeader (what : HeaderProblem)
  /-- Raised by `boot` only, when there is no image (R301; log 13). Safe. -/
  | imageIoFailure
deriving DecidableEq, Repr

/-- Instructions the model declines. None is declined: no arm of `exec` uses this (R13). -/
inductive Refusal where
  /-- Raised by an arm of `exec` whose instruction has no meaning yet. Safe. -/
  | notModelled (mnemonic : String)
deriving DecidableEq, Repr

/-- R37: the state right after reset, for given parameters, cartridge and initial RAM contents. -/
def State.initial (cfg : Config) (cart : Cart) (ram : Ram) : State where
  regs :=
    { a := cfg.resetA, b := cfg.resetB, c := cfg.resetC, d := cfg.resetD, e := cfg.resetE, h := cfg.resetH, l := cfg.resetL }
  flags := { z := cfg.resetFZ, n := cfg.resetFN, h := cfg.resetFH, c := cfg.resetFC }
  sp := cfg.resetSp
  pc := cfg.resetPc
  ime := false
  eiPending := false
  halted := false
  ie := 0x00
  irq := 0
  ram := ram
  cart := cart
  dot := 0
  lcd :=
    { lcdc := cfg.lcdRegReset, stat := cfg.lcdRegReset.extractLsb' 3 5, scy := cfg.lcdRegReset, scx := cfg.lcdRegReset,
      lyc := cfg.lcdRegReset, bgp := cfg.lcdRegReset, obp0 := cfg.lcdRegReset, obp1 := cfg.lcdRegReset, wy := cfg.lcdRegReset,
      wx := cfg.lcdRegReset }
  cycles := 0
  config := cfg

/-- A cartridge right after reset: the latches of R105. -/
def Cart.initial (variant : Variant) (rom : Memory) (banks : Nat) (ram : Memory) (ramSize : Nat) : Cart where
  variant := variant
  rom := rom
  banks := banks
  ram := ram
  ramSize := ramSize
  ramEn := false
  bankLo := 1
  bankHi := 0
  mode := .simpleRom

/-- RAM in which nothing is listed (log 2). -/
def Ram.blank : Ram where
  wram0 := []
  wram1 := []
  hram := []
  vram := []
  oam := []

/-- The blank image: 32768 bytes 0x00, hence no controller (R90, R91; log 3). -/
def Cart.blank : Cart := Cart.initial .noController [] 2 [] 0

/-- The machine right after reset with the default parameters of R7. -/
def State.reset : State := State.initial defaultConfig Cart.blank Ram.blank

end Sys2Proof.Machine
end

