-- ==== Sys2Proof/Machine/Cartridge.lean ====
section
/-! DEFINITION. The cartridge block (21_cartridge_mbc1.md): the no-controller mapping R93 and the MBC1 translation R94 to R104. -/

namespace Sys2Proof.Machine

/-- `rom_bank` (R98). -/
def Cart.romBank (c : Cart) : Nat := (c.bankHi.toNat * 32 + c.bankLo.toNat) % c.banks

/-- The offset in `ROM` of a read at `n`, 0x0000 to 0x7FFF (R93, R99). -/
def Cart.romOffset (c : Cart) (n : Nat) : Nat :=
  match c.variant with
  | .noController => n
  | .mbc1 => if n < 0x4000 then n else c.romBank * romBankSize + (n - 0x4000)

/-- A read at `n`, 0x0000 to 0x7FFF. -/
def Cart.readRom (c : Cart) (n : Nat) : Byte := c.rom.read (c.romOffset n)

/-- `ram_bank` (R101). -/
def Cart.ramBank (c : Cart) : Nat :=
  match c.mode with
  | .simpleRom => 0
  | .ramBanking => c.bankHi.toNat

/-- The RAM window shows a cell: there is a controller, RAM is fitted, and it is enabled (R93, R100, R102). -/
def Cart.ramShown (c : Cart) : Bool := decide (c.variant = .mbc1) && c.ramEn && decide (0 < c.ramSize)

/-- The offset in `CARTRAM` of the window's byte `k`, 0 to 0x1FFF (R100, R102); `bankSize` is `RAM_BANK_SIZE` (R101). -/
def Cart.ramOffset (c : Cart) (bankSize k : Nat) : Nat := (c.ramBank * bankSize + k) % c.ramSize

/-- The open bus value (R93, R100). -/
def openBus : Byte := 0xFF

/-- A read at byte `k` of the RAM window (R93, R100). -/
def Cart.readRam (c : Cart) (bankSize k : Nat) : Byte := if c.ramShown then c.ram.read (c.ramOffset bankSize k) else openBus

/-- A write at byte `k` of the RAM window (R93, R102). -/
def Cart.writeRam (c : Cart) (bankSize k : Nat) (v : Byte) : Cart :=
  if c.ramShown then { c with ram := c.ram.write (c.ramOffset bankSize k) v } else c

/-- `ram_en <- (v[3:0] = 0xA)` (R94). -/
def Cart.writeRamEnable (c : Cart) (v : Byte) : Cart := { c with ramEn := decide (v.extractLsb' 0 4 = 0xA#4) }

/-- `bank_lo`: a written 0 is stored as 1 (R95). -/
def Cart.writeBankLo (c : Cart) (v : Byte) : Cart :=
  { c with bankLo := if v.extractLsb' 0 5 = 0#5 then 1#5 else v.extractLsb' 0 5 }

/-- `bank_hi <- v[1:0]` (R96). -/
def Cart.writeBankHi (c : Cart) (v : Byte) : Cart := { c with bankHi := v.extractLsb' 0 2 }

/-- `mode <- v[0]` (R97). -/
def Cart.writeMode (c : Cart) (v : Byte) : Cart := { c with mode := if v.getLsbD 0 then .ramBanking else .simpleRom }

/-- A write at `n`, 0x0000 to 0x7FFF: discarded (R93) or a latch write (R94 to R97). -/
def Cart.writeRom (c : Cart) (n : Nat) (v : Byte) : Cart :=
  match c.variant with
  | .noController => c
  | .mbc1 =>
    if n ≤ 0x1FFF then c.writeRamEnable v
    else if n ≤ 0x3FFF then c.writeBankLo v
    else if n ≤ 0x5FFF then c.writeBankHi v
    else c.writeMode v

end Sys2Proof.Machine
end

