-- ==== Sys2Proof/Machine/Update.lean ====
section
/-! DEFINITION. One named update per field of `State`. Every meaning writes the state through these; their lemmas are in
`Sys2Proof/Laws/State.lean`. There is no update of `config`: the parameters are fixed for a run (R7). -/

namespace Sys2Proof.Machine

def State.setRegs (s : State) (v : Regs) : State := { s with regs := v }

def State.setFlags (s : State) (v : Flags) : State := { s with flags := v }

def State.setSp (s : State) (v : Word) : State := { s with sp := v }

def State.setPc (s : State) (v : Word) : State := { s with pc := v }

def State.setIme (s : State) (v : Bool) : State := { s with ime := v }

def State.setEiPending (s : State) (v : Bool) : State := { s with eiPending := v }

def State.setHalted (s : State) (v : Bool) : State := { s with halted := v }

def State.setIe (s : State) (v : Byte) : State := { s with ie := v }

def State.setIrq (s : State) (v : BitVec 5) : State := { s with irq := v }

def State.setRam (s : State) (v : Ram) : State := { s with ram := v }

def State.setCart (s : State) (v : Cart) : State := { s with cart := v }

def State.setDot (s : State) (v : Nat) : State := { s with dot := v }

def State.setLcd (s : State) (v : LcdRegs) : State := { s with lcd := v }

def State.setCycles (s : State) (v : Nat) : State := { s with cycles := v }

end Sys2Proof.Machine
end

