-- ==== Sys2Proof/Machine/Display.lean ====
section
/-! DEFINITION. The display-timing controller (61_display_timing.md): scanline, mode, the register window, the counter. -/

namespace Sys2Proof.Machine

/-- The scanline `LY = dot / 456` (R342). -/
def scanline (dot : Nat) : Nat := dot / dotsPerLine

/-- The four modes (R343). -/
inductive LcdMode where
  | oamScan
  | drawingPixels
  | horizontalBlank
  | verticalBlank
deriving DecidableEq, Repr

/-- `Mode(dot)` (R343). -/
def lcdMode (dot : Nat) : LcdMode :=
  if vblankDot ≤ dot then .verticalBlank
  else if dot % dotsPerLine ≤ 79 then .oamScan
  else if dot % dotsPerLine ≤ 251 then .drawingPixels
  else .horizontalBlank

/-- The two-bit code of a mode as `STAT` shows it (R350). -/
def LcdMode.code (m : LcdMode) : BitVec 2 :=
  match m with
  | .horizontalBlank => 0
  | .verticalBlank => 1
  | .oamScan => 2
  | .drawingPixels => 3

/-- The registers of the window (R348). -/
inductive LcdReg where
  | lcdc | stat | scy | scx | ly | lyc | bgp | obp0 | obp1 | wy | wx
deriving DecidableEq, Repr

/-- A read of a display register (R348 to R351). -/
def State.readLcd (s : State) (r : LcdReg) : Byte :=
  match r with
  | .lcdc => s.lcd.lcdc
  | .stat => s.lcd.stat ++ BitVec.ofBool (decide (scanline s.dot = s.lcd.lyc.toNat)) ++ (lcdMode s.dot).code
  | .scy => s.lcd.scy
  | .scx => s.lcd.scx
  | .ly => BitVec.ofNat 8 (scanline s.dot)
  | .lyc => s.lcd.lyc
  | .bgp => s.lcd.bgp
  | .obp0 => s.lcd.obp0
  | .obp1 => s.lcd.obp1
  | .wy => s.lcd.wy
  | .wx => s.lcd.wx

/-- A write of a display register (R348 to R351). -/
def State.writeLcd (s : State) (r : LcdReg) (v : Byte) : State :=
  match r with
  | .lcdc => s.setLcd { s.lcd with lcdc := v }
  | .stat => s.setLcd { s.lcd with stat := v.extractLsb' 3 5 }
  | .scy => s.setLcd { s.lcd with scy := v }
  | .scx => s.setLcd { s.lcd with scx := v }
  | .ly => s.setDot 0
  | .lyc => s.setLcd { s.lcd with lyc := v }
  | .bgp => s.setLcd { s.lcd with bgp := v }
  | .obp0 => s.setLcd { s.lcd with obp0 := v }
  | .obp1 => s.setLcd { s.lcd with obp1 := v }
  | .wy => s.setLcd { s.lcd with wy := v }
  | .wx => s.setLcd { s.lcd with wx := v }

/-- The counter after `cycles` more dots (R344). -/
def nextDot (dot cycles : Nat) : Nat := (dot + cycles) % dotsPerFrame

/-- The transition-edge detector of R344. -/
def entersVblank (old new : Nat) : Bool := decide (old < vblankDot) && decide (vblankDot ≤ new)

end Sys2Proof.Machine
end

