-- ==== Sys2Proof/Machine/Bus.lean ====
section
/-! DEFINITION. The address decoder (20_memory.md): the owner of every address (R57), `MemRead` and `MemWrite` of one byte (R52, R53)
and of two (R54, R55). -/

namespace Sys2Proof.Machine

/-- The value of an access, or the fatal condition it raises (R50). -/
abbrev Access (α : Type) := Except Fault α

/-- The stub units (R62). -/
inductive StubUnit where
  | input
  | serial
  | sound
deriving DecidableEq, Repr

/-- The owners of R57, with the offset inside the owner's block. -/
inductive Owner where
  /-- The cartridge's ROM ranges, with the address (R58). -/
  | cartRom (n : Nat)
  /-- The cartridge's RAM window, with the offset from 0xA000 (R58). -/
  | cartRam (k : Nat)
  | vram (k : Nat)
  | wram0 (k : Nat)
  | wram1 (k : Nat)
  | oam (k : Nat)
  /-- The high RAM range, 0xFF80 to 0xFFFE (R67); it answers below `HRAM_SIZE` (log 20). -/
  | hram (k : Nat)
  /-- `IF`, 0xFF0F (R65). -/
  | requestFlags
  /-- `IE`, 0xFFFF (R66). -/
  | enableMask
  /-- A display register (R63, R348). -/
  | lcd (r : LcdReg)
  /-- A stub window: fatal (R62). -/
  | stub (u : StubUnit)
  /-- No owner: fatal (R64). -/
  | nobody
deriving DecidableEq, Repr

/-- The display window, by offset from 0xFF40; 0xFF46 and 0xFF4C to 0xFF7F have no owner (R63, R64, R354). -/
def lcdOwner (k : Nat) : Owner :=
  match k with
  | 0 => .lcd .lcdc
  | 1 => .lcd .stat
  | 2 => .lcd .scy
  | 3 => .lcd .scx
  | 4 => .lcd .ly
  | 5 => .lcd .lyc
  | 7 => .lcd .bgp
  | 8 => .lcd .obp0
  | 9 => .lcd .obp1
  | 10 => .lcd .wy
  | 11 => .lcd .wx
  | _ => .nobody

/-- The owner of the address `n`, a number up to 0xFFFF (R57), the mirror included (R60). -/
def ownerAt (n : Nat) : Owner :=
  if n ≤ 0x7FFF then .cartRom n
  else if n ≤ 0x9FFF then .vram (n - 0x8000)
  else if n ≤ 0xBFFF then .cartRam (n - 0xA000)
  else if n ≤ 0xCFFF then .wram0 (n - 0xC000)
  else if n ≤ 0xDFFF then .wram1 (n - 0xD000)
  else if n ≤ 0xEFFF then .wram0 (n - 0xE000)
  else if n ≤ 0xFDFF then .wram1 (n - 0xF000)
  else if n ≤ 0xFE9F then .oam (n - 0xFE00)
  else if n ≤ 0xFEFF then .nobody
  else if n = 0xFF00 then .stub .input
  else if n ≤ 0xFF02 then .stub .serial
  else if n ≤ 0xFF0E then .nobody
  else if n = 0xFF0F then .requestFlags
  else if n ≤ 0xFF3F then .stub .sound
  else if n ≤ 0xFF7F then lcdOwner (n - 0xFF40)
  else if n ≤ 0xFFFE then .hram (n - 0xFF80)
  else .enableMask

/-- The owner of an address (R57). -/
def owner (addr : Word) : Owner := ownerAt addr.toNat

/-- The byte an owner returns, or nothing where the access is fatal (R57). -/
def State.ownerRead (s : State) (o : Owner) : Option Byte :=
  match o with
  | .cartRom n => some (s.cart.readRom n)
  | .cartRam k => some (s.cart.readRam s.config.ramBankSize k)
  | .vram k => if s.config.mapVideoRam then some (s.ram.vram.read k) else none
  | .wram0 k => some (s.ram.wram0.read k)
  | .wram1 k => some (s.ram.wram1.read k)
  | .oam k => if s.config.mapVideoRam then some (s.ram.oam.read k) else none
  | .hram k => if k < s.config.hramSize then some (s.ram.hram.read k) else none
  | .requestFlags => some (0b111#3 ++ s.irq)
  | .enableMask => some s.ie
  | .lcd r => some (s.readLcd r)
  | .stub _ => none
  | .nobody => none

/-- The state after an owner's write, or nothing where the access is fatal (R57). -/
def State.ownerWrite (s : State) (o : Owner) (v : Byte) : Option State :=
  match o with
  | .cartRom n => some (s.setCart (s.cart.writeRom n v))
  | .cartRam k => some (s.setCart (s.cart.writeRam s.config.ramBankSize k v))
  | .vram k => if s.config.mapVideoRam then some (s.setRam { s.ram with vram := s.ram.vram.write k v }) else none
  | .wram0 k => some (s.setRam { s.ram with wram0 := s.ram.wram0.write k v })
  | .wram1 k => some (s.setRam { s.ram with wram1 := s.ram.wram1.write k v })
  | .oam k => if s.config.mapVideoRam then some (s.setRam { s.ram with oam := s.ram.oam.write k v }) else none
  | .hram k => if k < s.config.hramSize then some (s.setRam { s.ram with hram := s.ram.hram.write k v }) else none
  | .requestFlags => some (s.setIrq (v.extractLsb' 0 5))
  | .enableMask => some (s.setIe v)
  | .lcd r => some (s.writeLcd r v)
  | .stub _ => none
  | .nobody => none

/-- `MemRead(addr, 1)` (R52). -/
def memRead (s : State) (addr : Word) : Access Byte :=
  match s.ownerRead (owner addr) with
  | some v => .ok v
  | none => .error (.unmappedAddress addr .read)

/-- `MemWrite(addr, 1, v)` (R53). -/
def memWrite (s : State) (addr : Word) (v : Byte) : Access State :=
  match s.ownerWrite (owner addr) v with
  | some t => .ok t
  | none => .error (.unmappedAddress addr .write)

/-- `MemRead(addr, 2)` (R54). -/
def memRead2 (s : State) (addr : Word) : Access Word := do
  let lo ← memRead s addr
  let hi ← memRead s (addr + 1)
  pure (hi ++ lo)

/-- `MemWrite(addr, 2, v)` (R55). -/
def memWrite2 (s : State) (addr : Word) (v : Word) : Access State := do
  let t ← memWrite s addr (v.extractLsb' 0 8)
  memWrite t (addr + 1) (v.extractLsb' 8 8)

end Sys2Proof.Machine
end

