-- ==== Sys2Proof/Machine/Flags.lean ====
section
/-! DEFINITION. Every result with flags: the helpers of 44_alu8.md R220, the eight two-operand operations, INC, DEC, CPL, DAA, SCF,
CCF, the 16-bit additions (R215, R262, R263), the rotates and shifts (R270 to R282) and the bit operations (R283 to R285). The rules
compute in unbounded integers, and so does this file; the narrowing stands at the end. -/

namespace Sys2Proof.Machine

/-- A result byte and the flags after it. -/
structure AluOut where
  value : Byte
  flags : Flags
deriving DecidableEq, Repr

/-- `add8(a, v, c)` (R220). -/
def add8 (a v : Byte) (cin : Bool) : AluOut :=
  let r := a.toNat + v.toNat + cin.toNat
  { value := BitVec.ofNat 8 r
    flags :=
      { z := decide (r % 256 = 0)
        n := false
        h := decide (a.toNat % 16 + v.toNat % 16 + cin.toNat > 15)
        c := decide (r > 255) } }

/-- `sub8(a, v, c)` (R220). -/
def sub8 (a v : Byte) (cin : Bool) : AluOut :=
  let r : Int := (a.toNat : Int) - (v.toNat : Int) - (cin.toNat : Int)
  { value := BitVec.ofInt 8 r
    flags :=
      { z := decide (r % 256 = 0)
        n := true
        h := decide (((a.toNat % 16 : Nat) : Int) - ((v.toNat % 16 : Nat) : Int) - (cin.toNat : Int) < 0)
        c := decide (r < 0) } }

/-- A logical result `r`, with the Half-carry flag the rule names (R225 to R227). -/
def logicOut (r : Byte) (half : Bool) : AluOut :=
  { value := r, flags := { z := decide (r = 0), n := false, h := half, c := false } }

/-! ### The two-operand operations on A: A, the operand and the flags before (R221 to R228) -/

/-- R221. -/
def aluAdd (a v : Byte) (_ : Flags) : AluOut := add8 a v false

/-- R222. -/
def aluAdc (a v : Byte) (f : Flags) : AluOut := add8 a v f.c

/-- R223. -/
def aluSub (a v : Byte) (_ : Flags) : AluOut := sub8 a v false

/-- R224. -/
def aluSbc (a v : Byte) (f : Flags) : AluOut := sub8 a v f.c

/-- R225. -/
def aluAnd (a v : Byte) (_ : Flags) : AluOut := logicOut (a &&& v) true

/-- R226. -/
def aluXor (a v : Byte) (_ : Flags) : AluOut := logicOut (a ^^^ v) false

/-- R227. -/
def aluOr (a v : Byte) (_ : Flags) : AluOut := logicOut (a ||| v) false

/-- R228: the result is discarded, A keeps its value. -/
def aluCp (a v : Byte) (_ : Flags) : AluOut := { value := a, flags := (sub8 a v false).flags }

/-! ### One-operand arithmetic -/

/-- R229: Carry is not written. -/
def inc8 (v : Byte) (f : Flags) : AluOut :=
  let r := v + 1
  { value := r, flags := { z := decide (r = 0), n := false, h := decide (v.extractLsb' 0 4 = 0xF#4), c := f.c } }

/-- R230: Carry is not written. -/
def dec8 (v : Byte) (f : Flags) : AluOut :=
  let r := v - 1
  { value := r, flags := { z := decide (r = 0), n := true, h := decide (v.extractLsb' 0 4 = 0x0#4), c := f.c } }

/-- R231: Zero and Carry are not written. -/
def complement (a : Byte) (f : Flags) : AluOut := { value := a ^^^ 0xFF, flags := { f with n := true, h := true } }

/-- The adjustment byte of DAA and the carry it leaves (R232). -/
def daaAdjustment (a : Byte) (f : Flags) : Byte × Bool :=
  if f.n then
    ((if f.h then 0x06 else 0x00) + (if f.c then 0x60 else 0x00), f.c)
  else
    let low : Byte := if f.h || decide ((a.extractLsb' 0 4).toNat > 9) then 0x06 else 0x00
    if f.c || decide (a.toNat > 0x99) then (low + 0x60, true) else (low, f.c)

/-- R232: Subtract is not written. -/
def daa8 (a : Byte) (f : Flags) : AluOut :=
  let adj := daaAdjustment a f
  let r := if f.n then a - adj.1 else a + adj.1
  { value := r, flags := { z := decide (r = 0), n := f.n, h := false, c := adj.2 } }

/-- R233: Zero is not written. -/
def scfFlags (f : Flags) : Flags := { f with n := false, h := false, c := true }

/-- R234: Zero is not written. -/
def ccfFlags (f : Flags) : Flags := { f with n := false, h := false, c := !f.c }

/-! ### 16-bit additions -/

/-- A 16-bit result and the flags after it. -/
structure WideOut where
  value : Word
  flags : Flags
deriving DecidableEq, Repr

/-- R262: Zero is not written. -/
def addHl (a v : Word) (f : Flags) : WideOut :=
  { value := a + v
    flags :=
      { z := f.z
        n := false
        h := decide (a.toNat % 4096 + v.toNat % 4096 > 4095)
        c := decide (a.toNat + v.toNat > 65535) } }

/-- The sum of `sp` and a signed offset, with the carries of the unsigned addition of the low bytes (R215, R263). -/
def addSpOffset (sp : Word) (e : Byte) : WideOut :=
  { value := sp + e.signExtend 16
    flags :=
      { z := false
        n := false
        h := decide ((sp.extractLsb' 0 4).toNat + (e.extractLsb' 0 4).toNat > 0xF)
        c := decide ((sp.extractLsb' 0 8).toNat + e.toNat > 0xFF) } }

/-! ### Rotates and shifts: the result and the expelled bit -/

/-- A rotated byte and the bit that goes to Carry. -/
structure ShiftOut where
  value : Byte
  carry : Bool
deriving DecidableEq, Repr

/-- `v[6:0] : b`, expelling bit 7. -/
def shiftLeftIn (v : Byte) (b : Bool) : ShiftOut :=
  { value := v.extractLsb' 0 7 ++ BitVec.ofBool b, carry := v.getLsbD 7 }

/-- `b : v[7:1]`, expelling bit 0. -/
def shiftRightIn (b : Bool) (v : Byte) : ShiftOut :=
  { value := BitVec.ofBool b ++ v.extractLsb' 1 7, carry := v.getLsbD 0 }

/-- R270, R275. The second argument of this and the next seven is Carry before the instruction. -/
def rotRlc (v : Byte) (_ : Bool) : ShiftOut := shiftLeftIn v (v.getLsbD 7)

/-- R272, R276. -/
def rotRrc (v : Byte) (_ : Bool) : ShiftOut := shiftRightIn (v.getLsbD 0) v

/-- R271, R277. -/
def rotRl (v : Byte) (cin : Bool) : ShiftOut := shiftLeftIn v cin

/-- R273, R278. -/
def rotRr (v : Byte) (cin : Bool) : ShiftOut := shiftRightIn cin v

/-- R279. -/
def shiftSla (v : Byte) (_ : Bool) : ShiftOut := shiftLeftIn v false

/-- R280: bit 7 is kept. -/
def shiftSra (v : Byte) (_ : Bool) : ShiftOut := shiftRightIn (v.getLsbD 7) v

/-- R281: `v[3:0] : v[7:4]`, and nothing is expelled. -/
def swapNibbles (v : Byte) (_ : Bool) : ShiftOut :=
  { value := v.extractLsb' 0 4 ++ v.extractLsb' 4 4, carry := false }

/-- R282. -/
def shiftSrl (v : Byte) (_ : Bool) : ShiftOut := shiftRightIn false v

/-- The flags of the accumulator rotates: Zero is cleared whatever the result (R270 to R273). -/
def accRotateFlags (o : ShiftOut) : Flags := { z := false, n := false, h := false, c := o.carry }

/-- The flags of the prefixed rotates and shifts (R274). -/
def cbRotateFlags (o : ShiftOut) : Flags := { z := decide (o.value = 0), n := false, h := false, c := o.carry }

/-! ### Bit operations -/

/-- R283: Carry is not written. -/
def bitFlags (b : U3) (v : Byte) (f : Flags) : Flags := { z := !v.getLsbD b.val, n := false, h := true, c := f.c }

/-- R284: `v & ~(1 << b)`. -/
def resBit (b : U3) (v : Byte) : Byte := v &&& ~~~(1#8 <<< b.val)

/-- R285: `v | (1 << b)`. -/
def setBit (b : U3) (v : Byte) : Byte := v ||| (1#8 <<< b.val)

end Sys2Proof.Machine
end

