-- ==== Sys2Proof/Machine/Operands.lean ====
section
/-! DEFINITION. Registers, pairs, the flag byte and conditions as operands (00_scope.md R9, 10_state.md R22, R24, 30_encoding.md
R122 to R124). -/

namespace Sys2Proof.Machine

/-! ### The register file -/

/-- `r8[i]` for a register (R122). -/
def Regs.get (g : Regs) (r : Reg8) : Byte :=
  match r with
  | .b => g.b
  | .c => g.c
  | .d => g.d
  | .e => g.e
  | .h => g.h
  | .l => g.l
  | .a => g.a

/-- `r8[i] <- v` for a register (R122). -/
def Regs.set (g : Regs) (r : Reg8) (v : Byte) : Regs :=
  match r with
  | .b => { g with b := v }
  | .c => { g with c := v }
  | .d => { g with d := v }
  | .e => { g with e := v }
  | .h => { g with h := v }
  | .l => { g with l := v }
  | .a => { g with a := v }

/-- `BC = B : C` (R22). -/
def Regs.bc (g : Regs) : Word := joinBytes g.b g.c

/-- `DE = D : E` (R22). -/
def Regs.de (g : Regs) : Word := joinBytes g.d g.e

/-- `HL = H : L` (R22). -/
def Regs.hl (g : Regs) : Word := joinBytes g.h g.l

/-- Write BC: the high byte to B, the low byte to C (R22). -/
def Regs.setBc (g : Regs) (v : Word) : Regs := { g with b := hiByte v, c := loByte v }

/-- Write DE (R22). -/
def Regs.setDe (g : Regs) (v : Word) : Regs := { g with d := hiByte v, e := loByte v }

/-- Write HL (R22). -/
def Regs.setHl (g : Regs) (v : Word) : Regs := { g with h := hiByte v, l := loByte v }

/-! ### The flag byte and conditions -/

/-- `F = fZ : fN : fH : fC : F_LOW` (R24). -/
def Flags.toByte (f : Flags) (low : BitVec 4) : Byte :=
  BitVec.ofBool f.z ++ BitVec.ofBool f.n ++ BitVec.ofBool f.h ++ BitVec.ofBool f.c ++ low

/-- The flags that POP AF takes from bits 7:4 of a byte; bits 3:0 are discarded (R24, R214). -/
def Flags.ofByte (v : Byte) : Flags where
  z := v.getLsbD 7
  n := v.getLsbD 6
  h := v.getLsbD 5
  c := v.getLsbD 4

/-- `cond[i]` (R124). -/
def Flags.holds (f : Flags) (cc : Cond) : Bool :=
  match cc with
  | .nz => !f.z
  | .z => f.z
  | .nc => !f.c
  | .c => f.c

/-! ### The same, of the state -/

/-- `r8[i]` for a register. -/
def State.reg (s : State) (r : Reg8) : Byte := s.regs.get r

/-- `r8[i] <- v` for a register. -/
def State.setReg (s : State) (r : Reg8) (v : Byte) : State := s.setRegs (s.regs.set r v)

/-- `HL`. -/
def State.hl (s : State) : Word := s.regs.hl

/-- `HL <- v`. -/
def State.setHl (s : State) (v : Word) : State := s.setRegs (s.regs.setHl v)

/-- `F` (R24). -/
def State.flagByte (s : State) : Byte := s.flags.toByte s.config.fLow

/-- `r16[i]` (R123). -/
def State.r16 (s : State) (p : Reg16) : Word :=
  match p with
  | .bc => s.regs.bc
  | .de => s.regs.de
  | .hl => s.regs.hl
  | .sp => s.sp

/-- `r16[i] <- v` (R123). -/
def State.setR16 (s : State) (p : Reg16) (v : Word) : State :=
  match p with
  | .bc => s.setRegs (s.regs.setBc v)
  | .de => s.setRegs (s.regs.setDe v)
  | .hl => s.setRegs (s.regs.setHl v)
  | .sp => s.setSp v

/-- `r16stk[i]` (R123, R213): AF is `A : F`. -/
def State.stk16 (s : State) (p : Stk16) : Word :=
  match p with
  | .bc => s.regs.bc
  | .de => s.regs.de
  | .hl => s.regs.hl
  | .af => joinBytes s.regs.a s.flagByte

/-- `r16stk[i] <- v` (R123, R214): AF takes A and the four flags. -/
def State.setStk16 (s : State) (p : Stk16) (v : Word) : State :=
  match p with
  | .bc => s.setRegs (s.regs.setBc v)
  | .de => s.setRegs (s.regs.setDe v)
  | .hl => s.setRegs (s.regs.setHl v)
  | .af => (s.setReg .a (hiByte v)).setFlags (Flags.ofByte (loByte v))

end Sys2Proof.Machine
end

