-- ==== Sys2Proof/Machine/Ops.lean ====
section
/-! DEFINITION. The shared operations: fetch (00_scope.md R10), the operand selector (30_encoding.md R122), the stack helpers
(43_load16.md R210), interrupt requests, dispatch and return (60_exceptions.md R304 to R309), and `Advance` (61_display_timing.md
R344). -/

namespace Sys2Proof.Machine

/-- What one instruction or one step answers. -/
abbrev Result := Host.Outcome State Fault Refusal

/-- A completed access sequence is a next state; a fatal one is a fault (R300). -/
def toOutcome (r : Access State) : Result :=
  match r with
  | .ok t => .next t
  | .error f => .fault f

/-- The next state with the instruction's cost, `cycles <- n` (R10, R380), or the fault. -/
def costing (n : Nat) (r : Access State) : Result :=
  match r with
  | .ok t => .next (t.setCycles n)
  | .error f => .fault f

/-! ### Fetch -/

/-- `Fetch8()` (R10, R128). -/
def fetch8 (s : State) : Access (Byte × State) := do
  let v ← memRead s s.pc
  pure (v, s.setPc (s.pc + 1))

/-- `Fetch16()` (R10, R128). -/
def fetch16 (s : State) : Access (Word × State) := do
  let (lo, s1) ← fetch8 s
  let (hi, s2) ← fetch8 s1
  pure (joinBytes hi lo, s2)

/-! ### The operand selector -/

/-- A read through the selector `r8`: slot 6 reads the byte at HL (R122). -/
def readOperand (s : State) (v : Operand8) : Access Byte :=
  match v with
  | .reg r => pure (s.reg r)
  | .hlInd => memRead s s.hl

/-- A write through the selector `r8`: slot 6 writes the byte at HL (R122). -/
def writeOperand (s : State) (v : Operand8) (x : Byte) : Access State :=
  match v with
  | .reg r => pure (s.setReg r x)
  | .hlInd => memWrite s s.hl x

/-! ### The stack (R210) -/

/-- `Push8(v)`. -/
def push8 (v : Byte) (s : State) : Access State := memWrite (s.setSp (s.sp - 1)) (s.sp - 1) v

/-- `Pop8()`. -/
def pop8 (s : State) : Access (Byte × State) := do
  let v ← memRead s s.sp
  pure (v, s.setSp (s.sp + 1))

/-- `Push16(v)`: the high byte first. -/
def push16 (v : Word) (s : State) : Access State := do
  let s1 ← push8 (hiByte v) s
  push8 (loByte v) s1

/-- `Pop16()`: the low byte first. -/
def pop16 (s : State) : Access (Word × State) := do
  let (lo, s1) ← pop8 s
  let (hi, s2) ← pop8 s1
  pure (joinBytes hi lo, s2)

/-! ### Interrupts -/

/-- The interrupt kinds (R29, R305). -/
inductive IrqKind where
  | verticalBlank
  | displayStatus
  | timer
  | serial
  | joypad
deriving DecidableEq, Repr

/-- The kind's bit number in `IE` and `IF` (R305). -/
def IrqKind.index (k : IrqKind) : Nat :=
  match k with
  | .verticalBlank => 0
  | .displayStatus => 1
  | .timer => 2
  | .serial => 3
  | .joypad => 4

/-- The kind's bit alone. -/
def IrqKind.bit (k : IrqKind) : BitVec 5 := 1#5 <<< k.index

/-- The kind's vector, `0x0040 + 8*k` (R305, R308). -/
def IrqKind.vector (k : IrqKind) : Word := BitVec.ofNat 16 (0x0040 + 8 * k.index)

/-- `Request(kind)` (R304). -/
def request (k : IrqKind) (s : State) : State := s.setIrq (s.irq ||| k.bit)

/-- `pend = IE & IF & 0x1F` (R306). -/
def State.pending (s : State) : BitVec 5 := s.ie.extractLsb' 0 5 &&& s.irq

/-- The pending kind with the lowest bit number (R307). -/
def firstPending (pend : BitVec 5) : Option IrqKind :=
  if pend.getLsbD 0 then some .verticalBlank
  else if pend.getLsbD 1 then some .displayStatus
  else if pend.getLsbD 2 then some .timer
  else if pend.getLsbD 3 then some .serial
  else if pend.getLsbD 4 then some .joypad
  else none

/-- What dispatch of kind `k` changes before the pushes (R308). -/
def acknowledge (k : IrqKind) (s : State) : State :=
  (((s.setIrq (s.irq &&& ~~~k.bit)).setIme false).setEiPending false).setHalted false

/-- Interrupt dispatch (R308): the one exception entry of this machine. Only `pc` is saved, on the stack. -/
def dispatchInterrupt (k : IrqKind) (s : State) : Access State := do
  let s1 ← push16 s.pc (acknowledge k s)
  pure ((s1.setPc k.vector).setCycles s1.config.cycDispatch)

/-- The common part of RET, `RET cc` and RETI: `pc <- Pop16()` (R167, R169). -/
def popPc (s : State) : Access State := do
  let (v, s1) ← pop16 s
  pure (s1.setPc v)

/-- The return from an interrupt (R169, R309): `pc <- Pop16(); ime <- 1; ei_pending <- 0`. -/
def returnFromInterrupt (s : State) : Access State := do
  let s1 ← popPc s
  pure ((s1.setIme true).setEiPending false)

/-- A call: `Push16(pc); pc <- target` (R165, R166, R170). -/
def callTo (target : Word) (s : State) : Access State := do
  let s1 ← push16 s.pc s
  pure (s1.setPc target)

/-! ### Time -/

/-- `Advance(cycles)` (R344), with the count the step has left in `cycles` (R312, R74). -/
def advance (s : State) : State :=
  let new := nextDot s.dot s.cycles
  if entersVblank s.dot new then request .verticalBlank (s.setDot new) else s.setDot new

end Sys2Proof.Machine
end

