-- ==== Sys2Proof/Machine/Alu16.lean ====
section
/-! DEFINITION. 16-bit arithmetic (45_alu16.md R260 to R263).
In every meaning `pc` already holds the address after the instruction's bytes
(30_encoding.md R128). -/

namespace Sys2Proof.Machine

/-- `INC rr` (R260): no flag is written. -/
def execIncRr (p : Reg16) (s : State) : Result := .next ((s.setR16 p (s.r16 p + 1)).setCycles s.config.cyc.alu16.incRr)

/-- `DEC rr` (R261): no flag is written. -/
def execDecRr (p : Reg16) (s : State) : Result := .next ((s.setR16 p (s.r16 p - 1)).setCycles s.config.cyc.alu16.decRr)

/-- `ADD HL,rr` (R262). -/
def execAddHlRr (p : Reg16) (s : State) : Result :=
  let r := addHl s.hl (s.r16 p) s.flags
  .next (((s.setHl r.value).setFlags r.flags).setCycles s.config.cyc.alu16.addHlRr)

/-- `ADD SP,e` (R263). -/
def execAddSpE (e : Byte) (s : State) : Result :=
  let r := addSpOffset s.sp e
  .next (((s.setSp r.value).setFlags r.flags).setCycles s.config.cyc.alu16.addSpE)

end Sys2Proof.Machine
end

