-- ==== Sys2Proof/Machine/Alu8.lean ====
section
/-! DEFINITION. 8-bit arithmetic and logic (44_alu8.md R220 to R234).
In every meaning `pc` already holds the address after the instruction's bytes
(30_encoding.md R128). -/

namespace Sys2Proof.Machine

/-- A result into A, with its flags. -/
def State.setA (s : State) (r : AluOut) : State := (s.setReg .a r.value).setFlags r.flags

/-- `op A,r` and `op A,n`: the operand `v` is at hand (R220). -/
def aluValue (op : Byte → Byte → Flags → AluOut) (v : Byte) (cost : Nat) (s : State) : Result :=
  .next ((s.setA (op s.regs.a v s.flags)).setCycles cost)

/-- `op A,(HL)`: the operand is the byte at HL (R220). -/
def aluHl (op : Byte → Byte → Flags → AluOut) (cost : Nat) (s : State) : Result :=
  costing cost do
    let v ← memRead s s.hl
    pure (s.setA (op s.regs.a v s.flags))

/-- INC and DEC through the operand selector: one read, then one write, at the same place (R122, R229, R230). -/
def stepOperand (op : Byte → Flags → AluOut) (v : Operand8) (cost : Nat) (s : State) : Result :=
  costing cost do
    let x ← readOperand s v
    let t ← writeOperand s v (op x s.flags).value
    pure (t.setFlags (op x s.flags).flags)

/-- `ADD A,r` (R221). -/
def execAddAR (r : Reg8) (s : State) : Result := aluValue aluAdd (s.reg r) s.config.cyc.alu8.add.r s

/-- `ADD A,(HL)` (R221). -/
def execAddAHl (s : State) : Result := aluHl aluAdd s.config.cyc.alu8.add.hl s

/-- `ADD A,n` (R221). -/
def execAddAN (n : Byte) (s : State) : Result := aluValue aluAdd n s.config.cyc.alu8.add.n s

/-- `ADC A,r` (R222). -/
def execAdcAR (r : Reg8) (s : State) : Result := aluValue aluAdc (s.reg r) s.config.cyc.alu8.adc.r s

/-- `ADC A,(HL)` (R222). -/
def execAdcAHl (s : State) : Result := aluHl aluAdc s.config.cyc.alu8.adc.hl s

/-- `ADC A,n` (R222). -/
def execAdcAN (n : Byte) (s : State) : Result := aluValue aluAdc n s.config.cyc.alu8.adc.n s

/-- `SUB A,r` (R223). -/
def execSubAR (r : Reg8) (s : State) : Result := aluValue aluSub (s.reg r) s.config.cyc.alu8.sub.r s

/-- `SUB A,(HL)` (R223). -/
def execSubAHl (s : State) : Result := aluHl aluSub s.config.cyc.alu8.sub.hl s

/-- `SUB A,n` (R223). -/
def execSubAN (n : Byte) (s : State) : Result := aluValue aluSub n s.config.cyc.alu8.sub.n s

/-- `SBC A,r` (R224). -/
def execSbcAR (r : Reg8) (s : State) : Result := aluValue aluSbc (s.reg r) s.config.cyc.alu8.sbc.r s

/-- `SBC A,(HL)` (R224). -/
def execSbcAHl (s : State) : Result := aluHl aluSbc s.config.cyc.alu8.sbc.hl s

/-- `SBC A,n` (R224). -/
def execSbcAN (n : Byte) (s : State) : Result := aluValue aluSbc n s.config.cyc.alu8.sbc.n s

/-- `AND A,r` (R225). -/
def execAndAR (r : Reg8) (s : State) : Result := aluValue aluAnd (s.reg r) s.config.cyc.alu8.and.r s

/-- `AND A,(HL)` (R225). -/
def execAndAHl (s : State) : Result := aluHl aluAnd s.config.cyc.alu8.and.hl s

/-- `AND A,n` (R225). -/
def execAndAN (n : Byte) (s : State) : Result := aluValue aluAnd n s.config.cyc.alu8.and.n s

/-- `XOR A,r` (R226). -/
def execXorAR (r : Reg8) (s : State) : Result := aluValue aluXor (s.reg r) s.config.cyc.alu8.xor.r s

/-- `XOR A,(HL)` (R226). -/
def execXorAHl (s : State) : Result := aluHl aluXor s.config.cyc.alu8.xor.hl s

/-- `XOR A,n` (R226). -/
def execXorAN (n : Byte) (s : State) : Result := aluValue aluXor n s.config.cyc.alu8.xor.n s

/-- `OR A,r` (R227). -/
def execOrAR (r : Reg8) (s : State) : Result := aluValue aluOr (s.reg r) s.config.cyc.alu8.or.r s

/-- `OR A,(HL)` (R227). -/
def execOrAHl (s : State) : Result := aluHl aluOr s.config.cyc.alu8.or.hl s

/-- `OR A,n` (R227). -/
def execOrAN (n : Byte) (s : State) : Result := aluValue aluOr n s.config.cyc.alu8.or.n s

/-- `CP A,r` (R228). -/
def execCpAR (r : Reg8) (s : State) : Result := aluValue aluCp (s.reg r) s.config.cyc.alu8.cp.r s

/-- `CP A,(HL)` (R228). -/
def execCpAHl (s : State) : Result := aluHl aluCp s.config.cyc.alu8.cp.hl s

/-- `CP A,n` (R228). -/
def execCpAN (n : Byte) (s : State) : Result := aluValue aluCp n s.config.cyc.alu8.cp.n s

/-- `INC r` (R229). -/
def execIncR (r : Reg8) (s : State) : Result := stepOperand inc8 (.reg r) s.config.cyc.alu8.inc.r s

/-- `INC (HL)` (R229). -/
def execIncHl (s : State) : Result := stepOperand inc8 .hlInd s.config.cyc.alu8.inc.hl s

/-- `DEC r` (R230). -/
def execDecR (r : Reg8) (s : State) : Result := stepOperand dec8 (.reg r) s.config.cyc.alu8.dec.r s

/-- `DEC (HL)` (R230). -/
def execDecHl (s : State) : Result := stepOperand dec8 .hlInd s.config.cyc.alu8.dec.hl s

/-- CPL (R231). -/
def execCpl (s : State) : Result := .next ((s.setA (complement s.regs.a s.flags)).setCycles s.config.cyc.alu8.cpl)

/-- DAA (R232). -/
def execDaa (s : State) : Result := .next ((s.setA (daa8 s.regs.a s.flags)).setCycles s.config.cyc.alu8.daa)

/-- SCF (R233). -/
def execScf (s : State) : Result := .next ((s.setFlags (scfFlags s.flags)).setCycles s.config.cyc.alu8.scf)

/-- CCF (R234). -/
def execCcf (s : State) : Result := .next ((s.setFlags (ccfFlags s.flags)).setCycles s.config.cyc.alu8.ccf)

end Sys2Proof.Machine
end

