-- ==== Sys2Proof/Machine/Bits.lean ====
section
/-! DEFINITION. Rotates, shifts, SWAP and bit operations (46_rotate_shift_bit.md R270 to R285) and the prefix byte (30_encoding.md
R126). In every meaning `pc` already holds the address after the instruction's bytes
(30_encoding.md R128). -/

namespace Sys2Proof.Machine

/-- A rotate of the accumulator (R270 to R273). -/
def rotateA (op : Byte → Bool → ShiftOut) (cost : Nat) (s : State) : Result :=
  let o := op s.regs.a s.flags.c
  .next (((s.setReg .a o.value).setFlags (accRotateFlags o)).setCycles cost)

/-- A rotate or shift of the prefixed table: read, write back to the same place, then the flags (R274). -/
def rotateOperand (op : Byte → Bool → ShiftOut) (v : Operand8) (cost : Nat) (s : State) : Result :=
  costing cost do
    let x ← readOperand s v
    let t ← writeOperand s v (op x s.flags.c).value
    pure (t.setFlags (cbRotateFlags (op x s.flags.c)))

/-- BIT: nothing is written back (R283). -/
def testBit (b : U3) (v : Operand8) (cost : Nat) (s : State) : Result :=
  costing cost do
    let x ← readOperand s v
    pure (s.setFlags (bitFlags b x s.flags))

/-- RES and SET: read, write back, no flag (R284, R285). -/
def changeBit (op : Byte → Byte) (v : Operand8) (cost : Nat) (s : State) : Result :=
  costing cost do
    let x ← readOperand s v
    writeOperand s v (op x)

/-- RLCA (R270). -/
def execRlca (s : State) : Result := rotateA rotRlc s.config.cyc.bits.rlca s

/-- RRCA (R272). -/
def execRrca (s : State) : Result := rotateA rotRrc s.config.cyc.bits.rrca s

/-- RLA (R271). -/
def execRla (s : State) : Result := rotateA rotRl s.config.cyc.bits.rla s

/-- RRA (R273). -/
def execRra (s : State) : Result := rotateA rotRr s.config.cyc.bits.rra s

/-- `RLC r` (R275). -/
def execRlcR (r : Reg8) (s : State) : Result := rotateOperand rotRlc (.reg r) s.config.cyc.bits.rlc.r s

/-- `RLC (HL)` (R275). -/
def execRlcHl (s : State) : Result := rotateOperand rotRlc .hlInd s.config.cyc.bits.rlc.hl s

/-- `RRC r` (R276). -/
def execRrcR (r : Reg8) (s : State) : Result := rotateOperand rotRrc (.reg r) s.config.cyc.bits.rrc.r s

/-- `RRC (HL)` (R276). -/
def execRrcHl (s : State) : Result := rotateOperand rotRrc .hlInd s.config.cyc.bits.rrc.hl s

/-- `RL r` (R277). -/
def execRlR (r : Reg8) (s : State) : Result := rotateOperand rotRl (.reg r) s.config.cyc.bits.rl.r s

/-- `RL (HL)` (R277). -/
def execRlHl (s : State) : Result := rotateOperand rotRl .hlInd s.config.cyc.bits.rl.hl s

/-- `RR r` (R278). -/
def execRrR (r : Reg8) (s : State) : Result := rotateOperand rotRr (.reg r) s.config.cyc.bits.rr.r s

/-- `RR (HL)` (R278). -/
def execRrHl (s : State) : Result := rotateOperand rotRr .hlInd s.config.cyc.bits.rr.hl s

/-- `SLA r` (R279). -/
def execSlaR (r : Reg8) (s : State) : Result := rotateOperand shiftSla (.reg r) s.config.cyc.bits.sla.r s

/-- `SLA (HL)` (R279). -/
def execSlaHl (s : State) : Result := rotateOperand shiftSla .hlInd s.config.cyc.bits.sla.hl s

/-- `SRA r` (R280). -/
def execSraR (r : Reg8) (s : State) : Result := rotateOperand shiftSra (.reg r) s.config.cyc.bits.sra.r s

/-- `SRA (HL)` (R280). -/
def execSraHl (s : State) : Result := rotateOperand shiftSra .hlInd s.config.cyc.bits.sra.hl s

/-- `SWAP r` (R281). -/
def execSwapR (r : Reg8) (s : State) : Result := rotateOperand swapNibbles (.reg r) s.config.cyc.bits.swap.r s

/-- `SWAP (HL)` (R281). -/
def execSwapHl (s : State) : Result := rotateOperand swapNibbles .hlInd s.config.cyc.bits.swap.hl s

/-- `SRL r` (R282). -/
def execSrlR (r : Reg8) (s : State) : Result := rotateOperand shiftSrl (.reg r) s.config.cyc.bits.srl.r s

/-- `SRL (HL)` (R282). -/
def execSrlHl (s : State) : Result := rotateOperand shiftSrl .hlInd s.config.cyc.bits.srl.hl s

/-- `BIT b,r` (R283). -/
def execBitR (b : U3) (r : Reg8) (s : State) : Result := testBit b (.reg r) s.config.cyc.bits.bitR s

/-- `BIT b,(HL)` (R283): the cost is the parameter `CYC_BIT_HL` (R274). -/
def execBitHl (b : U3) (s : State) : Result := testBit b .hlInd s.config.cycBitHl s

/-- `RES b,r` (R284). -/
def execResR (b : U3) (r : Reg8) (s : State) : Result := changeBit (resBit b) (.reg r) s.config.cyc.bits.res.r s

/-- `RES b,(HL)` (R284). -/
def execResHl (b : U3) (s : State) : Result := changeBit (resBit b) .hlInd s.config.cyc.bits.res.hl s

/-- `SET b,r` (R285). -/
def execSetR (b : U3) (r : Reg8) (s : State) : Result := changeBit (setBit b) (.reg r) s.config.cyc.bits.set.r s

/-- `SET b,(HL)` (R285). -/
def execSetHl (b : U3) (s : State) : Result := changeBit (setBit b) .hlInd s.config.cyc.bits.set.hl s

/-- `PREFIX CB` followed by a sub-opcode (R126): dispatch on it through the secondary table R130 (log 5). -/
def execPrefixCb (sub : Byte) (s : State) : Result :=
  match cbOp sub, cbOperand sub with
  | .rlc, .reg r => execRlcR r s
  | .rlc, .hlInd => execRlcHl s
  | .rrc, .reg r => execRrcR r s
  | .rrc, .hlInd => execRrcHl s
  | .rl, .reg r => execRlR r s
  | .rl, .hlInd => execRlHl s
  | .rr, .reg r => execRrR r s
  | .rr, .hlInd => execRrHl s
  | .sla, .reg r => execSlaR r s
  | .sla, .hlInd => execSlaHl s
  | .sra, .reg r => execSraR r s
  | .sra, .hlInd => execSraHl s
  | .swap, .reg r => execSwapR r s
  | .swap, .hlInd => execSwapHl s
  | .srl, .reg r => execSrlR r s
  | .srl, .hlInd => execSrlHl s
  | .bit b, .reg r => execBitR b r s
  | .bit b, .hlInd => execBitHl b s
  | .res b, .reg r => execResR b r s
  | .res b, .hlInd => execResHl b s
  | .set b, .reg r => execSetR b r s
  | .set b, .hlInd => execSetHl b s

end Sys2Proof.Machine
end

