-- ==== Sys2Proof/Machine/Control.lean ====
section
/-! DEFINITION. Control instructions (40_control_misc.md R150 to R154) and the illegal opcode bytes (30_encoding.md R132).
In every meaning `pc` already holds the address after the instruction's bytes
(30_encoding.md R128). -/

namespace Sys2Proof.Machine

/-- NOP (R150). -/
def execNop (s : State) : Result := .next (s.setCycles s.config.cyc.control.nop)

/-- STOP (R152): `Fatal(UnimplementedOpcode, 0x10)`. -/
def execStop (_ : State) : Result := .fault (.unimplementedOpcode 0x10)

/-- HALT (R151): refused when `ime = 0` and an enabled request is pending. -/
def execHalt (s : State) : Result :=
  if !s.ime && decide (s.pending ≠ 0) then .fault (.unimplementedOpcode 0x76)
  else .next ((s.setHalted true).setCycles s.config.cyc.control.halt)

/-- DI (R153). -/
def execDi (s : State) : Result := .next (((s.setIme false).setEiPending false).setCycles s.config.cyc.control.di)

/-- EI (R154): the enable itself is completed by the machine step. -/
def execEi (s : State) : Result := .next ((s.setEiPending true).setCycles s.config.cyc.control.ei)

/-- An opcode byte that selects no instruction (R132). -/
def illegalOpcode (op : Byte) : Result := .fault (.unimplementedOpcode op)

/-- The illegal byte 0xD3 (R132). -/
def execIllegalD3 (_ : State) : Result := illegalOpcode 0xD3

/-- The illegal byte 0xDB (R132). -/
def execIllegalDB (_ : State) : Result := illegalOpcode 0xDB

/-- The illegal byte 0xDD (R132). -/
def execIllegalDD (_ : State) : Result := illegalOpcode 0xDD

/-- The illegal byte 0xE3 (R132). -/
def execIllegalE3 (_ : State) : Result := illegalOpcode 0xE3

/-- The illegal byte 0xE4 (R132). -/
def execIllegalE4 (_ : State) : Result := illegalOpcode 0xE4

/-- The illegal byte 0xEB (R132). -/
def execIllegalEB (_ : State) : Result := illegalOpcode 0xEB

/-- The illegal byte 0xEC (R132). -/
def execIllegalEC (_ : State) : Result := illegalOpcode 0xEC

/-- The illegal byte 0xED (R132). -/
def execIllegalED (_ : State) : Result := illegalOpcode 0xED

/-- The illegal byte 0xF4 (R132). -/
def execIllegalF4 (_ : State) : Result := illegalOpcode 0xF4

/-- The illegal byte 0xFC (R132). -/
def execIllegalFC (_ : State) : Result := illegalOpcode 0xFC

/-- The illegal byte 0xFD (R132). -/
def execIllegalFD (_ : State) : Result := illegalOpcode 0xFD

end Sys2Proof.Machine
end

