-- ==== Sys2Proof/Machine/Jumps.lean ====
section
/-! DEFINITION. Control transfer (41_jumps_calls.md R160 to R171).
In every meaning `pc` already holds the address after the instruction's bytes
(30_encoding.md R128). -/

namespace Sys2Proof.Machine

/-- The target of a relative jump: `pc + sext_16(e)` (R163). -/
def State.relativeTarget (s : State) (e : Byte) : Word := s.pc + signExtend16 e

/-- `JP nn` (R161). -/
def execJpNn (nn : Word) (s : State) : Result := .next ((s.setPc nn).setCycles s.config.cyc.jumps.jpNn)

/-- `JP cc,nn` (R162). -/
def execJpCcNn (cc : Cond) (nn : Word) (s : State) : Result :=
  if s.flags.holds cc then .next ((s.setPc nn).setCycles s.config.cyc.jumps.jpCcNn.taken)
  else .next (s.setCycles s.config.cyc.jumps.jpCcNn.notTaken)

/-- `JP HL` (R171). -/
def execJpHl (s : State) : Result := .next ((s.setPc s.hl).setCycles s.config.cyc.jumps.jpHl)

/-- `JR e` (R163). -/
def execJrE (e : Byte) (s : State) : Result := .next ((s.setPc (s.relativeTarget e)).setCycles s.config.cyc.jumps.jrE)

/-- `JR cc,e` (R164). -/
def execJrCcE (cc : Cond) (e : Byte) (s : State) : Result :=
  if s.flags.holds cc then .next ((s.setPc (s.relativeTarget e)).setCycles s.config.cyc.jumps.jrCcE.taken)
  else .next (s.setCycles s.config.cyc.jumps.jrCcE.notTaken)

/-- `CALL nn` (R165). -/
def execCallNn (nn : Word) (s : State) : Result := costing s.config.cyc.jumps.callNn (callTo nn s)

/-- `CALL cc,nn` (R166). -/
def execCallCcNn (cc : Cond) (nn : Word) (s : State) : Result :=
  if s.flags.holds cc then costing s.config.cyc.jumps.callCcNn.taken (callTo nn s)
  else .next (s.setCycles s.config.cyc.jumps.callCcNn.notTaken)

/-- RET (R167). -/
def execRet (s : State) : Result := costing s.config.cyc.jumps.ret (popPc s)

/-- `RET cc` (R168). -/
def execRetCc (cc : Cond) (s : State) : Result :=
  if s.flags.holds cc then costing s.config.cyc.jumps.retCc.taken (popPc s)
  else .next (s.setCycles s.config.cyc.jumps.retCc.notTaken)

/-- RETI (R169): `ime` is set at once. -/
def execReti (s : State) : Result := costing s.config.cyc.jumps.reti (returnFromInterrupt s)

/-- The target of `RST t`: `zext_16(t) * 8` (R127, R170). -/
def rstTarget (t : U3) : Word := BitVec.ofNat 16 (t.val * 8)

/-- `RST t` (R170). -/
def execRst (t : U3) (s : State) : Result := costing s.config.cyc.jumps.rst (callTo (rstTarget t) s)

end Sys2Proof.Machine
end

