-- ==== Sys2Proof/Machine/Load16.lean ====
section
/-! DEFINITION. 16-bit loads and the stack (43_load16.md R210 to R216).
In every meaning `pc` already holds the address after the instruction's bytes
(30_encoding.md R128). -/

namespace Sys2Proof.Machine

/-- `LD rr,nn` (R211). -/
def execLdRrNn (p : Reg16) (nn : Word) (s : State) : Result := .next ((s.setR16 p nn).setCycles s.config.cyc.load16.rrNn)

/-- `LD (nn),SP` (R212). -/
def execLdNnSp (nn : Word) (s : State) : Result := costing s.config.cyc.load16.nnSp (memWrite2 s nn s.sp)

/-- `PUSH rr` (R213). -/
def execPushRr (p : Stk16) (s : State) : Result := costing s.config.cycPush (push16 (s.stk16 p) s)

/-- `POP rr` (R214). -/
def execPopRr (p : Stk16) (s : State) : Result :=
  costing s.config.cycPop do
    let (v, t) ← pop16 s
    pure (t.setStk16 p v)

/-- `LD HL,SP+e` (R215). -/
def execLdHlSpE (e : Byte) (s : State) : Result :=
  let r := addSpOffset s.sp e
  .next (((s.setHl r.value).setFlags r.flags).setCycles s.config.cyc.load16.hlSpE)

/-- `LD SP,HL` (R216). -/
def execLdSpHl (s : State) : Result := .next ((s.setSp s.hl).setCycles s.config.cyc.load16.spHl)

end Sys2Proof.Machine
end

