-- ==== Sys2Proof/Machine/Load8.lean ====
section
/-! DEFINITION. 8-bit loads and stores (42_load8.md R180 to R199). None writes a flag.
In every meaning `pc` already holds the address after the instruction's bytes
(30_encoding.md R128). -/

namespace Sys2Proof.Machine

/-- `A <- MemRead(addr, 1)`, at the cost the rule gives. -/
def loadA (addr : Word) (cost : Nat) (s : State) : Result :=
  costing cost do
    let v ← memRead s addr
    pure (s.setReg .a v)

/-- `MemWrite(addr, 1, A)`, at the cost the rule gives. -/
def storeA (addr : Word) (cost : Nat) (s : State) : Result := costing cost (memWrite s addr s.regs.a)

/-- `LD r,r'` (R181). -/
def execLdRR (dst src : Reg8) (s : State) : Result := .next ((s.setReg dst (s.reg src)).setCycles s.config.cyc.load8.rr)

/-- `LD r,(HL)` (R182): the read is at the old HL. -/
def execLdRHl (dst : Reg8) (s : State) : Result :=
  costing s.config.cyc.load8.rHl do
    let v ← memRead s s.hl
    pure (s.setReg dst v)

/-- `LD (HL),r` (R183). -/
def execLdHlR (src : Reg8) (s : State) : Result := costing s.config.cyc.load8.hlR (memWrite s s.hl (s.reg src))

/-- `LD r,n` (R184). -/
def execLdRN (dst : Reg8) (n : Byte) (s : State) : Result := .next ((s.setReg dst n).setCycles s.config.cyc.load8.rn)

/-- `LD (HL),n` (R185). -/
def execLdHlN (n : Byte) (s : State) : Result := costing s.config.cyc.load8.hlN (memWrite s s.hl n)

/-- `LDH (n),A` (R186). -/
def execLdhNA (n : Byte) (s : State) : Result := storeA (highPage n) s.config.cyc.load8.hNA s

/-- `LDH A,(n)` (R187). -/
def execLdhAN (n : Byte) (s : State) : Result := loadA (highPage n) s.config.cyc.load8.hAN s

/-- `LD (C),A` (R188). -/
def execLdCA (s : State) : Result := storeA (highPage s.regs.c) s.config.cyc.load8.cA s

/-- `LD A,(C)` (R189). -/
def execLdAC (s : State) : Result := loadA (highPage s.regs.c) s.config.cyc.load8.aC s

/-- `LD (BC),A` (R190). -/
def execLdBcA (s : State) : Result := storeA s.regs.bc s.config.cyc.load8.bcA s

/-- `LD (DE),A` (R191). -/
def execLdDeA (s : State) : Result := storeA s.regs.de s.config.cyc.load8.deA s

/-- `LD A,(BC)` (R192). -/
def execLdABc (s : State) : Result := loadA s.regs.bc s.config.cyc.load8.aBc s

/-- `LD A,(DE)` (R193). -/
def execLdADe (s : State) : Result := loadA s.regs.de s.config.cyc.load8.aDe s

/-- `LD (HL+),A` (R194). -/
def execLdHliA (s : State) : Result :=
  costing s.config.cyc.load8.hliA do
    let t ← memWrite s s.hl s.regs.a
    pure (t.setHl (t.hl + 1))

/-- `LD (HL-),A` (R195). -/
def execLdHldA (s : State) : Result :=
  costing s.config.cyc.load8.hldA do
    let t ← memWrite s s.hl s.regs.a
    pure (t.setHl (t.hl - 1))

/-- `LD A,(HL+)` (R196). -/
def execLdAHli (s : State) : Result :=
  costing s.config.cyc.load8.aHli do
    let v ← memRead s s.hl
    pure ((s.setReg .a v).setHl (s.hl + 1))

/-- `LD A,(HL-)` (R197). -/
def execLdAHld (s : State) : Result :=
  costing s.config.cyc.load8.aHld do
    let v ← memRead s s.hl
    pure ((s.setReg .a v).setHl (s.hl - 1))

/-- `LD (nn),A` (R198). -/
def execLdNnA (nn : Word) (s : State) : Result := storeA nn s.config.cyc.load8.nnA s

/-- `LD A,(nn)` (R199). -/
def execLdANn (nn : Word) (s : State) : Result := loadA nn s.config.cyc.load8.aNn s

end Sys2Proof.Machine
end

