-- ==== Sys2Proof/Machine/Run.lean ====
section
/-! DEFINITION. One instruction (`CpuStep`, 30_encoding.md R128), the machine step (60_exceptions.md R312), and how the host places
an instruction where the next step fetches it (log 11). -/

namespace Sys2Proof.Machine

/-! ### Fetch and decode (R128) -/

/-- `REPERTOIRE = documented` refuses this opcode byte (R5, R128). -/
def State.refusesTier (s : State) (op : Byte) : Bool := decide (s.config.repertoire = .documented) && tierG op

/-- Fetch and decode one instruction: all its bytes, in address order, before anything else. STOP is refused before its second byte
is fetched (R128, R152). -/
def fetchInstr (s : State) : Access (Instr × State) := do
  let (op, s1) ← fetch8 s
  if s.refusesTier op then
    throw (.unimplementedOpcode op)
  else
    match opForm op with
    | .implied i => pure (i, s1)
    | .unreadByte i => pure (i, s1)
    | .prefixed => do
      let (sub, s2) ← fetch8 s1
      pure (decodeCb sub, s2)
    | .withByte f => do
      let (n, s2) ← fetch8 s1
      pure (f n, s2)
    | .withWord f => do
      let (nn, s2) ← fetch16 s1
      pure (f nn, s2)

/-- `CpuStep()` (R128). -/
def cpuStep (s : State) : Result :=
  match fetchInstr s with
  | .ok (i, t) => exec i t
  | .error f => .fault f

/-! ### The machine step (R312) -/

/-- `if was = 1 and ei_pending = 1: ime <- 1; ei_pending <- 0` (R154, R312). -/
def completeEi (was : Bool) (t : State) : State := if was && t.eiPending then (t.setIme true).setEiPending false else t

/-- What closes a step: the EI completion, then `Advance(cycles)`; a fatal step calls nothing (R300, R312). -/
def closeStep (was : Bool) (r : Result) : Result :=
  match r with
  | .next t => .next (advance (completeEi was t))
  | .fault f => .fault f
  | .refused q => .refused q

/-- The kind that this state dispatches at its poll: `ime = 1` and something pending (R306, R307). -/
def State.dispatches (s : State) : Option IrqKind := if s.ime then firstPending s.pending else none

/-- Halted with nothing pending: the step is an idle (R312). -/
def State.idles (s : State) : Bool := s.halted && decide (s.pending = 0)

/-- `MachineStep()` (R312): a halted idle, or a dispatch, or one instruction. -/
def machineStep (s : State) : Result :=
  if s.idles then .next (advance (s.setCycles s.config.cycHaltIdle))
  else
    let s1 := s.setHalted false
    match s1.dispatches with
    | some k => closeStep false (toOutcome (dispatchInterrupt k s1))
    | none => closeStep s1.eiPending (cpuStep s1)

/-! ### Placing an instruction for the host (log 11) -/

/-- The address holds a byte that a program's image or a loader can set, and a fetch reads it. -/
def State.holdsCode (s : State) (addr : Word) : Bool :=
  match owner addr with
  | .cartRom _ => true
  | .cartRam _ => s.cart.ramShown
  | .vram _ => s.config.mapVideoRam
  | .oam _ => s.config.mapVideoRam
  | .wram0 _ => true
  | .wram1 _ => true
  | .hram k => decide (k < s.config.hramSize)
  | _ => false

/-- Set the byte that a fetch at `addr` reads, in the image where the address is in ROM. -/
def State.pokeCode (s : State) (addr : Word) (v : Byte) : State :=
  match owner addr with
  | .cartRom n => s.setCart { s.cart with rom := s.cart.rom.write (s.cart.romOffset n) v }
  | .cartRam k => s.setCart (s.cart.writeRam s.config.ramBankSize k v)
  | .vram k => s.setRam { s.ram with vram := s.ram.vram.write k v }
  | .oam k => s.setRam { s.ram with oam := s.ram.oam.write k v }
  | .wram0 k => s.setRam { s.ram with wram0 := s.ram.wram0.write k v }
  | .wram1 k => s.setRam { s.ram with wram1 := s.ram.wram1.write k v }
  | .hram k => s.setRam { s.ram with hram := s.ram.hram.write k v }
  | _ => s

/-- Store bytes at an address and the addresses after it. -/
def State.pokeBytes (s : State) (addr : Word) (bytes : List Byte) : State :=
  match bytes with
  | [] => s
  | v :: rest => (s.pokeCode addr v).pokeBytes (addr + 1) rest

/-- The state in which the very next step fetches: not halted, no dispatch at the poll, and `pc` at three addresses that hold code. -/
def State.readyToFetch (s : State) : State :=
  let s1 := s.setHalted false
  let s2 := if s1.dispatches.isSome then s1.setIme false else s1
  if s2.holdsCode s2.pc && s2.holdsCode (s2.pc + 1) && s2.holdsCode (s2.pc + 2) then s2 else s2.setPc 0xC000

/-- The instruction whose bits are `w`, stored where the next step fetches. -/
def State.placeWord (s : State) (nbits w : Nat) : State :=
  let t := s.readyToFetch
  t.pokeBytes t.pc (tableBytes nbits w)

end Sys2Proof.Machine
end

