-- ==== Sys2Proof/Machine/Step.lean ====
section
/-! DEFINITION. The machine step under the host's name, and the host's placing of an instruction. -/

namespace Sys2Proof.Machine

/-- One machine step (60_exceptions.md R312). -/
def step (s : State) : Host.Outcome State Fault Refusal := machineStep s

/-- The state with an instruction stored where `step` fetches its next one (log 11). -/
def State.withFetchWord (s : State) (nbits w : Nat) : State := s.placeWord nbits w

end Sys2Proof.Machine
end

