-- ==== Sys2Proof/Machine/Boot.lean ====
section
/-! DEFINITION. Loading a cartridge image and building the machine (70_reset_and_hazards.md R370, 21_cartridge_mbc1.md R90 to R92),
with the fatal conditions of load time (R301). -/

namespace Sys2Proof.Machine

/-- A cartridge image: its length and its bytes. -/
structure Image where
  length : Nat
  bytes : Memory
deriving DecidableEq, Repr

/-- The launch parameters: the parameters of R7, the image (none: it could not be read), and the initial contents `WRAM_INIT`,
`HRAM_INIT`, `VRAM_INIT` and of OAM (`ram`) and `CARTRAM_INIT` (R37). -/
structure Launch where
  config : Config
  image : Option Image
  ram : Ram
  cartRam : Memory
deriving DecidableEq, Repr

/-- The header byte that selects the controller (R91). -/
def typeOffset : Nat := 0x0147

/-- The header byte that selects the RAM size (R92). -/
def ramSizeOffset : Nat := 0x0149

/-- R91: 0x00 selects no controller, 0x01 to 0x03 select MBC1. -/
def variantOfCode (code : Byte) : Option Variant :=
  if code = 0x00 then some .noController
  else if code = 0x01 ∨ code = 0x02 ∨ code = 0x03 then some .mbc1
  else none

/-- R92: the RAM size of a header code. -/
def ramSizeOfCode (table : List (Byte × Nat)) (code : Byte) : Option Nat := table.lookup code

/-- R90: a positive multiple of 16384, at least 32768. -/
def legalImageLength (n : Nat) : Bool := decide (n % romBankSize = 0) && decide (2 * romBankSize ≤ n)

/-- Cartridge construction (R90 to R92, R370 step 2). The spec gives no order between the check of the length (R90) and those of the
header bytes (R91, R92): which of them a doubly malformed image reports is the model's DESIGN CHOICE, the length first (log 19).
That the controller code is looked at before the RAM-size code is R92's: only MBC1 reads the latter. -/
def loadCart (cfg : Config) (img : Image) (cartRam : Memory) : Except Fault Cart :=
  if legalImageLength img.length then
    match variantOfCode (img.bytes.read typeOffset) with
    | none => .error (.malformedCartridgeHeader (.byteAt typeOffset (img.bytes.read typeOffset)))
    | some .noController => .ok (Cart.initial .noController img.bytes (img.length / romBankSize) [] 0)
    | some .mbc1 =>
      match ramSizeOfCode cfg.ramSizeTable (img.bytes.read ramSizeOffset) with
      | none => .error (.malformedCartridgeHeader (.byteAt ramSizeOffset (img.bytes.read ramSizeOffset)))
      | some n => .ok (Cart.initial .mbc1 img.bytes (img.length / romBankSize) cartRam n)
  else .error (.malformedCartridgeHeader (.length img.length))

/-- The reset sequence (R370): a machine in its reset state, or the fatal condition of load time. -/
def boot (l : Launch) : Host.Outcome State Fault Refusal :=
  match l.image with
  | none => .fault .imageIoFailure
  | some img =>
    match loadCart l.config img l.cartRam with
    | .ok cart => .next (State.initial l.config cart l.ram)
    | .error f => .fault f

end Sys2Proof.Machine
end

