-- ==== Sys2Proof/Safety.lean ====
section
/-! DEFINITION. The terms claims use: which addresses are mapped, what a store can change for later reads, the shapes of an
instruction's effect, what each instruction may write, the invariant of the machine, and a run that meets no fatal condition. -/

namespace Sys2Proof.Machine

/-- The addresses that have an owner which answers (20_memory.md R57), as ranges, for these parameters: `MAP_VIDEO_RAM` (R61) and
`HRAM_SIZE` (R67; log 20). Every other address is fatal to read and to write (R61, R62, R64). -/
def mappedAddr (cfg : Config) (addr : Word) : Bool :=
  let n := addr.toNat
  decide (n ≤ 0x7FFF) || (cfg.mapVideoRam && decide (0x8000 ≤ n ∧ n ≤ 0x9FFF)) || decide (0xA000 ≤ n ∧ n ≤ 0xFDFF)
    || (cfg.mapVideoRam && decide (0xFE00 ≤ n ∧ n ≤ 0xFE9F)) || decide (n = 0xFF0F) || decide (0xFF40 ≤ n ∧ n ≤ 0xFF45)
    || decide (0xFF47 ≤ n ∧ n ≤ 0xFF4B) || decide (0xFF80 ≤ n ∧ n < 0xFF80 + cfg.hramSize) || decide (n = 0xFFFF)

/-- The address is mapped in this machine. -/
abbrev Mapped (s : State) (addr : Word) : Prop := mappedAddr s.config addr = true

/-- A store at `addr` can change what a read at `x` returns (R60, R70): the same cell under either of its addresses, the windows that
a latch of the MBC1 moves (R103), and the registers that are computed from the one stored to. -/
def touches (s : State) (addr x : Word) : Bool :=
  match owner addr, owner x with
  | .cartRom n, .cartRom m => decide (s.cart.variant = .mbc1 ∧ 0x2000 ≤ n ∧ n ≤ 0x5FFF ∧ 0x4000 ≤ m)
  | .cartRom n, .cartRam _ => decide (s.cart.variant = .mbc1 ∧ (n ≤ 0x1FFF ∨ 0x4000 ≤ n))
  | .cartRam k, .cartRam k' => s.cart.ramShown && 
      decide (s.cart.ramOffset s.config.ramBankSize k = s.cart.ramOffset s.config.ramBankSize k')
  | .lcd .ly, .lcd .stat => true
  | .lcd .lyc, .lcd .stat => true
  | o, o' => decide (o = o')

/-- No field outside the bus differs: no access to memory or to a register window changes one of these. -/
structure SameCore (s t : State) : Prop where
  regs : t.regs = s.regs
  flags : t.flags = s.flags
  sp : t.sp = s.sp
  pc : t.pc = s.pc
  ime : t.ime = s.ime
  eiPending : t.eiPending = s.eiPending
  halted : t.halted = s.halted
  cycles : t.cycles = s.cycles
  config : t.config = s.config

/-- None of these addresses lies from `lo` to `hi`. -/
def Away (places : List Word) (lo hi : Nat) : Prop := ∀ a ∈ places, a.toNat < lo ∨ hi < a.toNat

/-- Between `s` and `t` there are stores at most at `places`: what holds the ranges of the address map (20_memory.md R57) that these
addresses avoid is unchanged, the parts of it that no read shows included. -/
structure KeepsElsewhere (places : List Word) (s t : State) : Prop where
  /-- The latches of the cartridge (R94 to R97). -/
  latches : Away places 0x0000 0x7FFF →
    t.cart.ramEn = s.cart.ramEn ∧ t.cart.bankLo = s.cart.bankLo ∧ t.cart.bankHi = s.cart.bankHi ∧ t.cart.mode = s.cart.mode
  vram : Away places 0x8000 0x9FFF → t.ram.vram = s.ram.vram
  cartRam : Away places 0xA000 0xBFFF → t.cart.ram = s.cart.ram
  /-- The work RAM and its mirror (R59, R60). -/
  wram : Away places 0xC000 0xFDFF → t.ram.wram0 = s.ram.wram0 ∧ t.ram.wram1 = s.ram.wram1
  oam : Away places 0xFE00 0xFE9F → t.ram.oam = s.ram.oam
  irq : Away places 0xFF0F 0xFF0F → t.irq = s.irq
  lcd : Away places 0xFF40 0xFF4B → t.lcd = s.lcd
  /-- Only a store to LY moves `dot` (R351). -/
  dot : Away places 0xFF44 0xFF44 → t.dot = s.dot
  hram : Away places 0xFF80 0xFFFE → t.ram.hram = s.ram.hram
  ie : Away places 0xFFFF 0xFFFF → t.ie = s.ie

/-- The same image and the same construction of the cartridge: what is fixed for a run (10_state.md R33, 21_cartridge_mbc1.md R91). -/
structure SameImage (s t : State) : Prop where
  variant : t.cart.variant = s.cart.variant
  rom : t.cart.rom = s.cart.rom
  banks : t.cart.banks = s.cart.banks
  ramSize : t.cart.ramSize = s.cart.ramSize

/-- A block in canonical form and inside its size. -/
def Memory.fits (m : Memory) (size : Nat) : Prop := m.wf = true ∧ m.within size = true

/-- The invariant of the memories outside the cartridge (10_state.md R33). -/
structure Ram.Inv (cfg : Config) (r : Ram) : Prop where
  wram0 : r.wram0.fits wramSize
  wram1 : r.wram1.fits wramSize
  hram : r.hram.fits cfg.hramSize
  vram : r.vram.fits vramSize
  oam : r.oam.fits oamSize

/-- The invariant of the cartridge: what its construction gives (21_cartridge_mbc1.md R90 to R92) and what the latches keep (R95). -/
structure Cart.Inv (cfg : Config) (c : Cart) : Prop where
  banks : 2 ≤ c.banks
  rom : c.rom.fits (c.banks * romBankSize)
  ram : c.ram.fits c.ramSize
  bankLo : c.bankLo ≠ 0
  variant : variantOfCode (c.rom.read typeOffset) = some c.variant
  noRam : c.variant = .noController → c.ramSize = 0
  ramSize : c.variant = .mbc1 → ramSizeOfCode cfg.ramSizeTable (c.rom.read ramSizeOffset) = some c.ramSize

/-- The invariant of the machine. -/
structure State.Inv (s : State) : Prop where
  /-- `dot` is in 0..70223 (R35). -/
  dot : s.dot < dotsPerFrame
  ram : s.ram.Inv s.config
  cart : s.cart.Inv s.config

/-- Launch parameters that describe memories of the right sizes. -/
structure Launch.Inv (l : Launch) : Prop where
  ram : l.ram.Inv l.config
  image : ∀ img, l.image = some img → img.bytes.fits img.length
  cartRam : ∀ img n, l.image = some img → ramSizeOfCode l.config.ramSizeTable (img.bytes.read ramSizeOffset) = some n →
    l.cartRam.fits n

/-- The cost parameters have the values of the cycle table (70_reset_and_hazards.md R380). -/
structure TableCosts (cfg : Config) : Prop where
  table : cfg.cyc = defaultCycles
  push : cfg.cycPush = 16
  pop : cfg.cycPop = 12
  bitHl : cfg.cycBitHl = 16
  dispatch : cfg.cycDispatch = 20
  haltIdle : cfg.cycHaltIdle = 4

/-- The states that `n` machine steps reach from `s`, none of them fatal: a safe run of `n` steps ends in `t`. -/
def SafeRun (s : State) (n : Nat) (t : State) : Prop := Sys2Proof.core.run n s = .next t

/-! ### Spelling, fetching, conditions -/

/-- These bytes, whatever follows them, decode to `i` and are consumed whole. -/
def SpelledBy (i : Instr) (bytes : List Byte) : Prop := ∀ rest : List Byte, decode (bytes ++ rest) = .ok (i, rest)

/-- The state is at the point of its machine step where an instruction is fetched (60_exceptions.md R312): it does not idle and it
dispatches nothing. -/
def FetchesNext (s : State) : Prop := (s.halted = true → s.pending ≠ 0) ∧ (s.ime = true → s.pending = 0)

/-- The opcode byte is not refused by the repertoire (00_scope.md R5). -/
def Admitted (s : State) (op : Byte) : Prop := s.config.repertoire = .documented → op ∉ tierGOpcodes

/-- The bytes from `pc` on read as these. -/
def BytesAtPc (s : State) (bytes : List Byte) : Prop :=
  ∀ (k : Nat) (v : Byte), bytes[k]? = some v → memRead s (s.pc + BitVec.ofNat 16 k) = .ok v

/-- The instruction `i` stands at `pc`, spelled by `bytes`, and this step fetches it. -/
structure AboutToRun (s : State) (i : Instr) (bytes : List Byte) : Prop where
  fetches : FetchesNext s
  atPc : BytesAtPc s bytes
  decodes : decode bytes = .ok (i, [])
  admitted : ∀ op, bytes[0]? = some op → Admitted s op

/-- The state in which the fetched instruction executes: awake, and `pc` past the instruction's bytes (30_encoding.md R128). -/
def State.afterFetch (s : State) (bytes : List Byte) : State :=
  { s with halted := false, pc := s.pc + BitVec.ofNat 16 bytes.length }

/-- The condition table of 30_encoding.md R124. -/
def Taken (cc : Cond) (f : Flags) : Prop :=
  match cc with
  | .nz => f.z = false
  | .z => f.z = true
  | .nc => f.c = false
  | .c => f.c = true

/-! ### The shapes of an effect

Each says when the instruction completes, with which state, and which fatal access ends it otherwise. `after` names the next
state in full, so a shape states the instruction's frame as well. -/

/-- One byte is read at `addr`. -/
def LoadsFrom (i : Instr) (s : State) (addr : Word) (after : Byte → State) : Prop :=
  (Mapped s addr → ∃ v, memRead s addr = .ok v ∧ exec i s = .next (after v)) ∧
    (¬Mapped s addr → exec i s = .fault (.unmappedAddress addr .read))

/-- Two bytes are read, the first at `a`. -/
def LoadsPair (i : Instr) (s : State) (a b : Word) (after : Byte → Byte → State) : Prop :=
  (Mapped s a → Mapped s b → ∃ x y, memRead s a = .ok x ∧ memRead s b = .ok y ∧ exec i s = .next (after x y)) ∧
    (¬Mapped s a → exec i s = .fault (.unmappedAddress a .read)) ∧
    (Mapped s a → ¬Mapped s b → exec i s = .fault (.unmappedAddress b .read))

/-- `u` is `s` after a store at `addr`: nothing outside the bus differs, and every address that the store does not touch reads as
before. -/
def OnlyStored (s u : State) (addr : Word) : Prop :=
  SameCore s u ∧ ∀ x, touches s addr x = false → memRead u x = memRead s x

/-- The byte `v` is stored at `addr`. -/
def StoresTo (i : Instr) (s : State) (addr : Word) (v : Byte) (after : State → State) : Prop :=
  (Mapped s addr → ∃ u, memWrite s addr v = .ok u ∧ OnlyStored s u addr ∧ exec i s = .next (after u)) ∧
    (¬Mapped s addr → exec i s = .fault (.unmappedAddress addr .write))

/-- The byte `v` is stored at `a`, then `w` at `b`. -/
def StoresPair (i : Instr) (s : State) (a : Word) (v : Byte) (b : Word) (w : Byte) (after : State → State) : Prop :=
  (Mapped s a → Mapped s b → ∃ u1 u2, memWrite s a v = .ok u1 ∧ memWrite u1 b w = .ok u2 ∧ OnlyStored s u1 a ∧
      OnlyStored u1 u2 b ∧ exec i s = .next (after u2)) ∧
    (¬Mapped s a → exec i s = .fault (.unmappedAddress a .write)) ∧
    (Mapped s a → ¬Mapped s b → exec i s = .fault (.unmappedAddress b .write))

/-- One byte `v` is read at `addr`, then `f v` is stored there. -/
def Rewrites (i : Instr) (s : State) (addr : Word) (f : Byte → Byte) (after : Byte → State → State) : Prop :=
  (Mapped s addr → ∃ v u, memRead s addr = .ok v ∧ memWrite s addr (f v) = .ok u ∧ OnlyStored s u addr ∧
      exec i s = .next (after v u)) ∧
    (¬Mapped s addr → exec i s = .fault (.unmappedAddress addr .read))

/-! ### What an instruction may write -/

/-- The registers of a pair; `sp` has none. -/
def reg16Regs (p : Reg16) : List Reg8 :=
  match p with
  | .bc => [.b, .c]
  | .de => [.d, .e]
  | .hl => [.h, .l]
  | .sp => []

/-- The general registers of a pair that PUSH and POP name. -/
def stk16Regs (p : Stk16) : List Reg8 :=
  match p with
  | .bc => [.b, .c]
  | .de => [.d, .e]
  | .hl => [.h, .l]
  | .af => [.a]

/-- The four flags as names. -/
inductive FlagName where
  | z | n | h | c
deriving DecidableEq, Repr

/-- The value of a flag. -/
def Flags.value (f : Flags) (k : FlagName) : Bool :=
  match k with
  | .z => f.z
  | .n => f.n
  | .h => f.h
  | .c => f.c

/-- Where an instruction stores, as its pseudocode names the address. -/
inductive StorePlace where
  | hl
  | bc
  | de
  /-- `0xFF00 + C` (R188). -/
  | highC
  /-- An address in the instruction's own bytes. -/
  | absolute (addr : Word)
  /-- `sp - depth`, with `sp` as it was before the push (R210). -/
  | stack (depth : Word)
deriving DecidableEq, Repr

/-- The address stored to, from the state in which the instruction executes. -/
def StorePlace.addr (p : StorePlace) (s : State) : Word :=
  match p with
  | .hl => s.hl
  | .bc => s.regs.bc
  | .de => s.regs.de
  | .highC => highPage s.regs.c
  | .absolute addr => addr
  | .stack depth => s.sp - depth

/-- The two bytes of a push, in the order they are stored (R210). -/
def pushPlaces : List StorePlace := [.stack 1, .stack 2]

/-- What an instruction may write, besides `cycles`. -/
structure Footprint where
  /-- The destination registers, and the pair that an addressing mode moves. -/
  regs : List Reg8 := []
  /-- The flags the rule lists under "flags written". -/
  flags : List FlagName := []
  /-- `sp`. -/
  sp : Bool := false
  /-- `pc`, beyond moving past the instruction's own bytes. -/
  pc : Bool := false
  /-- The bytes it may store, in memory or in a register window. -/
  stores : List StorePlace := []
  /-- `ime` and `ei_pending`. -/
  irq : Bool := false
  /-- `halted`. -/
  halt : Bool := false

/-- All four flags. -/
def allFlags : List FlagName := [.z, .n, .h, .c]

/-- The footprint of every instruction, from the "flags written" line and the pseudocode of its rule. `prefixCb` stands for any
instruction of the prefixed table. -/
def footprint (i : Instr) : Footprint :=
  match i with
  | .nop => { }
  | .stop => { }
  | .halt => { halt := true }
  | .di => { irq := true }
  | .ei => { irq := true }
  | .prefixCb _ => { regs := [.b, .c, .d, .e, .h, .l, .a], flags := allFlags, stores := [.hl] }
  | .jpNn _ => { pc := true }
  | .jpCcNn _ _ => { pc := true }
  | .jpHl => { pc := true }
  | .jrE _ => { pc := true }
  | .jrCcE _ _ => { pc := true }
  | .callNn _ => { sp := true, pc := true, stores := pushPlaces }
  | .callCcNn _ _ => { sp := true, pc := true, stores := pushPlaces }
  | .ret => { sp := true, pc := true }
  | .retCc _ => { sp := true, pc := true }
  | .reti => { sp := true, pc := true, irq := true }
  | .rst _ => { sp := true, pc := true, stores := pushPlaces }
  | .ldRR r _ => { regs := [r] }
  | .ldRHl r => { regs := [r] }
  | .ldHlR _ => { stores := [.hl] }
  | .ldRN r _ => { regs := [r] }
  | .ldHlN _ => { stores := [.hl] }
  | .ldhNA n => { stores := [.absolute (highPage n)] }
  | .ldhAN _ => { regs := [.a] }
  | .ldCA => { stores := [.highC] }
  | .ldAC => { regs := [.a] }
  | .ldBcA => { stores := [.bc] }
  | .ldDeA => { stores := [.de] }
  | .ldABc => { regs := [.a] }
  | .ldADe => { regs := [.a] }
  | .ldHliA => { regs := [.h, .l], stores := [.hl] }
  | .ldHldA => { regs := [.h, .l], stores := [.hl] }
  | .ldAHli => { regs := [.a, .h, .l] }
  | .ldAHld => { regs := [.a, .h, .l] }
  | .ldNnA nn => { stores := [.absolute nn] }
  | .ldANn _ => { regs := [.a] }
  | .ldRrNn p _ => { regs := reg16Regs p, sp := decide (p = .sp) }
  | .ldNnSp nn => { stores := [.absolute nn, .absolute (nn + 1)] }
  | .pushRr _ => { sp := true, stores := pushPlaces }
  | .popRr p => { regs := stk16Regs p, flags := if p = .af then allFlags else [], sp := true }
  | .ldHlSpE _ => { regs := [.h, .l], flags := allFlags }
  | .ldSpHl => { sp := true }
  | .addAR _ => { regs := [.a], flags := allFlags }
  | .addAHl => { regs := [.a], flags := allFlags }
  | .addAN _ => { regs := [.a], flags := allFlags }
  | .adcAR _ => { regs := [.a], flags := allFlags }
  | .adcAHl => { regs := [.a], flags := allFlags }
  | .adcAN _ => { regs := [.a], flags := allFlags }
  | .subAR _ => { regs := [.a], flags := allFlags }
  | .subAHl => { regs := [.a], flags := allFlags }
  | .subAN _ => { regs := [.a], flags := allFlags }
  | .sbcAR _ => { regs := [.a], flags := allFlags }
  | .sbcAHl => { regs := [.a], flags := allFlags }
  | .sbcAN _ => { regs := [.a], flags := allFlags }
  | .andAR _ => { regs := [.a], flags := allFlags }
  | .andAHl => { regs := [.a], flags := allFlags }
  | .andAN _ => { regs := [.a], flags := allFlags }
  | .xorAR _ => { regs := [.a], flags := allFlags }
  | .xorAHl => { regs := [.a], flags := allFlags }
  | .xorAN _ => { regs := [.a], flags := allFlags }
  | .orAR _ => { regs := [.a], flags := allFlags }
  | .orAHl => { regs := [.a], flags := allFlags }
  | .orAN _ => { regs := [.a], flags := allFlags }
  | .cpAR _ => { flags := allFlags }
  | .cpAHl => { flags := allFlags }
  | .cpAN _ => { flags := allFlags }
  | .incR r => { regs := [r], flags := [.z, .n, .h] }
  | .incHl => { flags := [.z, .n, .h], stores := [.hl] }
  | .decR r => { regs := [r], flags := [.z, .n, .h] }
  | .decHl => { flags := [.z, .n, .h], stores := [.hl] }
  | .cpl => { regs := [.a], flags := [.n, .h] }
  | .daa => { regs := [.a], flags := [.z, .h, .c] }
  | .scf => { flags := [.n, .h, .c] }
  | .ccf => { flags := [.n, .h, .c] }
  | .incRr p => { regs := reg16Regs p, sp := decide (p = .sp) }
  | .decRr p => { regs := reg16Regs p, sp := decide (p = .sp) }
  | .addHlRr _ => { regs := [.h, .l], flags := [.n, .h, .c] }
  | .addSpE _ => { flags := allFlags, sp := true }
  | .rlca => { regs := [.a], flags := allFlags }
  | .rrca => { regs := [.a], flags := allFlags }
  | .rla => { regs := [.a], flags := allFlags }
  | .rra => { regs := [.a], flags := allFlags }
  | .rlcR r => { regs := [r], flags := allFlags }
  | .rlcHl => { flags := allFlags, stores := [.hl] }
  | .rrcR r => { regs := [r], flags := allFlags }
  | .rrcHl => { flags := allFlags, stores := [.hl] }
  | .rlR r => { regs := [r], flags := allFlags }
  | .rlHl => { flags := allFlags, stores := [.hl] }
  | .rrR r => { regs := [r], flags := allFlags }
  | .rrHl => { flags := allFlags, stores := [.hl] }
  | .slaR r => { regs := [r], flags := allFlags }
  | .slaHl => { flags := allFlags, stores := [.hl] }
  | .sraR r => { regs := [r], flags := allFlags }
  | .sraHl => { flags := allFlags, stores := [.hl] }
  | .swapR r => { regs := [r], flags := allFlags }
  | .swapHl => { flags := allFlags, stores := [.hl] }
  | .srlR r => { regs := [r], flags := allFlags }
  | .srlHl => { flags := allFlags, stores := [.hl] }
  | .bitR _ _ => { flags := [.z, .n, .h] }
  | .bitHl _ => { flags := [.z, .n, .h] }
  | .resR _ r => { regs := [r] }
  | .resHl _ => { stores := [.hl] }
  | .setR _ r => { regs := [r] }
  | .setHl _ => { stores := [.hl] }
  | .illegalD3 => { }
  | .illegalDB => { }
  | .illegalDD => { }
  | .illegalE3 => { }
  | .illegalE4 => { }
  | .illegalEB => { }
  | .illegalEC => { }
  | .illegalED => { }
  | .illegalF4 => { }
  | .illegalFC => { }
  | .illegalFD => { }

/-- The addresses that the step of this state stores to, if it completes: none when it idles, the two stack bytes when it dispatches,
else those of the instruction it fetches (60_exceptions.md R312). -/
def State.stepStores (s : State) : List Word :=
  if s.idles then []
  else
    match (s.setHalted false).dispatches with
    | some _ => pushPlaces.map (·.addr s)
    | none =>
      match fetchInstr (s.setHalted false) with
      | .ok (i, t) => (footprint i).stores.map (·.addr t)
      | .error _ => []

/-! ### Time -/

/-- How many of these successive advances, from `dot`, raise a VerticalBlank request (61_display_timing.md R344). -/
def vblankRequests (dot : Nat) (costs : List Nat) : Nat :=
  match costs with
  | [] => 0
  | c :: rest => (entersVblank dot (nextDot dot c)).toNat + vblankRequests (nextDot dot c) rest

end Sys2Proof.Machine
end

