-- ==== Sys2Proof/Certificates/Slice0/Obligations.lean ====
section
/-! DEFINITION. The statements for the provers: what each numbered rule of spec/ says the machine does, and the whole-machine
properties. A result is stated as the next state in full (a record update of the state before), so it states the frame as well:
every field that the update does not name keeps its value. A cost is the entry of the machine's cycle table, and the value of that
entry in the spec's table stands beside it (00_scope.md R7, 70_reset_and_hazards.md R380). Instruction statements are about
`exec`, at whose start `pc` already holds the address after the instruction's bytes (30_encoding.md R128);
`StepRunsDecodedInstruction` carries them to a step. -/

open Sys2Proof Sys2Proof.Machine

/-! ### Encoding -/

/-- Decoding the encoding of any well-formed instruction gives it back, with every operand at every value, and leaves the bytes
that follow (30_encoding.md R120 to R132). -/
def Obligations.DecodeInvertsEncode : Prop :=
  ∀ (i : Instr) (rest : List Byte), i.wellFormed = true → decode (encode i ++ rest) = .ok (i, rest)

/-- Every byte string that decodes is the encoding of the instruction it decodes to, followed by the rest. The one exception is
STOP: its second byte is ignored and never fetched (40_control_misc.md R152). That a STOP whose second byte is missing decodes too
is the model's choice, not R152's (log 7, and log 16 for byte strings that end early). -/
def Obligations.DecodedBytesAreTheEncoding : Prop :=
  ∀ (bytes rest : List Byte) (i : Instr), decode bytes = .ok (i, rest) →
    i.wellFormed = true ∧
      ((i ≠ .stop ∧ bytes = encode i ++ rest) ∨
        (i = .stop ∧ ((∃ b, bytes = 0x10 :: b :: rest) ∨ (bytes = [0x10] ∧ rest = []))))

/-- One word of each family, written out bit by bit from the encoding lines of the spec. -/
def Obligations.WrittenWordsDecode : Prop :=
  SpelledBy .di [0b11110011] ∧
  SpelledBy (.jrCcE .nc 0xFC) [0b00110000, 0xFC] ∧
  SpelledBy (.callCcNn .c 0x4000) [0b11011100, 0x00, 0x40] ∧
  SpelledBy (.rst 5) [0b11101111] ∧
  SpelledBy (.ldRR .b .c) [0b01000001] ∧
  SpelledBy (.ldRN .a 0x42) [0b00111110, 0x42] ∧
  SpelledBy (.ldRrNn .sp 0xFFFE) [0b00110001, 0xFE, 0xFF] ∧
  SpelledBy (.pushRr .af) [0b11110101] ∧
  SpelledBy (.sbcAR .h) [0b10011100] ∧
  SpelledBy (.decRr .bc) [0b00001011] ∧
  SpelledBy (.sraR .e) [0b11001011, 0b00101011] ∧
  SpelledBy (.bitR 4 .l) [0b11001011, 0b01100101] ∧
  SpelledBy (.setHl 7) [0b11001011, 0b11111110]

/-- 30_encoding.md R120: every opcode byte starts exactly one instruction, of a length from 1 to 3 that this byte alone fixes; the
prefix byte is followed by one sub-opcode, and every sub-opcode selects an instruction. -/
def Obligations.FirstByteFixesLength : Prop :=
  (∀ op : Byte, ∃ n, 1 ≤ n ∧ n ≤ 3 ∧ ∀ (b1 b2 : Byte) (rest : List Byte),
      ∃ i, i.wellFormed = true ∧ decode (op :: b1 :: b2 :: rest) = .ok (i, (op :: b1 :: b2 :: rest).drop n)) ∧
    ∀ (sub : Byte) (rest : List Byte), ∃ i, i.wellFormed = true ∧ decode (0xCB :: sub :: rest) = .ok (i, rest)

/-! ### The machine step -/

/-- When the bytes at `pc` decode to `i` and the step fetches, the step is `exec i` in the awake state with `pc` past the bytes,
then the completion of an earlier EI, then `Advance` (30_encoding.md R128, 60_exceptions.md R312). -/
def Obligations.StepRunsDecodedInstruction : Prop :=
  ∀ (s : State) (i : Instr) (bytes : List Byte), AboutToRun s i bytes →
    step s =
      match exec i (s.afterFetch bytes) with
      | .next t => .next (advance (if s.eiPending && t.eiPending then { t with ime := true, eiPending := false } else t))
      | .fault f => .fault f
      | .refused q => .refused q

/-- 60_exceptions.md R302, the synchronous part before the data accesses: an unmapped opcode fetch, then the decode, then the
operand fetches in address order, each ends the run before anything later happens. The opcodes that the documented repertoire does
not admit (00_scope.md R5) are the tier G bytes, listed here in the order of 30_encoding.md R131. -/
def Obligations.FetchFailsInOrder : Prop :=
  let tierG (op : Byte) : Prop :=
    let n := op.toNat
    n ∈ [0x76, 0x10, 0xF3, 0xFB] ∨                                      -- HALT, STOP, DI, EI
    n ∈ [0xE9, 0xC4, 0xCC, 0xD4, 0xDC, 0xC0, 0xC8, 0xD0, 0xD8] ∨        -- JP HL, CALL cc,nn, RET cc
    0xC7 ≤ n ∧ n % 8 = 7 ∨                                              -- RST t
    n ∈ [0x02, 0x12, 0x0A, 0x1A, 0x22, 0x32, 0x2A, 0x3A, 0xEA, 0xFA] ∨  -- A with (BC), (DE), (HL+), (HL-), (nn)
    0x88 ≤ n ∧ n ≤ 0x8F ∨ n = 0xCE ∨                                    -- ADC
    0x98 ≤ n ∧ n ≤ 0x9F ∨ n = 0xDE ∨                                    -- SBC
    n ∈ [0x27, 0x37, 0x3F] ∨                                            -- DAA, SCF, CCF
    n < 0x40 ∧ (n % 16 = 0x3 ∨ n % 16 = 0xB ∨ n % 16 = 0x9) ∨           -- INC rr, DEC rr, ADD HL,rr
    n = 0xE8                                                            -- ADD SP,e
  (∀ (s : State) (op : Byte), Admitted s op ↔ (s.config.repertoire = .documented → ¬tierG op)) ∧
  ∀ s : State, FetchesNext s →
    (¬Mapped s s.pc → step s = .fault (.unmappedAddress s.pc .read)) ∧
    ∀ op : Byte, memRead s s.pc = .ok op →
      (¬Admitted s op → step s = .fault (.unimplementedOpcode op)) ∧
      (Admitted s op → (∃ e, decode [op] = .error e) →
        (¬Mapped s (s.pc + 1) → step s = .fault (.unmappedAddress (s.pc + 1) .read)) ∧
        (Mapped s (s.pc + 1) → (∀ b, ∃ e, decode [op, b] = .error e) → ¬Mapped s (s.pc + 2) →
          step s = .fault (.unmappedAddress (s.pc + 2) .read)))

/-- While halted with nothing pending a step fetches nothing: only `dot`, the request bit of VerticalBlank and the step's cost
change. A pending enabled request wakes the machine whatever `ime` holds: the step is the one of the awake state
(60_exceptions.md R312). -/
def Obligations.HaltedStepIdlesOrWakes : Prop :=
  ∀ s : State, s.halted = true →
    (s.ie.extractLsb' 0 5 &&& s.irq = 0 →
      step s = .next
        { s with
          cycles := s.config.cycHaltIdle
          dot := (s.dot + s.config.cycHaltIdle) % 70224
          irq := if s.dot < 65664 ∧ 65664 ≤ (s.dot + s.config.cycHaltIdle) % 70224 then s.irq ||| 0b00001 else s.irq }) ∧
    (s.ie.extractLsb' 0 5 &&& s.irq ≠ 0 → step s = step { s with halted := false })

/-- Dispatch of the kind numbered `k`, the lowest pending one (60_exceptions.md R307, R308): `pc` is pushed, high byte first, the
request and the enables are cleared, and control goes to `0x40 + 8 * k`. `a` is the state in which the pushes happen. -/
def Obligations.DispatchTakesLowestPendingKind : Prop :=
  defaultConfig.cycDispatch = 20 ∧
  ∀ (s : State) (k : Nat), s.ime = true → k < 5 → s.pending.getLsbD k = true → (∀ j, j < k → s.pending.getLsbD j = false) →
    let a : State :=
      { s with irq := s.irq &&& ~~~(1#5 <<< k), ime := false, eiPending := false, halted := false, sp := s.sp - 2 }
    (Mapped s (s.sp - 1) → Mapped s (s.sp - 2) → ∃ u1 u2,
        memWrite a (s.sp - 1) (s.pc.extractLsb' 8 8) = .ok u1 ∧ memWrite u1 (s.sp - 2) (s.pc.extractLsb' 0 8) = .ok u2 ∧
        OnlyStored a u1 (s.sp - 1) ∧ OnlyStored u1 u2 (s.sp - 2) ∧
        step s = .next (advance { u2 with pc := BitVec.ofNat 16 (0x40 + 8 * k), cycles := s.config.cycDispatch })) ∧
      (¬Mapped s (s.sp - 1) → step s = .fault (.unmappedAddress (s.sp - 1) .write)) ∧
      (Mapped s (s.sp - 1) → ¬Mapped s (s.sp - 2) → step s = .fault (.unmappedAddress (s.sp - 2) .write))

/-- 40_control_misc.md R154: EI only marks the enable; the instruction after it runs with interrupts off, and its completion sets
`ime`, unless it is DI, which cancels the enable. Without an EI before, no instruction but RETI turns `ime` on. -/
def Obligations.EiEnablesAfterNextInstruction : Prop :=
  SpelledBy .ei [0xFB] ∧ defaultCycles.control.ei = 4 ∧
  (∀ s : State, exec .ei s = .next { s with eiPending := true, cycles := s.config.cyc.control.ei }) ∧
  ∀ (s t : State) (i : Instr) (bytes : List Byte), AboutToRun s i bytes → s.ime = false → step s = .next t →
    (s.eiPending = true → t.ime = decide (i ≠ .di) ∧ t.eiPending = false) ∧
    (s.eiPending = false → t.ime = decide (i = .reti) ∧ t.eiPending = decide (i = .ei))

/-- `Advance` moves the dot counter modulo one frame and requests VerticalBlank when the counter enters the vertical-blank interval
(61_display_timing.md R344). -/
def Obligations.AdvanceMovesCounter : Prop :=
  ∀ s : State,
    advance s =
      { s with
        dot := (s.dot + s.cycles) % 70224
        irq := if s.dot < 65664 ∧ 65664 ≤ (s.dot + s.cycles) % 70224 then s.irq ||| 0b00001 else s.irq }

/-! ### Control -/

/-- NOP and DI (40_control_misc.md R150, R153): their bytes, their effect and their cost. -/
def Obligations.NopAndDi : Prop :=
  SpelledBy .nop [0x00] ∧ SpelledBy .di [0xF3] ∧
  (defaultCycles.control.nop = 4 ∧ defaultCycles.control.di = 4) ∧
  ∀ s : State,
    exec .nop s = .next { s with cycles := s.config.cyc.control.nop } ∧
    exec .di s = .next { s with ime := false, eiPending := false, cycles := s.config.cyc.control.di }

/-- HALT (40_control_misc.md R151): refused when `ime = 0` and an enabled request is pending, else it sets `halted`. -/
def Obligations.HaltSetsHalted : Prop :=
  SpelledBy .halt [0x76] ∧ defaultCycles.control.halt = 4 ∧
  ∀ s : State,
    (s.ime = false → s.ie.extractLsb' 0 5 &&& s.irq ≠ 0 → exec .halt s = .fault (.unimplementedOpcode 0x76)) ∧
    (s.ime = true ∨ s.ie.extractLsb' 0 5 &&& s.irq = 0 → exec .halt s =
      .next { s with halted := true, cycles := s.config.cyc.control.halt })

/-- The opcode bytes that are fatal in both repertoires: STOP, whose second byte is not fetched (40_control_misc.md R152), and the
eleven illegal bytes, which are ordinary data as operand bytes and as sub-opcodes (30_encoding.md R132). -/
def Obligations.RefusedOpcodesAreFatal : Prop :=
  let rows : List (Instr × Byte) :=
    [(.illegalD3, 0xD3), (.illegalDB, 0xDB), (.illegalDD, 0xDD), (.illegalE3, 0xE3), (.illegalE4, 0xE4), (.illegalEB, 0xEB),
      (.illegalEC, 0xEC), (.illegalED, 0xED), (.illegalF4, 0xF4), (.illegalFC, 0xFC), (.illegalFD, 0xFD)]
  (∀ b : Byte, SpelledBy .stop [0x10, b]) ∧
  (∀ row ∈ rows, SpelledBy row.1 [row.2] ∧ SpelledBy (.ldRN .b row.2) [0x06, row.2] ∧
    ∃ i, i.wellFormed = true ∧ SpelledBy i [0xCB, row.2]) ∧
  ∀ row ∈ (Instr.stop, (0x10 : Byte)) :: rows, ∀ s : State,
    exec row.1 s = .fault (.unimplementedOpcode row.2) ∧
    (FetchesNext s → memRead s s.pc = .ok row.2 → step s = .fault (.unimplementedOpcode row.2))

/-- The prefix byte (30_encoding.md R126): it dispatches on the sub-opcode, all 256 are defined, and the instruction completes where
its operand is a register or a mapped byte. -/
def Obligations.PrefixDispatchesOnSubOpcode : Prop :=
  ∀ sub : Byte, ∃ i, i.wellFormed = true ∧ SpelledBy i [0xCB, sub] ∧
    ∀ s : State, exec (.prefixCb sub) s = exec i s ∧
      (sub.extractLsb' 0 3 ≠ 6 ∨ Mapped s s.hl → ∃ t, exec (.prefixCb sub) s = .next t) ∧
      (sub.extractLsb' 0 3 = 6 → ¬Mapped s s.hl → exec (.prefixCb sub) s = .fault (.unmappedAddress s.hl .read))

/-! ### Jumps, calls, returns -/

/-- `JP nn`, `JP cc,nn`, `JP HL` (41_jumps_calls.md R161, R162, R171). -/
def Obligations.AbsoluteJumps : Prop :=
  (∀ lo hi : Byte, SpelledBy (.jpNn (hi ++ lo)) [0xC3, lo, hi] ∧ SpelledBy (.jpCcNn .nz (hi ++ lo)) [0xC2, lo, hi] ∧
    SpelledBy (.jpCcNn .z (hi ++ lo)) [0xCA, lo, hi] ∧ SpelledBy (.jpCcNn .nc (hi ++ lo)) [0xD2, lo, hi] ∧
    SpelledBy (.jpCcNn .c (hi ++ lo)) [0xDA, lo, hi]) ∧
  SpelledBy .jpHl [0xE9] ∧
  (defaultCycles.jumps.jpNn = 16 ∧ defaultCycles.jumps.jpCcNn = { taken := 16, notTaken := 12 } ∧
    defaultCycles.jumps.jpHl = 4) ∧
  ∀ (s : State) (cc : Cond) (nn : Word),
    exec (.jpNn nn) s = .next { s with pc := nn, cycles := s.config.cyc.jumps.jpNn } ∧
    (Taken cc s.flags → exec (.jpCcNn cc nn) s = .next { s with pc := nn, cycles := s.config.cyc.jumps.jpCcNn.taken }) ∧
    (¬Taken cc s.flags → exec (.jpCcNn cc nn) s = .next { s with cycles := s.config.cyc.jumps.jpCcNn.notTaken }) ∧
    exec .jpHl s = .next { s with pc := s.regs.h ++ s.regs.l, cycles := s.config.cyc.jumps.jpHl }

/-- `JR e`, `JR cc,e` (41_jumps_calls.md R163, R164): the target is `pc` after the offset byte plus the signed offset, modulo 2^16. -/
def Obligations.RelativeJumps : Prop :=
  (∀ e : Byte, SpelledBy (.jrE e) [0x18, e] ∧ SpelledBy (.jrCcE .nz e) [0x20, e] ∧ SpelledBy (.jrCcE .z e) [0x28, e] ∧
    SpelledBy (.jrCcE .nc e) [0x30, e] ∧ SpelledBy (.jrCcE .c e) [0x38, e]) ∧
  (defaultCycles.jumps.jrE = 12 ∧ defaultCycles.jumps.jrCcE = { taken := 12, notTaken := 8 }) ∧
  ∀ (s : State) (cc : Cond) (e : Byte),
    let target : Word := BitVec.ofInt 16 ((s.pc.toNat : Int) + e.toInt)
    exec (.jrE e) s = .next { s with pc := target, cycles := s.config.cyc.jumps.jrE } ∧
    (Taken cc s.flags → exec (.jrCcE cc e) s = .next { s with pc := target, cycles := s.config.cyc.jumps.jrCcE.taken }) ∧
    (¬Taken cc s.flags → exec (.jrCcE cc e) s = .next { s with cycles := s.config.cyc.jumps.jrCcE.notTaken })

/-- `CALL nn`, `CALL cc,nn`, `RST t` (41_jumps_calls.md R165, R166, R170): the address after the instruction is pushed, high byte
first. -/
def Obligations.CallsPushReturnAddress : Prop :=
  (∀ lo hi : Byte, SpelledBy (.callNn (hi ++ lo)) [0xCD, lo, hi] ∧ SpelledBy (.callCcNn .nz (hi ++ lo)) [0xC4, lo, hi] ∧
    SpelledBy (.callCcNn .z (hi ++ lo)) [0xCC, lo, hi] ∧ SpelledBy (.callCcNn .nc (hi ++ lo)) [0xD4, lo, hi] ∧
    SpelledBy (.callCcNn .c (hi ++ lo)) [0xDC, lo, hi]) ∧
  (∀ t : U3, SpelledBy (.rst t) [BitVec.ofNat 8 (0xC7 + 8 * t.val)]) ∧
  (defaultCycles.jumps.callNn = 24 ∧ defaultCycles.jumps.callCcNn = { taken := 24, notTaken := 12 } ∧
    defaultCycles.jumps.rst = 16) ∧
  ∀ (s : State) (cc : Cond) (nn : Word) (t : U3),
    let pushes (i : Instr) (target : Word) (cost : Nat) : Prop :=
      StoresPair i s (s.sp - 1) (s.pc.extractLsb' 8 8) (s.sp - 2) (s.pc.extractLsb' 0 8) fun u =>
        { u with sp := s.sp - 2, pc := target, cycles := cost }
    pushes (.callNn nn) nn s.config.cyc.jumps.callNn ∧
    (Taken cc s.flags → pushes (.callCcNn cc nn) nn s.config.cyc.jumps.callCcNn.taken) ∧
    (¬Taken cc s.flags → exec (.callCcNn cc nn) s = .next { s with cycles := s.config.cyc.jumps.callCcNn.notTaken }) ∧
    pushes (.rst t) (BitVec.ofNat 16 (8 * t.val)) s.config.cyc.jumps.rst

/-- RET, `RET cc`, RETI (41_jumps_calls.md R167, R168, R169): the low byte is popped first; RETI enables interrupts at once. -/
def Obligations.ReturnsPopAddress : Prop :=
  (SpelledBy .ret [0xC9] ∧ SpelledBy .reti [0xD9] ∧ SpelledBy (.retCc .nz) [0xC0] ∧ SpelledBy (.retCc .z) [0xC8] ∧
    SpelledBy (.retCc .nc) [0xD0] ∧ SpelledBy (.retCc .c) [0xD8]) ∧
  (defaultCycles.jumps.ret = 16 ∧ defaultCycles.jumps.retCc = { taken := 20, notTaken := 8 } ∧
    defaultCycles.jumps.reti = 16) ∧
  ∀ (s : State) (cc : Cond),
    LoadsPair .ret s s.sp (s.sp + 1)
      (fun lo hi => { s with sp := s.sp + 2, pc := hi ++ lo, cycles := s.config.cyc.jumps.ret }) ∧
    (Taken cc s.flags →
      LoadsPair (.retCc cc) s s.sp (s.sp + 1) fun lo hi =>
        { s with sp := s.sp + 2, pc := hi ++ lo, cycles := s.config.cyc.jumps.retCc.taken }) ∧
    (¬Taken cc s.flags → exec (.retCc cc) s = .next { s with cycles := s.config.cyc.jumps.retCc.notTaken }) ∧
    LoadsPair .reti s s.sp (s.sp + 1) fun lo hi =>
      { s with sp := s.sp + 2, pc := hi ++ lo, ime := true, eiPending := false, cycles := s.config.cyc.jumps.reti }

/-! ### 8-bit loads -/

/-- A write through a register selector reaches that register and no other, a read gives the register named, and a pair is its two
registers, high byte first (30_encoding.md R122, 10_state.md R22). -/
def Obligations.RegistersAndPairs : Prop :=
  ∀ (g : Regs) (r r' : Reg8) (v : Byte) (w : Word),
    (g.set r v).get r' = (if r' = r then v else g.get r') ∧
    g.get .b = g.b ∧ g.get .c = g.c ∧ g.get .d = g.d ∧ g.get .e = g.e ∧ g.get .h = g.h ∧ g.get .l = g.l ∧ g.get .a = g.a ∧
    g.bc.toNat = 256 * g.b.toNat + g.c.toNat ∧ g.de.toNat = 256 * g.d.toNat + g.e.toNat ∧
    g.hl.toNat = 256 * g.h.toNat + g.l.toNat ∧
    (g.setBc w).bc = w ∧ (g.setDe w).de = w ∧ (g.setHl w).hl = w ∧
    (∀ k, k ≠ .b → k ≠ .c → (g.setBc w).get k = g.get k) ∧ (∀ k, k ≠ .d → k ≠ .e → (g.setDe w).get k = g.get k) ∧
    (∀ k, k ≠ .h → k ≠ .l → (g.setHl w).get k = g.get k)

/-- `LD r,r'` and `LD r,n` (42_load8.md R181, R184). -/
def Obligations.RegisterLoads : Prop :=
  (∀ r r' : Reg8, SpelledBy (.ldRR r r') [BitVec.ofNat 8 (0x40 + 8 * (reg8Code r).val + (reg8Code r').val)]) ∧
  (∀ (r : Reg8) (n : Byte), SpelledBy (.ldRN r n) [BitVec.ofNat 8 (0x06 + 8 * (reg8Code r).val), n]) ∧
  (defaultCycles.load8.rr = 4 ∧ defaultCycles.load8.rn = 8) ∧
  ∀ (s : State) (r r' : Reg8) (n : Byte),
    exec (.ldRR r r') s = .next { s with regs := s.regs.set r (s.regs.get r'), cycles := s.config.cyc.load8.rr } ∧
    exec (.ldRN r n) s = .next { s with regs := s.regs.set r n, cycles := s.config.cyc.load8.rn }

/-- The eight loads from memory (42_load8.md R182, R187, R189, R192, R193, R196, R197, R199). -/
def Obligations.LoadsFromMemory : Prop :=
  ((∀ r : Reg8, SpelledBy (.ldRHl r) [BitVec.ofNat 8 (0x46 + 8 * (reg8Code r).val)]) ∧
    (∀ n : Byte, SpelledBy (.ldhAN n) [0xF0, n]) ∧ SpelledBy .ldAC [0xF2] ∧ SpelledBy .ldABc [0x0A] ∧
    SpelledBy .ldADe [0x1A] ∧ SpelledBy .ldAHli [0x2A] ∧ SpelledBy .ldAHld [0x3A] ∧
    ∀ lo hi : Byte, SpelledBy (.ldANn (hi ++ lo)) [0xFA, lo, hi]) ∧
  (defaultCycles.load8.rHl = 8 ∧ defaultCycles.load8.hAN = 12 ∧ defaultCycles.load8.aC = 8 ∧ defaultCycles.load8.aBc = 8 ∧
    defaultCycles.load8.aDe = 8 ∧ defaultCycles.load8.aHli = 8 ∧ defaultCycles.load8.aHld = 8 ∧
    defaultCycles.load8.aNn = 16) ∧
  ∀ (s : State) (r : Reg8) (n : Byte) (nn : Word),
    let toA (cost : Nat) (v : Byte) : State := { s with regs := { s.regs with a := v }, cycles := cost }
    LoadsFrom (.ldRHl r) s (s.regs.h ++ s.regs.l)
      (fun v => { s with regs := s.regs.set r v, cycles := s.config.cyc.load8.rHl }) ∧
    LoadsFrom (.ldhAN n) s (0xFF#8 ++ n) (toA s.config.cyc.load8.hAN) ∧
    LoadsFrom .ldAC s (0xFF#8 ++ s.regs.c) (toA s.config.cyc.load8.aC) ∧
    LoadsFrom .ldABc s (s.regs.b ++ s.regs.c) (toA s.config.cyc.load8.aBc) ∧
    LoadsFrom .ldADe s (s.regs.d ++ s.regs.e) (toA s.config.cyc.load8.aDe) ∧
    LoadsFrom .ldAHli s (s.regs.h ++ s.regs.l)
      (fun v => { s with
                  regs := { s.regs with a := v }.setHl ((s.regs.h ++ s.regs.l) + 1)
                  cycles := s.config.cyc.load8.aHli }) ∧
    LoadsFrom .ldAHld s (s.regs.h ++ s.regs.l)
      (fun v => { s with
                  regs := { s.regs with a := v }.setHl ((s.regs.h ++ s.regs.l) - 1)
                  cycles := s.config.cyc.load8.aHld }) ∧
    LoadsFrom (.ldANn nn) s nn (toA s.config.cyc.load8.aNn)

/-- The nine stores of one byte (42_load8.md R183, R185, R186, R188, R190, R191, R194, R195, R198). -/
def Obligations.StoresToMemory : Prop :=
  ((∀ r : Reg8, SpelledBy (.ldHlR r) [BitVec.ofNat 8 (0x70 + (reg8Code r).val)]) ∧
    (∀ n : Byte, SpelledBy (.ldHlN n) [0x36, n] ∧ SpelledBy (.ldhNA n) [0xE0, n]) ∧ SpelledBy .ldCA [0xE2] ∧
    SpelledBy .ldBcA [0x02] ∧ SpelledBy .ldDeA [0x12] ∧ SpelledBy .ldHliA [0x22] ∧ SpelledBy .ldHldA [0x32] ∧
    ∀ lo hi : Byte, SpelledBy (.ldNnA (hi ++ lo)) [0xEA, lo, hi]) ∧
  (defaultCycles.load8.hlR = 8 ∧ defaultCycles.load8.hlN = 12 ∧ defaultCycles.load8.hNA = 12 ∧ defaultCycles.load8.cA = 8 ∧
    defaultCycles.load8.bcA = 8 ∧ defaultCycles.load8.deA = 8 ∧ defaultCycles.load8.hliA = 8 ∧ defaultCycles.load8.hldA = 8 ∧
    defaultCycles.load8.nnA = 16) ∧
  ∀ (s : State) (r : Reg8) (n : Byte) (nn : Word),
    let costing (cost : Nat) (u : State) : State := { u with cycles := cost }
    StoresTo (.ldHlR r) s (s.regs.h ++ s.regs.l) (s.regs.get r) (costing s.config.cyc.load8.hlR) ∧
    StoresTo (.ldHlN n) s (s.regs.h ++ s.regs.l) n (costing s.config.cyc.load8.hlN) ∧
    StoresTo (.ldhNA n) s (0xFF#8 ++ n) s.regs.a (costing s.config.cyc.load8.hNA) ∧
    StoresTo .ldCA s (0xFF#8 ++ s.regs.c) s.regs.a (costing s.config.cyc.load8.cA) ∧
    StoresTo .ldBcA s (s.regs.b ++ s.regs.c) s.regs.a (costing s.config.cyc.load8.bcA) ∧
    StoresTo .ldDeA s (s.regs.d ++ s.regs.e) s.regs.a (costing s.config.cyc.load8.deA) ∧
    StoresTo .ldHliA s (s.regs.h ++ s.regs.l) s.regs.a
      (fun u => { u with regs := s.regs.setHl ((s.regs.h ++ s.regs.l) + 1), cycles := s.config.cyc.load8.hliA }) ∧
    StoresTo .ldHldA s (s.regs.h ++ s.regs.l) s.regs.a
      (fun u => { u with regs := s.regs.setHl ((s.regs.h ++ s.regs.l) - 1), cycles := s.config.cyc.load8.hldA }) ∧
    StoresTo (.ldNnA nn) s nn s.regs.a (costing s.config.cyc.load8.nnA)

/-! ### 16-bit loads and the stack -/

/-- `LD rr,nn` and `LD SP,HL` (43_load16.md R211, R216). -/
def Obligations.PairLoads : Prop :=
  (∀ lo hi : Byte, SpelledBy (.ldRrNn .bc (hi ++ lo)) [0x01, lo, hi] ∧ SpelledBy (.ldRrNn .de (hi ++ lo)) [0x11, lo, hi] ∧
    SpelledBy (.ldRrNn .hl (hi ++ lo)) [0x21, lo, hi] ∧ SpelledBy (.ldRrNn .sp (hi ++ lo)) [0x31, lo, hi]) ∧
  SpelledBy .ldSpHl [0xF9] ∧
  (defaultCycles.load16.rrNn = 12 ∧ defaultCycles.load16.spHl = 8) ∧
  ∀ (s : State) (lo hi : Byte),
    exec (.ldRrNn .bc (hi ++ lo)) s =
      .next { s with regs := { s.regs with b := hi, c := lo }, cycles := s.config.cyc.load16.rrNn } ∧
    exec (.ldRrNn .de (hi ++ lo)) s =
      .next { s with regs := { s.regs with d := hi, e := lo }, cycles := s.config.cyc.load16.rrNn } ∧
    exec (.ldRrNn .hl (hi ++ lo)) s =
      .next { s with regs := { s.regs with h := hi, l := lo }, cycles := s.config.cyc.load16.rrNn } ∧
    exec (.ldRrNn .sp (hi ++ lo)) s = .next { s with sp := hi ++ lo, cycles := s.config.cyc.load16.rrNn } ∧
    exec .ldSpHl s = .next { s with sp := s.regs.h ++ s.regs.l, cycles := s.config.cyc.load16.spHl }

/-- `LD (nn),SP` (43_load16.md R212): the low byte at `nn`, then the high byte at `nn + 1` modulo 2^16. -/
def Obligations.StoreStackPointer : Prop :=
  (∀ lo hi : Byte, SpelledBy (.ldNnSp (hi ++ lo)) [0x08, lo, hi]) ∧
  defaultCycles.load16.nnSp = 20 ∧
  ∀ (s : State) (nn : Word),
    StoresPair (.ldNnSp nn) s nn (s.sp.extractLsb' 0 8) (nn + 1) (s.sp.extractLsb' 8 8) fun u =>
      { u with cycles := s.config.cyc.load16.nnSp }

/-- `PUSH rr` (43_load16.md R213): the high register at `sp - 1`, then the low one at `sp - 2`; for AF the low byte is the flags
over `F_LOW`. -/
def Obligations.PushStoresPair : Prop :=
  (SpelledBy (.pushRr .bc) [0xC5] ∧ SpelledBy (.pushRr .de) [0xD5] ∧ SpelledBy (.pushRr .hl) [0xE5] ∧
    SpelledBy (.pushRr .af) [0xF5]) ∧
  defaultConfig.cycPush = 16 ∧
  ∀ s : State,
    let pushes (p : Stk16) (hi lo : Byte) : Prop :=
      StoresPair (.pushRr p) s (s.sp - 1) hi (s.sp - 2) lo fun u => { u with sp := s.sp - 2, cycles := s.config.cycPush }
    pushes .bc s.regs.b s.regs.c ∧ pushes .de s.regs.d s.regs.e ∧ pushes .hl s.regs.h s.regs.l ∧
    pushes .af s.regs.a
      (BitVec.ofNat 8 (s.flags.z.toNat * 0x80 + s.flags.n.toNat * 0x40 + s.flags.h.toNat * 0x20 + s.flags.c.toNat * 0x10 +
        s.config.fLow.toNat))

/-- `POP rr` (43_load16.md R214): the low register from `sp`, the high one from `sp + 1`; POP AF takes the flags from bits 7:4 and
discards bits 3:0. -/
def Obligations.PopLoadsPair : Prop :=
  (SpelledBy (.popRr .bc) [0xC1] ∧ SpelledBy (.popRr .de) [0xD1] ∧ SpelledBy (.popRr .hl) [0xE1] ∧
    SpelledBy (.popRr .af) [0xF1]) ∧
  defaultConfig.cycPop = 12 ∧
  ∀ s : State,
    let pops (p : Stk16) (regs : Byte → Byte → Regs) (flags : Byte → Flags) : Prop :=
      LoadsPair (.popRr p) s s.sp (s.sp + 1) fun lo hi =>
        { s with regs := regs lo hi, flags := flags lo, sp := s.sp + 2, cycles := s.config.cycPop }
    pops .bc (fun lo hi => { s.regs with b := hi, c := lo }) (fun _ => s.flags) ∧
    pops .de (fun lo hi => { s.regs with d := hi, e := lo }) (fun _ => s.flags) ∧
    pops .hl (fun lo hi => { s.regs with h := hi, l := lo }) (fun _ => s.flags) ∧
    pops .af (fun _ hi => { s.regs with a := hi })
      (fun lo => { z := lo.getLsbD 7, n := lo.getLsbD 6, h := lo.getLsbD 5, c := lo.getLsbD 4 })

/-- `LD HL,SP+e` and `ADD SP,e` (43_load16.md R215, 45_alu16.md R263): the signed sum, with the carries of the unsigned addition of
the offset byte to the low byte of `sp`. -/
def Obligations.StackPointerPlusOffset : Prop :=
  (∀ e : Byte, SpelledBy (.ldHlSpE e) [0xF8, e] ∧ SpelledBy (.addSpE e) [0xE8, e]) ∧
  (defaultCycles.load16.hlSpE = 12 ∧ defaultCycles.alu16.addSpE = 16) ∧
  ∀ (s : State) (e : Byte),
    let sum : Word := BitVec.ofInt 16 ((s.sp.toNat : Int) + e.toInt)
    let flags : Flags :=
      { z := false
        n := false
        h := decide (s.sp.toNat % 16 + e.toNat % 16 > 15)
        c := decide (s.sp.toNat % 256 + e.toNat > 255) }
    exec (.ldHlSpE e) s = .next { s with regs := s.regs.setHl sum, flags := flags, cycles := s.config.cyc.load16.hlSpE } ∧
    exec (.addSpE e) s = .next { s with sp := sum, flags := flags, cycles := s.config.cyc.alu16.addSpE }

/-- A value pushed onto a stack in work RAM or high RAM is the value popped next, and `sp` is back (43_load16.md R210). -/
def Obligations.PopReturnsPushedValue : Prop :=
  ∀ (s t : State) (v : Word), s.ram.Inv s.config →
    (0xC002 ≤ s.sp.toNat ∧ s.sp.toNat ≤ 0xFE00 ∨ 0xFF82 ≤ s.sp.toNat) → push16 v s = .ok t →
    ∃ u, pop16 t = .ok (v, u) ∧ u.sp = s.sp

/-! ### 8-bit arithmetic and logic -/

/-- ADD and ADC in their three forms (44_alu8.md R221, R222). -/
def Obligations.AdditionFamily : Prop :=
  (∀ (r : Reg8) (n : Byte), SpelledBy (.addAR r) [BitVec.ofNat 8 (0x80 + (reg8Code r).val)] ∧ SpelledBy .addAHl [0x86] ∧
    SpelledBy (.addAN n) [0xC6, n] ∧ SpelledBy (.adcAR r) [BitVec.ofNat 8 (0x88 + (reg8Code r).val)] ∧
    SpelledBy .adcAHl [0x8E] ∧ SpelledBy (.adcAN n) [0xCE, n]) ∧
  (defaultCycles.alu8.add = ⟨4, 8, 8⟩ ∧ defaultCycles.alu8.adc = ⟨4, 8, 8⟩) ∧
  ∀ (s : State) (r : Reg8) (n : Byte),
    let after (c : Bool) (cost : Nat) (v : Byte) : State :=
      let a := s.regs.a
      let sum := a.toNat + v.toNat + c.toNat
      { s with
        regs := { s.regs with a := a + v + BitVec.ofNat 8 c.toNat }
        flags :=
          { z := decide (sum = 0 ∨ sum = 256)
            n := false
            h := decide (a.toNat % 16 + v.toNat % 16 + c.toNat > 15)
            c := decide (sum > 255) }
        cycles := cost }
    exec (.addAR r) s = .next (after false s.config.cyc.alu8.add.r (s.regs.get r)) ∧
    LoadsFrom .addAHl s (s.regs.h ++ s.regs.l) (after false s.config.cyc.alu8.add.hl) ∧
    exec (.addAN n) s = .next (after false s.config.cyc.alu8.add.n n) ∧
    exec (.adcAR r) s = .next (after s.flags.c s.config.cyc.alu8.adc.r (s.regs.get r)) ∧
    LoadsFrom .adcAHl s (s.regs.h ++ s.regs.l) (after s.flags.c s.config.cyc.alu8.adc.hl) ∧
    exec (.adcAN n) s = .next (after s.flags.c s.config.cyc.alu8.adc.n n)

/-- SUB, SBC and CP in their three forms (44_alu8.md R223, R224, R228). -/
def Obligations.SubtractionFamily : Prop :=
  (∀ (r : Reg8) (n : Byte), SpelledBy (.subAR r) [BitVec.ofNat 8 (0x90 + (reg8Code r).val)] ∧ SpelledBy .subAHl [0x96] ∧
    SpelledBy (.subAN n) [0xD6, n] ∧ SpelledBy (.sbcAR r) [BitVec.ofNat 8 (0x98 + (reg8Code r).val)] ∧
    SpelledBy .sbcAHl [0x9E] ∧ SpelledBy (.sbcAN n) [0xDE, n] ∧
    SpelledBy (.cpAR r) [BitVec.ofNat 8 (0xB8 + (reg8Code r).val)] ∧ SpelledBy .cpAHl [0xBE] ∧
    SpelledBy (.cpAN n) [0xFE, n]) ∧
  (defaultCycles.alu8.sub = ⟨4, 8, 8⟩ ∧ defaultCycles.alu8.sbc = ⟨4, 8, 8⟩ ∧ defaultCycles.alu8.cp = ⟨4, 8, 8⟩) ∧
  ∀ (s : State) (r : Reg8) (n : Byte),
    let flags (c : Bool) (v : Byte) : Flags :=
      { z := decide (s.regs.a = v + BitVec.ofNat 8 c.toNat)
        n := true
        h := decide (s.regs.a.toNat % 16 < v.toNat % 16 + c.toNat)
        c := decide (s.regs.a.toNat < v.toNat + c.toNat) }
    let after (c : Bool) (cost : Nat) (v : Byte) : State :=
      { s with regs := { s.regs with a := s.regs.a - v - BitVec.ofNat 8 c.toNat }, flags := flags c v, cycles := cost }
    let compared (cost : Nat) (v : Byte) : State := { s with flags := flags false v, cycles := cost }
    exec (.subAR r) s = .next (after false s.config.cyc.alu8.sub.r (s.regs.get r)) ∧
    LoadsFrom .subAHl s (s.regs.h ++ s.regs.l) (after false s.config.cyc.alu8.sub.hl) ∧
    exec (.subAN n) s = .next (after false s.config.cyc.alu8.sub.n n) ∧
    exec (.sbcAR r) s = .next (after s.flags.c s.config.cyc.alu8.sbc.r (s.regs.get r)) ∧
    LoadsFrom .sbcAHl s (s.regs.h ++ s.regs.l) (after s.flags.c s.config.cyc.alu8.sbc.hl) ∧
    exec (.sbcAN n) s = .next (after s.flags.c s.config.cyc.alu8.sbc.n n) ∧
    exec (.cpAR r) s = .next (compared s.config.cyc.alu8.cp.r (s.regs.get r)) ∧
    LoadsFrom .cpAHl s (s.regs.h ++ s.regs.l) (compared s.config.cyc.alu8.cp.hl) ∧
    exec (.cpAN n) s = .next (compared s.config.cyc.alu8.cp.n n)

/-- AND, XOR and OR in their three forms (44_alu8.md R225, R226, R227). -/
def Obligations.LogicFamily : Prop :=
  (∀ (r : Reg8) (n : Byte), SpelledBy (.andAR r) [BitVec.ofNat 8 (0xA0 + (reg8Code r).val)] ∧ SpelledBy .andAHl [0xA6] ∧
    SpelledBy (.andAN n) [0xE6, n] ∧ SpelledBy (.xorAR r) [BitVec.ofNat 8 (0xA8 + (reg8Code r).val)] ∧
    SpelledBy .xorAHl [0xAE] ∧ SpelledBy (.xorAN n) [0xEE, n] ∧
    SpelledBy (.orAR r) [BitVec.ofNat 8 (0xB0 + (reg8Code r).val)] ∧ SpelledBy .orAHl [0xB6] ∧
    SpelledBy (.orAN n) [0xF6, n]) ∧
  (defaultCycles.alu8.and = ⟨4, 8, 8⟩ ∧ defaultCycles.alu8.xor = ⟨4, 8, 8⟩ ∧ defaultCycles.alu8.or = ⟨4, 8, 8⟩) ∧
  ∀ (s : State) (r : Reg8) (n : Byte),
    let after (result : Byte) (half : Bool) (cost : Nat) : State :=
      { s with
        regs := { s.regs with a := result }
        flags := { z := decide (result = 0), n := false, h := half, c := false }
        cycles := cost }
    let a := s.regs.a
    exec (.andAR r) s = .next (after (a &&& s.regs.get r) true s.config.cyc.alu8.and.r) ∧
    LoadsFrom .andAHl s (s.regs.h ++ s.regs.l) (fun v => after (a &&& v) true s.config.cyc.alu8.and.hl) ∧
    exec (.andAN n) s = .next (after (a &&& n) true s.config.cyc.alu8.and.n) ∧
    exec (.xorAR r) s = .next (after (a ^^^ s.regs.get r) false s.config.cyc.alu8.xor.r) ∧
    LoadsFrom .xorAHl s (s.regs.h ++ s.regs.l) (fun v => after (a ^^^ v) false s.config.cyc.alu8.xor.hl) ∧
    exec (.xorAN n) s = .next (after (a ^^^ n) false s.config.cyc.alu8.xor.n) ∧
    exec (.orAR r) s = .next (after (a ||| s.regs.get r) false s.config.cyc.alu8.or.r) ∧
    LoadsFrom .orAHl s (s.regs.h ++ s.regs.l) (fun v => after (a ||| v) false s.config.cyc.alu8.or.hl) ∧
    exec (.orAN n) s = .next (after (a ||| n) false s.config.cyc.alu8.or.n)

/-- INC and DEC of a register or of the byte at HL (44_alu8.md R229, R230): Carry is not written. -/
def Obligations.IncrementDecrement : Prop :=
  (∀ r : Reg8, SpelledBy (.incR r) [BitVec.ofNat 8 (0x04 + 8 * (reg8Code r).val)] ∧ SpelledBy .incHl [0x34] ∧
    SpelledBy (.decR r) [BitVec.ofNat 8 (0x05 + 8 * (reg8Code r).val)] ∧ SpelledBy .decHl [0x35]) ∧
  (defaultCycles.alu8.inc = ⟨4, 12⟩ ∧ defaultCycles.alu8.dec = ⟨4, 12⟩) ∧
  ∀ (s : State) (r : Reg8),
    let up (v : Byte) : Flags := { s.flags with z := decide (v = 0xFF), n := false, h := decide (v.toNat % 16 = 15) }
    let down (v : Byte) : Flags := { s.flags with z := decide (v = 1), n := true, h := decide (v.toNat % 16 = 0) }
    let v := s.regs.get r
    exec (.incR r) s = .next { s with regs := s.regs.set r (v + 1), flags := up v, cycles := s.config.cyc.alu8.inc.r } ∧
    exec (.decR r) s = .next { s with regs := s.regs.set r (v - 1), flags := down v, cycles := s.config.cyc.alu8.dec.r } ∧
    Rewrites .incHl s (s.regs.h ++ s.regs.l) (· + 1) (fun v u => { u with flags := up v, cycles := s.config.cyc.alu8.inc.hl }) ∧
    Rewrites .decHl s (s.regs.h ++ s.regs.l) (· - 1) (fun v u => { u with flags := down v, cycles := s.config.cyc.alu8.dec.hl })

/-- CPL, SCF and CCF (44_alu8.md R231, R233, R234). -/
def Obligations.ComplementAndCarryFlag : Prop :=
  (SpelledBy .cpl [0x2F] ∧ SpelledBy .scf [0x37] ∧ SpelledBy .ccf [0x3F]) ∧
  (defaultCycles.alu8.cpl = 4 ∧ defaultCycles.alu8.scf = 4 ∧ defaultCycles.alu8.ccf = 4) ∧
  ∀ s : State,
    exec .cpl s =
      .next { s with
              regs := { s.regs with a := ~~~s.regs.a }
              flags := { s.flags with n := true, h := true }
              cycles := s.config.cyc.alu8.cpl } ∧
    exec .scf s =
      .next { s with flags := { s.flags with n := false, h := false, c := true }, cycles := s.config.cyc.alu8.scf } ∧
    exec .ccf s =
      .next { s with flags := { s.flags with n := false, h := false, c := !s.flags.c }, cycles := s.config.cyc.alu8.ccf }

/-- DAA (44_alu8.md R232): Subtract is not written. -/
def Obligations.DecimalAdjust : Prop :=
  SpelledBy .daa [0x27] ∧ defaultCycles.alu8.daa = 4 ∧
  ∀ s : State,
    let a := s.regs.a
    let f := s.flags
    let low : Bool := f.h || (!f.n && decide (a.toNat % 16 > 9))
    let high : Bool := f.c || (!f.n && decide (a.toNat > 0x99))
    let adj : Nat := 6 * low.toNat + 96 * high.toNat
    let r : Byte := if f.n then BitVec.ofInt 8 ((a.toNat : Int) - adj) else BitVec.ofNat 8 (a.toNat + adj)
    exec .daa s = .next
      { s with
        regs := { s.regs with a := r }
        flags := { z := decide (r = 0), n := f.n, h := false, c := high }
        cycles := s.config.cyc.alu8.daa }

/-- After an addition or a subtraction of two packed-BCD bytes, DAA leaves the packed-BCD sum or difference modulo 100, with Carry
set exactly when it left that range (44_alu8.md R221, R223, R232). -/
def Obligations.DaaCorrectsBcd : Prop :=
  ∀ (s : State) (n : Byte),
    let bcd (v : Byte) : Prop := v.toNat % 16 ≤ 9 ∧ v.toNat / 16 ≤ 9
    let value (v : Byte) : Nat := 10 * (v.toNat / 16) + v.toNat % 16
    bcd s.regs.a → bcd n →
      (∃ t u, exec (.addAN n) s = .next t ∧ exec .daa t = .next u ∧ bcd u.regs.a ∧
        value u.regs.a = (value s.regs.a + value n) % 100 ∧ u.flags.c = decide (value s.regs.a + value n ≥ 100)) ∧
      ∃ t u, exec (.subAN n) s = .next t ∧ exec .daa t = .next u ∧ bcd u.regs.a ∧
        value u.regs.a = (value s.regs.a + 100 - value n) % 100 ∧ u.flags.c = decide (value s.regs.a < value n)

/-! ### 16-bit arithmetic -/

/-- `INC rr`, `DEC rr`, `ADD HL,rr` (45_alu16.md R260, R261, R262). -/
def Obligations.PairArithmetic : Prop :=
  (∀ p : Reg16, SpelledBy (.incRr p) [BitVec.ofNat 8 (0x03 + 16 * (reg16Code p).val)] ∧
    SpelledBy (.decRr p) [BitVec.ofNat 8 (0x0B + 16 * (reg16Code p).val)] ∧
    SpelledBy (.addHlRr p) [BitVec.ofNat 8 (0x09 + 16 * (reg16Code p).val)]) ∧
  (defaultCycles.alu16.incRr = 8 ∧ defaultCycles.alu16.decRr = 8 ∧ defaultCycles.alu16.addHlRr = 8) ∧
  ∀ s : State,
    let hl : Word := s.regs.h ++ s.regs.l
    let adds (p : Reg16) (v : Word) : Prop :=
      exec (.addHlRr p) s = .next
        { s with
          regs := s.regs.setHl (hl + v)
          flags :=
            { s.flags with
              n := false
              h := decide (hl.toNat % 4096 + v.toNat % 4096 ≥ 4096)
              c := decide (hl.toNat + v.toNat ≥ 65536) }
          cycles := s.config.cyc.alu16.addHlRr }
    let bc : Word := s.regs.b ++ s.regs.c
    let de : Word := s.regs.d ++ s.regs.e
    exec (.incRr .bc) s = .next { s with regs := s.regs.setBc (bc + 1), cycles := s.config.cyc.alu16.incRr } ∧
    exec (.incRr .de) s = .next { s with regs := s.regs.setDe (de + 1), cycles := s.config.cyc.alu16.incRr } ∧
    exec (.incRr .hl) s = .next { s with regs := s.regs.setHl (hl + 1), cycles := s.config.cyc.alu16.incRr } ∧
    exec (.incRr .sp) s = .next { s with sp := s.sp + 1, cycles := s.config.cyc.alu16.incRr } ∧
    exec (.decRr .bc) s = .next { s with regs := s.regs.setBc (bc - 1), cycles := s.config.cyc.alu16.decRr } ∧
    exec (.decRr .de) s = .next { s with regs := s.regs.setDe (de - 1), cycles := s.config.cyc.alu16.decRr } ∧
    exec (.decRr .hl) s = .next { s with regs := s.regs.setHl (hl - 1), cycles := s.config.cyc.alu16.decRr } ∧
    exec (.decRr .sp) s = .next { s with sp := s.sp - 1, cycles := s.config.cyc.alu16.decRr } ∧
    adds .bc bc ∧ adds .de de ∧ adds .hl hl ∧ adds .sp s.sp

/-! ### Rotates, shifts, bits -/

/-- RLCA, RLA, RRCA, RRA (46_rotate_shift_bit.md R270 to R273): Zero is cleared whatever the result. -/
def Obligations.AccumulatorRotates : Prop :=
  (SpelledBy .rlca [0x07] ∧ SpelledBy .rla [0x17] ∧ SpelledBy .rrca [0x0F] ∧ SpelledBy .rra [0x1F]) ∧
  (defaultCycles.bits.rlca = 4 ∧ defaultCycles.bits.rla = 4 ∧ defaultCycles.bits.rrca = 4 ∧ defaultCycles.bits.rra = 4) ∧
  ∀ s : State,
    let a := s.regs.a
    let after (r : Byte) (out : Bool) (cost : Nat) : State :=
      { s with regs := { s.regs with a := r }, flags := { z := false, n := false, h := false, c := out }, cycles := cost }
    exec .rlca s = .next (after (a.rotateLeft 1) a.msb s.config.cyc.bits.rlca) ∧
    exec .rla s = .next (after ((a <<< 1) ||| BitVec.ofNat 8 s.flags.c.toNat) a.msb s.config.cyc.bits.rla) ∧
    exec .rrca s = .next (after (a.rotateRight 1) (a.getLsbD 0) s.config.cyc.bits.rrca) ∧
    exec .rra s = .next (after ((a >>> 1) ||| BitVec.ofNat 8 (128 * s.flags.c.toNat)) (a.getLsbD 0) s.config.cyc.bits.rra)

/-- The eight rotates and shifts of the prefixed table on a register or on the byte at HL (46_rotate_shift_bit.md R275 to R282),
with the flags and costs of R274. -/
def Obligations.PrefixedRotates : Prop :=
  (defaultCycles.bits.rlc = ⟨8, 16⟩ ∧ defaultCycles.bits.rrc = ⟨8, 16⟩ ∧ defaultCycles.bits.rl = ⟨8, 16⟩ ∧
    defaultCycles.bits.rr = ⟨8, 16⟩ ∧ defaultCycles.bits.sla = ⟨8, 16⟩ ∧ defaultCycles.bits.sra = ⟨8, 16⟩ ∧
    defaultCycles.bits.swap = ⟨8, 16⟩ ∧ defaultCycles.bits.srl = ⟨8, 16⟩) ∧
  ∀ (s : State) (r : Reg8),
    let c : Nat := s.flags.c.toNat
    let rotates (y : Nat) (cost : PlaceCosts) (onReg onHl : Instr) (result : Byte → Byte) (out : Byte → Bool) : Prop :=
      let flags (v : Byte) : Flags := { z := decide (result v = 0), n := false, h := false, c := out v }
      SpelledBy onReg [0xCB, BitVec.ofNat 8 (8 * y + (reg8Code r).val)] ∧ SpelledBy onHl [0xCB, BitVec.ofNat 8 (8 * y + 6)] ∧
      exec onReg s = .next
        { s with regs := s.regs.set r (result (s.regs.get r)), flags := flags (s.regs.get r), cycles := cost.r } ∧
      Rewrites onHl s (s.regs.h ++ s.regs.l) result (fun v u => { u with flags := flags v, cycles := cost.hl })
    rotates 0 s.config.cyc.bits.rlc (.rlcR r) .rlcHl (·.rotateLeft 1) (·.msb) ∧
    rotates 1 s.config.cyc.bits.rrc (.rrcR r) .rrcHl (·.rotateRight 1) (·.getLsbD 0) ∧
    rotates 2 s.config.cyc.bits.rl (.rlR r) .rlHl (fun v => (v <<< 1) ||| BitVec.ofNat 8 c) (·.msb) ∧
    rotates 3 s.config.cyc.bits.rr (.rrR r) .rrHl (fun v => (v >>> 1) ||| BitVec.ofNat 8 (128 * c)) (·.getLsbD 0) ∧
    rotates 4 s.config.cyc.bits.sla (.slaR r) .slaHl (· <<< 1) (·.msb) ∧
    rotates 5 s.config.cyc.bits.sra (.sraR r) .sraHl (·.sshiftRight 1) (·.getLsbD 0) ∧
    rotates 6 s.config.cyc.bits.swap (.swapR r) .swapHl (·.rotateLeft 4) (fun _ => false) ∧
    rotates 7 s.config.cyc.bits.srl (.srlR r) .srlHl (· >>> 1) (·.getLsbD 0)

/-- BIT, RES and SET on a register or on the byte at HL (46_rotate_shift_bit.md R283 to R285): BIT writes nothing back and leaves
Carry, RES and SET write no flag. -/
def Obligations.BitOperations : Prop :=
  (defaultCycles.bits.bitR = 8 ∧ defaultCycles.bits.res = ⟨8, 16⟩ ∧ defaultCycles.bits.set = ⟨8, 16⟩ ∧
    defaultConfig.cycBitHl = 16) ∧
  ∀ (s : State) (b : U3) (r : Reg8),
    let spelled (base : Nat) (onReg onHl : Instr) : Prop :=
      SpelledBy onReg [0xCB, BitVec.ofNat 8 (base + 8 * b.val + (reg8Code r).val)] ∧
      SpelledBy onHl [0xCB, BitVec.ofNat 8 (base + 8 * b.val + 6)]
    let tested (cost : Nat) (v : Byte) : State :=
      { s with flags := { s.flags with z := decide (v.toNat / 2 ^ b.val % 2 = 0), n := false, h := true }, cycles := cost }
    let cleared (v : Byte) : Byte := BitVec.ofNat 8 (v.toNat - 2 ^ b.val * (v.toNat / 2 ^ b.val % 2))
    let raised (v : Byte) : Byte := BitVec.ofNat 8 (v.toNat + 2 ^ b.val * (1 - v.toNat / 2 ^ b.val % 2))
    let v := s.regs.get r
    spelled 0x40 (.bitR b r) (.bitHl b) ∧ spelled 0x80 (.resR b r) (.resHl b) ∧ spelled 0xC0 (.setR b r) (.setHl b) ∧
    exec (.bitR b r) s = .next (tested s.config.cyc.bits.bitR v) ∧
    LoadsFrom (.bitHl b) s (s.regs.h ++ s.regs.l) (tested s.config.cycBitHl) ∧
    exec (.resR b r) s = .next { s with regs := s.regs.set r (cleared v), cycles := s.config.cyc.bits.res.r } ∧
    Rewrites (.resHl b) s (s.regs.h ++ s.regs.l) cleared (fun _ u => { u with cycles := s.config.cyc.bits.res.hl }) ∧
    exec (.setR b r) s = .next { s with regs := s.regs.set r (raised v), cycles := s.config.cyc.bits.set.r } ∧
    Rewrites (.setHl b) s (s.regs.h ++ s.regs.l) raised (fun _ u => { u with cycles := s.config.cyc.bits.set.hl })

/-! ### The bus -/

/-- A read or a write of one byte answers exactly where the address has an owner that answers; elsewhere it is fatal, with the
address and the kind of access (20_memory.md R52, R53, R57). Which of the addresses 0xFF80 to 0xFFFE have an owner that answers when
`HRAM_SIZE` is not 127 is the model's choice (log 20), not those rules'. -/
def Obligations.AccessAnswersIffMapped : Prop :=
  ∀ (s : State) (a : Word) (v : Byte),
    (Mapped s a ↔ ∃ x, memRead s a = .ok x) ∧ (Mapped s a ↔ ∃ t, memWrite s a v = .ok t) ∧
    (¬Mapped s a → memRead s a = .error (.unmappedAddress a .read) ∧ memWrite s a v = .error (.unmappedAddress a .write))

/-- The read column of the address map outside the cartridge and the display window (20_memory.md R57, R59 to R67). The high-RAM
clause follows these rules for `HRAM_SIZE` = 127; for every other value it is the model's choice (log 20): above a shorter block an
access is fatal, and a longer one still ends at 0xFFFE. -/
def Obligations.ReadsFollowAddressMap : Prop :=
  ∀ (s : State) (a : Word),
    let n := a.toNat
    let fatal := memRead s a = .error (.unmappedAddress a .read)
    (0x8000 ≤ n → n ≤ 0x9FFF → if s.config.mapVideoRam then memRead s a = .ok (s.ram.vram.read (n - 0x8000)) else fatal) ∧
    (0xC000 ≤ n → n ≤ 0xCFFF → memRead s a = .ok (s.ram.wram0.read (n - 0xC000))) ∧
    (0xD000 ≤ n → n ≤ 0xDFFF → memRead s a = .ok (s.ram.wram1.read (n - 0xD000))) ∧
    (0xE000 ≤ n → n ≤ 0xFDFF → memRead s a = memRead s (a - 0x2000)) ∧
    (0xFE00 ≤ n → n ≤ 0xFE9F → if s.config.mapVideoRam then memRead s a = .ok (s.ram.oam.read (n - 0xFE00)) else fatal) ∧
    (0xFEA0 ≤ n → n ≤ 0xFF0E → fatal) ∧
    (n = 0xFF0F → memRead s a = .ok (BitVec.ofNat 8 (0xE0 + s.irq.toNat))) ∧
    (0xFF10 ≤ n → n ≤ 0xFF3F → fatal) ∧
    (n = 0xFF46 ∨ 0xFF4C ≤ n ∧ n ≤ 0xFF7F → fatal) ∧
    (0xFF80 ≤ n → n ≤ 0xFFFE →
      if n < 0xFF80 + s.config.hramSize then memRead s a = .ok (s.ram.hram.read (n - 0xFF80)) else fatal) ∧
    (n = 0xFFFF → memRead s a = .ok s.ie)

/-- The write column of the address map outside the cartridge and the display window, each as the state after it: nothing but the
cell or the register named changes (20_memory.md R57, R59 to R67). The high-RAM clause follows these rules for `HRAM_SIZE` = 127; for
every other value it is the model's choice (log 20): above a shorter block an access is fatal, and a longer one still ends at
0xFFFE. -/
def Obligations.WritesFollowAddressMap : Prop :=
  ∀ (s : State) (a : Word) (v : Byte),
    let n := a.toNat
    let fatal := memWrite s a v = .error (.unmappedAddress a .write)
    (0x8000 ≤ n → n ≤ 0x9FFF →
      if s.config.mapVideoRam then
        memWrite s a v = .ok { s with ram := { s.ram with vram := s.ram.vram.write (n - 0x8000) v } }
      else fatal) ∧
    (0xC000 ≤ n → n ≤ 0xCFFF → memWrite s a v = .ok { s with ram := { s.ram with wram0 := s.ram.wram0.write (n - 0xC000) v } }) ∧
    (0xD000 ≤ n → n ≤ 0xDFFF → memWrite s a v = .ok { s with ram := { s.ram with wram1 := s.ram.wram1.write (n - 0xD000) v } }) ∧
    (0xE000 ≤ n → n ≤ 0xFDFF → memWrite s a v = memWrite s (a - 0x2000) v) ∧
    (0xFE00 ≤ n → n ≤ 0xFE9F →
      if s.config.mapVideoRam then memWrite s a v = .ok { s with ram := { s.ram with oam := s.ram.oam.write (n - 0xFE00) v } }
      else fatal) ∧
    (0xFEA0 ≤ n → n ≤ 0xFF0E → fatal) ∧
    (n = 0xFF0F → memWrite s a v = .ok { s with irq := v.setWidth 5 }) ∧
    (0xFF10 ≤ n → n ≤ 0xFF3F → fatal) ∧
    (n = 0xFF46 ∨ 0xFF4C ≤ n ∧ n ≤ 0xFF7F → fatal) ∧
    (0xFF80 ≤ n → n ≤ 0xFFFE →
      if n < 0xFF80 + s.config.hramSize then
        memWrite s a v = .ok { s with ram := { s.ram with hram := s.ram.hram.write (n - 0xFF80) v } }
      else fatal) ∧
    (n = 0xFFFF → memWrite s a v = .ok { s with ie := v })

/-- A byte stored in work RAM is read back at its address and at the mirror of it, whichever of the two it was stored through; a
byte stored in high RAM is read back (20_memory.md R59, R60, R67). -/
def Obligations.StoredByteReadsBack : Prop :=
  ∀ (s t : State) (a : Word) (v : Byte), s.ram.Inv s.config →
    (0xC000 ≤ a.toNat → a.toNat ≤ 0xDDFF →
      (memWrite s a v = .ok t ∨ memWrite s (a + 0x2000) v = .ok t) → memRead t a = .ok v ∧ memRead t (a + 0x2000) = .ok v) ∧
    (0xDE00 ≤ a.toNat → a.toNat ≤ 0xDFFF → memWrite s a v = .ok t → memRead t a = .ok v) ∧
    (0xFF80 ≤ a.toNat → a.toNat ≤ 0xFFFE → memWrite s a v = .ok t → memRead t a = .ok v)

/-! ### The cartridge -/

/-- Without a controller the image is a flat read-only mapping, the RAM window reads 0xFF, and a write in either range changes
nothing (21_cartridge_mbc1.md R93). -/
def Obligations.NoControllerIsFlatRom : Prop :=
  ∀ (s : State) (a : Word) (v : Byte), s.cart.variant = .noController →
    (a.toNat ≤ 0x7FFF → memRead s a = .ok (s.cart.rom.read a.toNat) ∧ memWrite s a v = .ok s) ∧
    (0xA000 ≤ a.toNat → a.toNat ≤ 0xBFFF → memRead s a = .ok 0xFF ∧ memWrite s a v = .ok s)

/-- The MBC1 latch map (21_cartridge_mbc1.md R94 to R97): which latch a store to the ROM range loads, and with what. -/
def Obligations.Mbc1StoresLoadLatches : Prop :=
  ∀ (s : State) (a : Word) (v : Byte), s.cart.variant = .mbc1 →
    let b := v.toNat % 32
    (a.toNat ≤ 0x1FFF → memWrite s a v = .ok { s with cart := { s.cart with ramEn := decide (v.toNat % 16 = 10) } }) ∧
    (0x2000 ≤ a.toNat → a.toNat ≤ 0x3FFF →
      memWrite s a v = .ok { s with cart := { s.cart with bankLo := if b = 0 then 1 else BitVec.ofNat 5 b } }) ∧
    (0x4000 ≤ a.toNat → a.toNat ≤ 0x5FFF →
      memWrite s a v = .ok { s with cart := { s.cart with bankHi := BitVec.ofNat 2 (v.toNat % 4) } }) ∧
    (0x6000 ≤ a.toNat → a.toNat ≤ 0x7FFF →
      memWrite s a v =
        .ok { s with cart := { s.cart with mode := if v.toNat % 2 = 1 then .ramBanking else .simpleRom } })

/-- The MBC1 ROM translation (21_cartridge_mbc1.md R98, R99): bank 0 below 0x4000, the selected bank above, in both modes, always
inside the image. -/
def Obligations.Mbc1RomTranslation : Prop :=
  ∀ (s : State) (a : Word), s.cart.variant = .mbc1 →
    let bank := (s.cart.bankHi.toNat * 32 + s.cart.bankLo.toNat) % s.cart.banks
    (a.toNat ≤ 0x3FFF → memRead s a = .ok (s.cart.rom.read a.toNat)) ∧
    (0x4000 ≤ a.toNat → a.toNat ≤ 0x7FFF →
      memRead s a = .ok (s.cart.rom.read (bank * 16384 + (a.toNat - 0x4000))) ∧
      (s.cart.Inv s.config → bank * 16384 + (a.toNat - 0x4000) < s.cart.banks * 16384))

/-- The MBC1 RAM window (21_cartridge_mbc1.md R100 to R102): open bus and no effect while disabled or absent, else the byte of the
selected bank, modulo the RAM's length. -/
def Obligations.Mbc1RamWindow : Prop :=
  defaultConfig.ramBankSize = 8192 ∧
  ∀ (s : State) (a : Word) (v : Byte), s.cart.variant = .mbc1 → 0xA000 ≤ a.toNat → a.toNat ≤ 0xBFFF →
    let bank := if s.cart.mode = .ramBanking then s.cart.bankHi.toNat else 0
    let k := (bank * s.config.ramBankSize + (a.toNat - 0xA000)) % s.cart.ramSize
    (s.cart.ramEn = false ∨ s.cart.ramSize = 0 → memRead s a = .ok 0xFF ∧ memWrite s a v = .ok s) ∧
    (s.cart.ramEn = true → 0 < s.cart.ramSize →
      memRead s a = .ok (s.cart.ram.read k) ∧
      memWrite s a v = .ok { s with cart := { s.cart with ram := s.cart.ram.write k v } })

/-! ### The display-timing controller -/

/-- The display registers (61_display_timing.md R348 to R351): nine plain bytes; STAT with its derived low bits; LY, derived, whose
write restarts the counter. -/
def Obligations.DisplayRegisters : Prop :=
  ∀ (s : State) (v : Byte),
    (memRead s 0xFF40 = .ok s.lcd.lcdc ∧ memWrite s 0xFF40 v = .ok { s with lcd := { s.lcd with lcdc := v } }) ∧
    (memRead s 0xFF42 = .ok s.lcd.scy ∧ memWrite s 0xFF42 v = .ok { s with lcd := { s.lcd with scy := v } }) ∧
    (memRead s 0xFF43 = .ok s.lcd.scx ∧ memWrite s 0xFF43 v = .ok { s with lcd := { s.lcd with scx := v } }) ∧
    (memRead s 0xFF45 = .ok s.lcd.lyc ∧ memWrite s 0xFF45 v = .ok { s with lcd := { s.lcd with lyc := v } }) ∧
    (memRead s 0xFF47 = .ok s.lcd.bgp ∧ memWrite s 0xFF47 v = .ok { s with lcd := { s.lcd with bgp := v } }) ∧
    (memRead s 0xFF48 = .ok s.lcd.obp0 ∧ memWrite s 0xFF48 v = .ok { s with lcd := { s.lcd with obp0 := v } }) ∧
    (memRead s 0xFF49 = .ok s.lcd.obp1 ∧ memWrite s 0xFF49 v = .ok { s with lcd := { s.lcd with obp1 := v } }) ∧
    (memRead s 0xFF4A = .ok s.lcd.wy ∧ memWrite s 0xFF4A v = .ok { s with lcd := { s.lcd with wy := v } }) ∧
    (memRead s 0xFF4B = .ok s.lcd.wx ∧ memWrite s 0xFF4B v = .ok { s with lcd := { s.lcd with wx := v } }) ∧
    memRead s 0xFF44 = .ok (BitVec.ofNat 8 (s.dot / 456)) ∧ memWrite s 0xFF44 v = .ok { s with dot := 0 } ∧
    memWrite s 0xFF41 v = .ok { s with lcd := { s.lcd with stat := BitVec.ofNat 5 (v.toNat / 8) } } ∧
    memRead s 0xFF41 = .ok (BitVec.ofNat 8 (8 * s.lcd.stat.toNat + (if s.dot / 456 = s.lcd.lyc.toNat then 4 else 0) +
      (if 65664 ≤ s.dot then 1 else if s.dot % 456 < 80 then 2 else if s.dot % 456 < 252 then 3 else 0)))

/-- The timeline of one frame (61_display_timing.md R346): the scanline is `dot / 456` throughout, vertical blank included. -/
def Obligations.FrameTimeline : Prop :=
  (∀ n x : Nat, n ≤ 143 → x ≤ 455 →
    scanline (456 * n + x) = n ∧
    (x ≤ 79 → lcdMode (456 * n + x) = .oamScan) ∧
    (80 ≤ x → x ≤ 251 → lcdMode (456 * n + x) = .drawingPixels) ∧
    (252 ≤ x → lcdMode (456 * n + x) = .horizontalBlank)) ∧
  ∀ d : Nat, 65664 ≤ d → d ≤ 70223 → lcdMode d = .verticalBlank ∧ scanline d = d / 456 ∧ 144 ≤ scanline d ∧ scanline d ≤ 153

/-- Exactly one VerticalBlank request for each passage of dot 65664: over any succession of advances of at most 24 dots (what one
machine step costs at most), the number of requests is the number of frames whose dot 65664 lies in the time passed
(61_display_timing.md R344, R345). -/
def Obligations.OneVblankRequestPerFrame : Prop :=
  ∀ (dot : Nat) (costs : List Nat), dot < 70224 → (∀ c ∈ costs, c ≤ 24) →
    vblankRequests dot costs = (dot + costs.sum + 4560) / 70224 - (dot + 4560) / 70224

/-! ### Load and reset -/

/-- What is fatal at load time (21_cartridge_mbc1.md R90, R91, R92; 60_exceptions.md R301): a missing image, an illegal length, an
unrecognised controller type, and, with a controller, an unrecognised RAM-size code. Everything else boots. Two clauses are the
model's choice: that a launch without an image is `imageIoFailure` (log 13; by R301 a model that receives `ROM` as bytes never
raises that kind), and that an illegal length is reported before an unrecognised header byte (log 19). -/
def Obligations.BootRefusesMalformedImages : Prop :=
  ∀ l : Launch,
    (l.image = none → boot l = .fault .imageIoFailure) ∧
    ∀ img : Image, l.image = some img →
      let kind := img.bytes.read 0x0147
      let code := img.bytes.read 0x0149
      let legal := img.length % 16384 = 0 ∧ 32768 ≤ img.length
      (¬legal → boot l = .fault (.malformedCartridgeHeader (.length img.length))) ∧
      (legal → kind.toNat > 3 → boot l = .fault (.malformedCartridgeHeader (.byteAt 0x0147 kind))) ∧
      (legal → 1 ≤ kind.toNat → kind.toNat ≤ 3 → l.config.ramSizeTable.lookup code = none →
        boot l = .fault (.malformedCartridgeHeader (.byteAt 0x0149 code))) ∧
      (legal → kind = 0 → ∃ t, boot l = .next t ∧ t.cart.variant = .noController ∧ t.cart.ramSize = 0) ∧
      (∀ n, legal → 1 ≤ kind.toNat → kind.toNat ≤ 3 → l.config.ramSizeTable.lookup code = some n →
        ∃ t, boot l = .next t ∧ t.cart.variant = .mbc1 ∧ t.cart.ramSize = n ∧ t.cart.ram = l.cartRam)

/-- The reset values (10_state.md R37, 21_cartridge_mbc1.md R105), for every value of the parameters. `t.ram` are the memories outside
the cartridge; the cartridge RAM holds `CARTRAM_INIT` where there is a controller, and without one there is none (R92). -/
def Obligations.BootGivesResetValues : Prop :=
  ∀ (l : Launch) (t : State), boot l = .next t →
    t.regs.a = l.config.resetA ∧ t.regs.b = l.config.resetB ∧ t.regs.c = l.config.resetC ∧ t.regs.d = l.config.resetD ∧
    t.regs.e = l.config.resetE ∧ t.regs.h = l.config.resetH ∧ t.regs.l = l.config.resetL ∧
    t.flags.z = l.config.resetFZ ∧ t.flags.n = l.config.resetFN ∧ t.flags.h = l.config.resetFH ∧
    t.flags.c = l.config.resetFC ∧ t.sp = l.config.resetSp ∧ t.pc = l.config.resetPc ∧
    t.ime = false ∧ t.eiPending = false ∧ t.halted = false ∧ t.ie = 0 ∧ t.irq = 0 ∧ t.dot = 0 ∧
    t.cart.ramEn = false ∧ t.cart.bankLo = 1 ∧ t.cart.bankHi = 0 ∧ t.cart.mode = .simpleRom ∧ t.ram = l.ram ∧
    (t.cart.variant = .mbc1 → t.cart.ram = l.cartRam) ∧
    (t.cart.variant = .noController → t.cart.ram = [] ∧ t.cart.ramSize = 0) ∧
    (∀ img, l.image = some img → t.cart.rom = img.bytes ∧ t.cart.banks * 16384 = img.length) ∧
    (∀ k ∈ [t.lcd.lcdc, t.lcd.scy, t.lcd.scx, t.lcd.lyc, t.lcd.bgp, t.lcd.obp0, t.lcd.obp1, t.lcd.wy, t.lcd.wx],
      k = l.config.lcdRegReset) ∧
    t.lcd.stat = l.config.lcdRegReset.extractLsb' 3 5 ∧ t.config = l.config

/-- `State.reset` holds the default reset values and the default parameters of 00_scope.md R7 and 10_state.md R37. The image and the
contents of the memories are no part of this statement: they are the model's choice (logs 2 and 3). -/
def Obligations.ResetStateHasDefaultValues : Prop :=
  let s := State.reset
  s.regs = { a := 0x01, b := 0x00, c := 0x13, d := 0x00, e := 0xD8, h := 0x01, l := 0x4D } ∧
  s.flags = { z := true, n := false, h := true, c := true } ∧ s.sp = 0xFFFE ∧ s.pc = 0x0100 ∧
  s.ime = false ∧ s.eiPending = false ∧ s.halted = false ∧ s.ie = 0x00 ∧ s.irq = 0b00000 ∧ s.dot = 0 ∧
  s.cart.ramEn = false ∧ s.cart.bankLo = 1 ∧ s.cart.bankHi = 0 ∧ s.cart.mode = .simpleRom ∧
  s.lcd = { lcdc := 0, stat := 0, scy := 0, scx := 0, lyc := 0, bgp := 0, obp0 := 0, obp1 := 0, wy := 0, wx := 0 } ∧
  s.config.repertoire = .full ∧ s.config.fLow = 0 ∧ s.config.mapVideoRam = false ∧ s.config.hramSize = 127 ∧
  s.config.ramBankSize = 8192 ∧ s.config.cyc = defaultCycles ∧ s.config.lcdRegReset = 0 ∧
  s.config.cycPush = 16 ∧ s.config.cycPop = 12 ∧ s.config.cycBitHl = 16 ∧ s.config.cycDispatch = 20 ∧
  s.config.cycHaltIdle = 4 ∧
  s.config.ramSizeTable = [(0x00, 0), (0x02, 8192), (0x03, 32768), (0x04, 131072), (0x05, 65536)]

/-! ### The whole machine -/

/-- The state after reset meets the invariant. -/
def Obligations.ResetMeetsInvariant : Prop := State.reset.Inv

/-- Booting a well-formed launch gives a state that meets the invariant. -/
def Obligations.BootEstablishesInvariant : Prop :=
  ∀ (l : Launch) (t : State), l.Inv → boot l = .next t → t.Inv

/-- Every step keeps the invariant: `dot` stays below one frame, every memory keeps its canonical form and its size, `bank_lo` is
never 0, and the cartridge stays the one its header describes. -/
def Obligations.StepKeepsInvariant : Prop :=
  ∀ s t : State, s.Inv → step s = .next t → t.Inv

/-- No step changes the image, the cartridge's construction or a parameter (10_state.md R33, 21_cartridge_mbc1.md R91). -/
def Obligations.StepKeepsImageAndParameters : Prop :=
  ∀ s t : State, step s = .next t →
    t.config = s.config ∧ t.cart.rom = s.cart.rom ∧ t.cart.banks = s.cart.banks ∧ t.cart.variant = s.cart.variant ∧
      t.cart.ramSize = s.cart.ramSize

/-- With the costs of the cycle table (`TableCosts`), every step costs a multiple of 4 cycles, at least 4 and at most 24, and moves
`dot` on by exactly its cost; only a step that stores to LY (0xFF44) may instead leave `dot` at its cost, counted from 0
(70_reset_and_hazards.md R380, 61_display_timing.md R344, R351). -/
def Obligations.StepCostMovesDot : Prop :=
  ∀ s t : State, TableCosts s.config → step s = .next t →
    t.cycles % 4 = 0 ∧ 4 ≤ t.cycles ∧ t.cycles ≤ 24 ∧
    (t.dot = (s.dot + t.cycles) % 70224 ∨ 0xFF44 ∈ s.stepStores ∧ t.dot = t.cycles)

/-- A step either completes or ends in one of the two fatal kinds of a running machine, an unmapped address being one that is not
mapped; it never refuses (00_scope.md R13, 60_exceptions.md R301). -/
def Obligations.StepFaultsAreFatalKinds : Prop :=
  ∀ s : State,
    (∀ q, step s ≠ .refused q) ∧
    ∀ f, step s = .fault f → (∃ op, f = .unimplementedOpcode op) ∨ ∃ a k, f = .unmappedAddress a k ∧ ¬Mapped s a

/-- What an instruction's footprint does not name it leaves unchanged: registers, each flag, `sp`, `pc`, the interrupt enables,
`halted`; and nothing ever changes a parameter or the image (10_state.md R23, 60_exceptions.md R320). On the bus: a form without a
store changes nothing; a form with stores leaves every address that no store at a place of its footprint touches, and every block,
latch and register whose addresses those places avoid. The places are computed in `s`, the state the instruction executes in. -/
def Obligations.InstructionsKeepTheirFootprint : Prop :=
  ∀ (i : Instr) (s t : State), exec i s = .next t →
    let w := footprint i
    (∀ r, r ∉ w.regs → t.regs.get r = s.regs.get r) ∧ (∀ k, k ∉ w.flags → t.flags.value k = s.flags.value k) ∧
    (w.sp = false → t.sp = s.sp) ∧ (w.pc = false → t.pc = s.pc) ∧
    (w.stores = [] → (∀ a, memRead t a = memRead s a) ∧ t.ram = s.ram ∧ t.cart = s.cart ∧ t.lcd = s.lcd ∧ t.dot = s.dot ∧
      t.ie = s.ie ∧ t.irq = s.irq) ∧
    (∀ x, (∀ p ∈ w.stores, touches s (p.addr s) x = false) → memRead t x = memRead s x) ∧
    KeepsElsewhere (w.stores.map (·.addr s)) s t ∧
    (w.irq = false → t.ime = s.ime ∧ t.eiPending = s.eiPending) ∧ (w.halt = false → t.halted = s.halted) ∧
    t.config = s.config ∧ t.cart.rom = s.cart.rom
end

