-- ==== Sys2Proof/Laws/Access.lean ====
section
/-! SUPPORT. Sequences of bus accesses taken apart: what a completed one says of its parts. -/

namespace Sys2Proof.Machine

@[simp] theorem Access.ok_bind {α β : Type} (a : α) (f : α → Access β) : (Except.ok a >>= f : Access β) = f a := rfl

@[simp] theorem Access.error_bind {α β : Type} (e : Fault) (f : α → Access β) :
    (Except.error e >>= f : Access β) = .error e := rfl

@[simp] theorem Access.pure_eq {α : Type} (a : α) : (pure a : Access α) = .ok a := rfl

@[simp] theorem Access.throw_eq {α : Type} (e : Fault) : (throw e : Access α) = .error e := rfl

theorem Access.bind_eq_ok {α β : Type} {x : Access α} {f : α → Access β} {b : β} :
    (x >>= f) = .ok b ↔ ∃ a, x = .ok a ∧ f a = .ok b := by
  cases x <;> simp

theorem Access.bind_eq_error {α β : Type} {x : Access α} {f : α → Access β} {e : Fault} :
    (x >>= f) = .error e ↔ x = .error e ∨ ∃ a, x = .ok a ∧ f a = .error e := by
  cases x <;> simp

@[simp] theorem toOutcome_ok (t : State) : toOutcome (.ok t) = .next t := rfl

@[simp] theorem toOutcome_error (f : Fault) : toOutcome (.error f) = .fault f := rfl

@[simp] theorem costing_ok (n : Nat) (t : State) : costing n (.ok t) = .next (t.setCycles n) := rfl

@[simp] theorem costing_error (n : Nat) (f : Fault) : costing n (.error f) = .fault f := rfl

theorem toOutcome_eq_next {r : Access State} {t : State} : toOutcome r = .next t ↔ r = .ok t := by
  cases r <;> simp

theorem costing_eq_next {n : Nat} {r : Access State} {t : State} :
    costing n r = .next t ↔ ∃ u, r = .ok u ∧ u.setCycles n = t := by
  cases r <;> simp

theorem costing_eq_fault {n : Nat} {r : Access State} {f : Fault} : costing n r = .fault f ↔ r = .error f := by
  cases r <;> simp

theorem toOutcome_ne_refused (r : Access State) (q : Refusal) : toOutcome r ≠ .refused q := by
  cases r <;> simp

theorem costing_ne_refused (n : Nat) (r : Access State) (q : Refusal) : costing n r ≠ .refused q := by
  cases r <;> simp

theorem memRead_eq_ok {s : State} {a : Word} {v : Byte} : memRead s a = .ok v ↔ s.ownerRead (owner a) = some v := by
  unfold memRead
  split <;> simp_all

theorem memWrite_eq_ok {s t : State} {a : Word} {v : Byte} :
    memWrite s a v = .ok t ↔ s.ownerWrite (owner a) v = some t := by
  unfold memWrite
  split <;> simp_all

theorem memRead_eq_error {s : State} {a : Word} {f : Fault} :
    memRead s a = .error f ↔ s.ownerRead (owner a) = none ∧ f = .unmappedAddress a .read := by
  cases h : s.ownerRead (owner a) <;> simp [memRead, h, eq_comm]

theorem memWrite_eq_error {s : State} {a : Word} {v : Byte} {f : Fault} :
    memWrite s a v = .error f ↔ s.ownerWrite (owner a) v = none ∧ f = .unmappedAddress a .write := by
  cases h : s.ownerWrite (owner a) v <;> simp [memWrite, h, eq_comm]

end Sys2Proof.Machine
end

