-- ==== Sys2Proof/Laws/Memory.lean ====
section
/-! SUPPORT. The laws of a block of cells: read after write, the canonical form and the size kept by a write, and that blocks in
canonical form which read alike are equal. -/

namespace Sys2Proof.Machine

@[simp] theorem Memory.read_nil (k : Nat) : Memory.read [] k = unlistedByte := rfl

@[simp] theorem Memory.read_cons (a : Nat) (v : Byte) (rest : Memory) (k : Nat) :
    Memory.read ((a, v) :: rest) k = if k = a then v else Memory.read rest k := rfl

/-- Below every listed offset a block reads as if nothing were listed. -/
theorem Memory.read_below {m : Memory} {k : Nat} (h : ∀ cell ∈ m, k < cell.1) : m.read k = unlistedByte := by
  induction m with
  | nil => rfl
  | cons cell rest ih =>
    obtain ⟨a, v⟩ := cell
    have ha : k < a := h (a, v) (by simp)
    rw [Memory.read_cons, if_neg (by omega)]
    exact ih fun c hc => h c (by simp [hc])

theorem Memory.wf_cons {a : Nat} {v : Byte} {rest : Memory} :
    Memory.wf ((a, v) :: rest) = true ↔ v ≠ unlistedByte ∧ (∀ cell ∈ rest, a < cell.1) ∧ rest.wf = true := by
  simp [Memory.wf, and_assoc]

theorem Memory.read_write_same {m : Memory} (hm : m.wf = true) (k : Nat) (v : Byte) : (m.write k v).read k = v := by
  induction m with
  | nil =>
    unfold Memory.write
    split
    · simp [*]
    · simp
  | cons cell rest ih =>
    obtain ⟨a, w⟩ := cell
    obtain ⟨-, habove, hrest⟩ := Memory.wf_cons.1 hm
    unfold Memory.write
    split
    · next hlt =>
      split
      · next hv =>
        rw [Memory.read_below, hv]
        intro c hc
        rcases List.mem_cons.1 hc with rfl | hc
        · exact hlt
        · exact lt_trans hlt (habove c hc)
      · simp
    · split
      · next heq =>
        subst heq
        split
        · next hv => rw [Memory.read_below habove, hv]
        · simp
      · next hne => rw [Memory.read_cons, if_neg hne, ih hrest]

theorem Memory.read_write_other {m : Memory} {k j : Nat} (hne : j ≠ k) (v : Byte) : (m.write k v).read j = m.read j := by
  induction m with
  | nil =>
    unfold Memory.write
    split <;> simp [hne]
  | cons cell rest ih =>
    obtain ⟨a, w⟩ := cell
    unfold Memory.write
    split
    · split <;> simp [hne]
    · split
      · next heq =>
        subst heq
        split <;> simp [hne]
      · simp [ih]

/-- Every offset listed after a write was listed before or is the one written. -/
theorem Memory.mem_write {m : Memory} {k : Nat} {v : Byte} {cell : Host.Cell} (h : cell ∈ m.write k v) :
    cell ∈ m ∨ cell = (k, v) := by
  induction m with
  | nil =>
    unfold Memory.write at h
    split at h <;> simp_all
  | cons c rest ih =>
    obtain ⟨a, w⟩ := c
    unfold Memory.write at h
    split at h
    · split at h
      · exact .inl h
      · rcases List.mem_cons.1 h with h | h
        · exact .inr h
        · exact .inl h
    · split at h
      · split at h
        · exact .inl (List.mem_cons_of_mem _ h)
        · rcases List.mem_cons.1 h with h | h
          · exact .inr h
          · exact .inl (List.mem_cons_of_mem _ h)
      · rcases List.mem_cons.1 h with h | h
        · exact .inl (h ▸ List.mem_cons_self)
        · exact (ih h).imp (List.mem_cons_of_mem _) id

theorem Memory.write_wf {m : Memory} (hm : m.wf = true) (k : Nat) (v : Byte) : (m.write k v).wf = true := by
  induction m with
  | nil =>
    unfold Memory.write
    split
    · rfl
    · next hv => exact Memory.wf_cons.2 ⟨hv, by simp, rfl⟩
  | cons cell rest ih =>
    obtain ⟨a, w⟩ := cell
    obtain ⟨hw, habove, hrest⟩ := Memory.wf_cons.1 hm
    unfold Memory.write
    split
    · next hlt =>
      split
      · exact hm
      · next hv =>
        refine Memory.wf_cons.2 ⟨hv, fun c hc => ?_, hm⟩
        rcases List.mem_cons.1 hc with rfl | hc
        · exact hlt
        · exact lt_trans hlt (habove c hc)
    · next hge =>
      split
      · next heq =>
        subst heq
        split
        · exact hrest
        · next hv => exact Memory.wf_cons.2 ⟨hv, habove, hrest⟩
      · next hne =>
        refine Memory.wf_cons.2 ⟨hw, fun c hc => ?_, ih hrest⟩
        rcases Memory.mem_write hc with hc | rfl
        · exact habove c hc
        · change a < k
          omega

theorem Memory.within_iff {m : Memory} {size : Nat} : m.within size = true ↔ ∀ cell ∈ m, cell.1 < size := by
  simp [Memory.within]

theorem Memory.write_within {m : Memory} {size k : Nat} (hm : m.within size = true) (hk : k < size) (v : Byte) :
    (m.write k v).within size = true := by
  rw [Memory.within_iff] at hm ⊢
  intro c hc
  rcases Memory.mem_write hc with hc | rfl
  · exact hm c hc
  · exact hk

/-- Blocks in canonical form that read alike are equal data. -/
theorem Memory.ext_of_read {m m' : Memory} (hm : m.wf = true) (hm' : m'.wf = true)
    (h : ∀ k, m.read k = m'.read k) : m = m' := by
  induction m generalizing m' with
  | nil =>
    cases m' with
    | nil => rfl
    | cons cell rest =>
      obtain ⟨a, v⟩ := cell
      have := h a
      simp at this
      exact absurd this.symm (Memory.wf_cons.1 hm').1
  | cons cell rest ih =>
    obtain ⟨a, v⟩ := cell
    obtain ⟨hv, habove, hrest⟩ := Memory.wf_cons.1 hm
    cases m' with
    | nil =>
      have := h a
      simp at this
      exact absurd this hv
    | cons cell' rest' =>
      obtain ⟨a', v'⟩ := cell'
      obtain ⟨hv', habove', hrest'⟩ := Memory.wf_cons.1 hm'
      have haa : a = a' := by
        rcases Nat.lt_trichotomy a a' with hlt | heq | hgt
        · have h1 := h a
          rw [Memory.read_cons, if_pos rfl, Memory.read_cons, if_neg (by omega),
            Memory.read_below fun c hc => lt_trans hlt (habove' c hc)] at h1
          exact absurd h1 hv
        · exact heq
        · have h1 := h a'
          rw [Memory.read_cons, if_neg (by omega), Memory.read_cons, if_pos rfl,
            Memory.read_below fun c hc => lt_trans hgt (habove c hc)] at h1
          exact absurd h1.symm hv'
      subst haa
      have hvv : v = v' := by simpa using h a
      subst hvv
      congr 1
      refine ih hrest hrest' fun k => ?_
      by_cases hk : k = a
      · subst hk
        rw [Memory.read_below habove, Memory.read_below habove']
      · simpa [hk] using h k

end Sys2Proof.Machine
end

