-- ==== Sys2Proof/Laws/State.lean ====
section
/-! SUPPORT. One lemma per field per update of `Machine/Update.lean`. -/

namespace Sys2Proof.Machine

@[simp] theorem State.setRegs_regs (s : State) (v : Regs) : (s.setRegs v).regs = v := rfl
@[simp] theorem State.setRegs_flags (s : State) (v : Regs) : (s.setRegs v).flags = s.flags := rfl
@[simp] theorem State.setRegs_sp (s : State) (v : Regs) : (s.setRegs v).sp = s.sp := rfl
@[simp] theorem State.setRegs_pc (s : State) (v : Regs) : (s.setRegs v).pc = s.pc := rfl
@[simp] theorem State.setRegs_ime (s : State) (v : Regs) : (s.setRegs v).ime = s.ime := rfl
@[simp] theorem State.setRegs_eiPending (s : State) (v : Regs) : (s.setRegs v).eiPending = s.eiPending := rfl
@[simp] theorem State.setRegs_halted (s : State) (v : Regs) : (s.setRegs v).halted = s.halted := rfl
@[simp] theorem State.setRegs_ie (s : State) (v : Regs) : (s.setRegs v).ie = s.ie := rfl
@[simp] theorem State.setRegs_irq (s : State) (v : Regs) : (s.setRegs v).irq = s.irq := rfl
@[simp] theorem State.setRegs_ram (s : State) (v : Regs) : (s.setRegs v).ram = s.ram := rfl
@[simp] theorem State.setRegs_cart (s : State) (v : Regs) : (s.setRegs v).cart = s.cart := rfl
@[simp] theorem State.setRegs_dot (s : State) (v : Regs) : (s.setRegs v).dot = s.dot := rfl
@[simp] theorem State.setRegs_lcd (s : State) (v : Regs) : (s.setRegs v).lcd = s.lcd := rfl
@[simp] theorem State.setRegs_cycles (s : State) (v : Regs) : (s.setRegs v).cycles = s.cycles := rfl
@[simp] theorem State.setRegs_config (s : State) (v : Regs) : (s.setRegs v).config = s.config := rfl

@[simp] theorem State.setFlags_regs (s : State) (v : Flags) : (s.setFlags v).regs = s.regs := rfl
@[simp] theorem State.setFlags_flags (s : State) (v : Flags) : (s.setFlags v).flags = v := rfl
@[simp] theorem State.setFlags_sp (s : State) (v : Flags) : (s.setFlags v).sp = s.sp := rfl
@[simp] theorem State.setFlags_pc (s : State) (v : Flags) : (s.setFlags v).pc = s.pc := rfl
@[simp] theorem State.setFlags_ime (s : State) (v : Flags) : (s.setFlags v).ime = s.ime := rfl
@[simp] theorem State.setFlags_eiPending (s : State) (v : Flags) : (s.setFlags v).eiPending = s.eiPending := rfl
@[simp] theorem State.setFlags_halted (s : State) (v : Flags) : (s.setFlags v).halted = s.halted := rfl
@[simp] theorem State.setFlags_ie (s : State) (v : Flags) : (s.setFlags v).ie = s.ie := rfl
@[simp] theorem State.setFlags_irq (s : State) (v : Flags) : (s.setFlags v).irq = s.irq := rfl
@[simp] theorem State.setFlags_ram (s : State) (v : Flags) : (s.setFlags v).ram = s.ram := rfl
@[simp] theorem State.setFlags_cart (s : State) (v : Flags) : (s.setFlags v).cart = s.cart := rfl
@[simp] theorem State.setFlags_dot (s : State) (v : Flags) : (s.setFlags v).dot = s.dot := rfl
@[simp] theorem State.setFlags_lcd (s : State) (v : Flags) : (s.setFlags v).lcd = s.lcd := rfl
@[simp] theorem State.setFlags_cycles (s : State) (v : Flags) : (s.setFlags v).cycles = s.cycles := rfl
@[simp] theorem State.setFlags_config (s : State) (v : Flags) : (s.setFlags v).config = s.config := rfl

@[simp] theorem State.setSp_regs (s : State) (v : Word) : (s.setSp v).regs = s.regs := rfl
@[simp] theorem State.setSp_flags (s : State) (v : Word) : (s.setSp v).flags = s.flags := rfl
@[simp] theorem State.setSp_sp (s : State) (v : Word) : (s.setSp v).sp = v := rfl
@[simp] theorem State.setSp_pc (s : State) (v : Word) : (s.setSp v).pc = s.pc := rfl
@[simp] theorem State.setSp_ime (s : State) (v : Word) : (s.setSp v).ime = s.ime := rfl
@[simp] theorem State.setSp_eiPending (s : State) (v : Word) : (s.setSp v).eiPending = s.eiPending := rfl
@[simp] theorem State.setSp_halted (s : State) (v : Word) : (s.setSp v).halted = s.halted := rfl
@[simp] theorem State.setSp_ie (s : State) (v : Word) : (s.setSp v).ie = s.ie := rfl
@[simp] theorem State.setSp_irq (s : State) (v : Word) : (s.setSp v).irq = s.irq := rfl
@[simp] theorem State.setSp_ram (s : State) (v : Word) : (s.setSp v).ram = s.ram := rfl
@[simp] theorem State.setSp_cart (s : State) (v : Word) : (s.setSp v).cart = s.cart := rfl
@[simp] theorem State.setSp_dot (s : State) (v : Word) : (s.setSp v).dot = s.dot := rfl
@[simp] theorem State.setSp_lcd (s : State) (v : Word) : (s.setSp v).lcd = s.lcd := rfl
@[simp] theorem State.setSp_cycles (s : State) (v : Word) : (s.setSp v).cycles = s.cycles := rfl
@[simp] theorem State.setSp_config (s : State) (v : Word) : (s.setSp v).config = s.config := rfl

@[simp] theorem State.setPc_regs (s : State) (v : Word) : (s.setPc v).regs = s.regs := rfl
@[simp] theorem State.setPc_flags (s : State) (v : Word) : (s.setPc v).flags = s.flags := rfl
@[simp] theorem State.setPc_sp (s : State) (v : Word) : (s.setPc v).sp = s.sp := rfl
@[simp] theorem State.setPc_pc (s : State) (v : Word) : (s.setPc v).pc = v := rfl
@[simp] theorem State.setPc_ime (s : State) (v : Word) : (s.setPc v).ime = s.ime := rfl
@[simp] theorem State.setPc_eiPending (s : State) (v : Word) : (s.setPc v).eiPending = s.eiPending := rfl
@[simp] theorem State.setPc_halted (s : State) (v : Word) : (s.setPc v).halted = s.halted := rfl
@[simp] theorem State.setPc_ie (s : State) (v : Word) : (s.setPc v).ie = s.ie := rfl
@[simp] theorem State.setPc_irq (s : State) (v : Word) : (s.setPc v).irq = s.irq := rfl
@[simp] theorem State.setPc_ram (s : State) (v : Word) : (s.setPc v).ram = s.ram := rfl
@[simp] theorem State.setPc_cart (s : State) (v : Word) : (s.setPc v).cart = s.cart := rfl
@[simp] theorem State.setPc_dot (s : State) (v : Word) : (s.setPc v).dot = s.dot := rfl
@[simp] theorem State.setPc_lcd (s : State) (v : Word) : (s.setPc v).lcd = s.lcd := rfl
@[simp] theorem State.setPc_cycles (s : State) (v : Word) : (s.setPc v).cycles = s.cycles := rfl
@[simp] theorem State.setPc_config (s : State) (v : Word) : (s.setPc v).config = s.config := rfl

@[simp] theorem State.setIme_regs (s : State) (v : Bool) : (s.setIme v).regs = s.regs := rfl
@[simp] theorem State.setIme_flags (s : State) (v : Bool) : (s.setIme v).flags = s.flags := rfl
@[simp] theorem State.setIme_sp (s : State) (v : Bool) : (s.setIme v).sp = s.sp := rfl
@[simp] theorem State.setIme_pc (s : State) (v : Bool) : (s.setIme v).pc = s.pc := rfl
@[simp] theorem State.setIme_ime (s : State) (v : Bool) : (s.setIme v).ime = v := rfl
@[simp] theorem State.setIme_eiPending (s : State) (v : Bool) : (s.setIme v).eiPending = s.eiPending := rfl
@[simp] theorem State.setIme_halted (s : State) (v : Bool) : (s.setIme v).halted = s.halted := rfl
@[simp] theorem State.setIme_ie (s : State) (v : Bool) : (s.setIme v).ie = s.ie := rfl
@[simp] theorem State.setIme_irq (s : State) (v : Bool) : (s.setIme v).irq = s.irq := rfl
@[simp] theorem State.setIme_ram (s : State) (v : Bool) : (s.setIme v).ram = s.ram := rfl
@[simp] theorem State.setIme_cart (s : State) (v : Bool) : (s.setIme v).cart = s.cart := rfl
@[simp] theorem State.setIme_dot (s : State) (v : Bool) : (s.setIme v).dot = s.dot := rfl
@[simp] theorem State.setIme_lcd (s : State) (v : Bool) : (s.setIme v).lcd = s.lcd := rfl
@[simp] theorem State.setIme_cycles (s : State) (v : Bool) : (s.setIme v).cycles = s.cycles := rfl
@[simp] theorem State.setIme_config (s : State) (v : Bool) : (s.setIme v).config = s.config := rfl

@[simp] theorem State.setEiPending_regs (s : State) (v : Bool) : (s.setEiPending v).regs = s.regs := rfl
@[simp] theorem State.setEiPending_flags (s : State) (v : Bool) : (s.setEiPending v).flags = s.flags := rfl
@[simp] theorem State.setEiPending_sp (s : State) (v : Bool) : (s.setEiPending v).sp = s.sp := rfl
@[simp] theorem State.setEiPending_pc (s : State) (v : Bool) : (s.setEiPending v).pc = s.pc := rfl
@[simp] theorem State.setEiPending_ime (s : State) (v : Bool) : (s.setEiPending v).ime = s.ime := rfl
@[simp] theorem State.setEiPending_eiPending (s : State) (v : Bool) : (s.setEiPending v).eiPending = v := rfl
@[simp] theorem State.setEiPending_halted (s : State) (v : Bool) : (s.setEiPending v).halted = s.halted := rfl
@[simp] theorem State.setEiPending_ie (s : State) (v : Bool) : (s.setEiPending v).ie = s.ie := rfl
@[simp] theorem State.setEiPending_irq (s : State) (v : Bool) : (s.setEiPending v).irq = s.irq := rfl
@[simp] theorem State.setEiPending_ram (s : State) (v : Bool) : (s.setEiPending v).ram = s.ram := rfl
@[simp] theorem State.setEiPending_cart (s : State) (v : Bool) : (s.setEiPending v).cart = s.cart := rfl
@[simp] theorem State.setEiPending_dot (s : State) (v : Bool) : (s.setEiPending v).dot = s.dot := rfl
@[simp] theorem State.setEiPending_lcd (s : State) (v : Bool) : (s.setEiPending v).lcd = s.lcd := rfl
@[simp] theorem State.setEiPending_cycles (s : State) (v : Bool) : (s.setEiPending v).cycles = s.cycles := rfl
@[simp] theorem State.setEiPending_config (s : State) (v : Bool) : (s.setEiPending v).config = s.config := rfl

@[simp] theorem State.setHalted_regs (s : State) (v : Bool) : (s.setHalted v).regs = s.regs := rfl
@[simp] theorem State.setHalted_flags (s : State) (v : Bool) : (s.setHalted v).flags = s.flags := rfl
@[simp] theorem State.setHalted_sp (s : State) (v : Bool) : (s.setHalted v).sp = s.sp := rfl
@[simp] theorem State.setHalted_pc (s : State) (v : Bool) : (s.setHalted v).pc = s.pc := rfl
@[simp] theorem State.setHalted_ime (s : State) (v : Bool) : (s.setHalted v).ime = s.ime := rfl
@[simp] theorem State.setHalted_eiPending (s : State) (v : Bool) : (s.setHalted v).eiPending = s.eiPending := rfl
@[simp] theorem State.setHalted_halted (s : State) (v : Bool) : (s.setHalted v).halted = v := rfl
@[simp] theorem State.setHalted_ie (s : State) (v : Bool) : (s.setHalted v).ie = s.ie := rfl
@[simp] theorem State.setHalted_irq (s : State) (v : Bool) : (s.setHalted v).irq = s.irq := rfl
@[simp] theorem State.setHalted_ram (s : State) (v : Bool) : (s.setHalted v).ram = s.ram := rfl
@[simp] theorem State.setHalted_cart (s : State) (v : Bool) : (s.setHalted v).cart = s.cart := rfl
@[simp] theorem State.setHalted_dot (s : State) (v : Bool) : (s.setHalted v).dot = s.dot := rfl
@[simp] theorem State.setHalted_lcd (s : State) (v : Bool) : (s.setHalted v).lcd = s.lcd := rfl
@[simp] theorem State.setHalted_cycles (s : State) (v : Bool) : (s.setHalted v).cycles = s.cycles := rfl
@[simp] theorem State.setHalted_config (s : State) (v : Bool) : (s.setHalted v).config = s.config := rfl

@[simp] theorem State.setIe_regs (s : State) (v : Byte) : (s.setIe v).regs = s.regs := rfl
@[simp] theorem State.setIe_flags (s : State) (v : Byte) : (s.setIe v).flags = s.flags := rfl
@[simp] theorem State.setIe_sp (s : State) (v : Byte) : (s.setIe v).sp = s.sp := rfl
@[simp] theorem State.setIe_pc (s : State) (v : Byte) : (s.setIe v).pc = s.pc := rfl
@[simp] theorem State.setIe_ime (s : State) (v : Byte) : (s.setIe v).ime = s.ime := rfl
@[simp] theorem State.setIe_eiPending (s : State) (v : Byte) : (s.setIe v).eiPending = s.eiPending := rfl
@[simp] theorem State.setIe_halted (s : State) (v : Byte) : (s.setIe v).halted = s.halted := rfl
@[simp] theorem State.setIe_ie (s : State) (v : Byte) : (s.setIe v).ie = v := rfl
@[simp] theorem State.setIe_irq (s : State) (v : Byte) : (s.setIe v).irq = s.irq := rfl
@[simp] theorem State.setIe_ram (s : State) (v : Byte) : (s.setIe v).ram = s.ram := rfl
@[simp] theorem State.setIe_cart (s : State) (v : Byte) : (s.setIe v).cart = s.cart := rfl
@[simp] theorem State.setIe_dot (s : State) (v : Byte) : (s.setIe v).dot = s.dot := rfl
@[simp] theorem State.setIe_lcd (s : State) (v : Byte) : (s.setIe v).lcd = s.lcd := rfl
@[simp] theorem State.setIe_cycles (s : State) (v : Byte) : (s.setIe v).cycles = s.cycles := rfl
@[simp] theorem State.setIe_config (s : State) (v : Byte) : (s.setIe v).config = s.config := rfl

@[simp] theorem State.setIrq_regs (s : State) (v : BitVec 5) : (s.setIrq v).regs = s.regs := rfl
@[simp] theorem State.setIrq_flags (s : State) (v : BitVec 5) : (s.setIrq v).flags = s.flags := rfl
@[simp] theorem State.setIrq_sp (s : State) (v : BitVec 5) : (s.setIrq v).sp = s.sp := rfl
@[simp] theorem State.setIrq_pc (s : State) (v : BitVec 5) : (s.setIrq v).pc = s.pc := rfl
@[simp] theorem State.setIrq_ime (s : State) (v : BitVec 5) : (s.setIrq v).ime = s.ime := rfl
@[simp] theorem State.setIrq_eiPending (s : State) (v : BitVec 5) : (s.setIrq v).eiPending = s.eiPending := rfl
@[simp] theorem State.setIrq_halted (s : State) (v : BitVec 5) : (s.setIrq v).halted = s.halted := rfl
@[simp] theorem State.setIrq_ie (s : State) (v : BitVec 5) : (s.setIrq v).ie = s.ie := rfl
@[simp] theorem State.setIrq_irq (s : State) (v : BitVec 5) : (s.setIrq v).irq = v := rfl
@[simp] theorem State.setIrq_ram (s : State) (v : BitVec 5) : (s.setIrq v).ram = s.ram := rfl
@[simp] theorem State.setIrq_cart (s : State) (v : BitVec 5) : (s.setIrq v).cart = s.cart := rfl
@[simp] theorem State.setIrq_dot (s : State) (v : BitVec 5) : (s.setIrq v).dot = s.dot := rfl
@[simp] theorem State.setIrq_lcd (s : State) (v : BitVec 5) : (s.setIrq v).lcd = s.lcd := rfl
@[simp] theorem State.setIrq_cycles (s : State) (v : BitVec 5) : (s.setIrq v).cycles = s.cycles := rfl
@[simp] theorem State.setIrq_config (s : State) (v : BitVec 5) : (s.setIrq v).config = s.config := rfl

@[simp] theorem State.setRam_regs (s : State) (v : Ram) : (s.setRam v).regs = s.regs := rfl
@[simp] theorem State.setRam_flags (s : State) (v : Ram) : (s.setRam v).flags = s.flags := rfl
@[simp] theorem State.setRam_sp (s : State) (v : Ram) : (s.setRam v).sp = s.sp := rfl
@[simp] theorem State.setRam_pc (s : State) (v : Ram) : (s.setRam v).pc = s.pc := rfl
@[simp] theorem State.setRam_ime (s : State) (v : Ram) : (s.setRam v).ime = s.ime := rfl
@[simp] theorem State.setRam_eiPending (s : State) (v : Ram) : (s.setRam v).eiPending = s.eiPending := rfl
@[simp] theorem State.setRam_halted (s : State) (v : Ram) : (s.setRam v).halted = s.halted := rfl
@[simp] theorem State.setRam_ie (s : State) (v : Ram) : (s.setRam v).ie = s.ie := rfl
@[simp] theorem State.setRam_irq (s : State) (v : Ram) : (s.setRam v).irq = s.irq := rfl
@[simp] theorem State.setRam_ram (s : State) (v : Ram) : (s.setRam v).ram = v := rfl
@[simp] theorem State.setRam_cart (s : State) (v : Ram) : (s.setRam v).cart = s.cart := rfl
@[simp] theorem State.setRam_dot (s : State) (v : Ram) : (s.setRam v).dot = s.dot := rfl
@[simp] theorem State.setRam_lcd (s : State) (v : Ram) : (s.setRam v).lcd = s.lcd := rfl
@[simp] theorem State.setRam_cycles (s : State) (v : Ram) : (s.setRam v).cycles = s.cycles := rfl
@[simp] theorem State.setRam_config (s : State) (v : Ram) : (s.setRam v).config = s.config := rfl

@[simp] theorem State.setCart_regs (s : State) (v : Cart) : (s.setCart v).regs = s.regs := rfl
@[simp] theorem State.setCart_flags (s : State) (v : Cart) : (s.setCart v).flags = s.flags := rfl
@[simp] theorem State.setCart_sp (s : State) (v : Cart) : (s.setCart v).sp = s.sp := rfl
@[simp] theorem State.setCart_pc (s : State) (v : Cart) : (s.setCart v).pc = s.pc := rfl
@[simp] theorem State.setCart_ime (s : State) (v : Cart) : (s.setCart v).ime = s.ime := rfl
@[simp] theorem State.setCart_eiPending (s : State) (v : Cart) : (s.setCart v).eiPending = s.eiPending := rfl
@[simp] theorem State.setCart_halted (s : State) (v : Cart) : (s.setCart v).halted = s.halted := rfl
@[simp] theorem State.setCart_ie (s : State) (v : Cart) : (s.setCart v).ie = s.ie := rfl
@[simp] theorem State.setCart_irq (s : State) (v : Cart) : (s.setCart v).irq = s.irq := rfl
@[simp] theorem State.setCart_ram (s : State) (v : Cart) : (s.setCart v).ram = s.ram := rfl
@[simp] theorem State.setCart_cart (s : State) (v : Cart) : (s.setCart v).cart = v := rfl
@[simp] theorem State.setCart_dot (s : State) (v : Cart) : (s.setCart v).dot = s.dot := rfl
@[simp] theorem State.setCart_lcd (s : State) (v : Cart) : (s.setCart v).lcd = s.lcd := rfl
@[simp] theorem State.setCart_cycles (s : State) (v : Cart) : (s.setCart v).cycles = s.cycles := rfl
@[simp] theorem State.setCart_config (s : State) (v : Cart) : (s.setCart v).config = s.config := rfl

@[simp] theorem State.setDot_regs (s : State) (v : Nat) : (s.setDot v).regs = s.regs := rfl
@[simp] theorem State.setDot_flags (s : State) (v : Nat) : (s.setDot v).flags = s.flags := rfl
@[simp] theorem State.setDot_sp (s : State) (v : Nat) : (s.setDot v).sp = s.sp := rfl
@[simp] theorem State.setDot_pc (s : State) (v : Nat) : (s.setDot v).pc = s.pc := rfl
@[simp] theorem State.setDot_ime (s : State) (v : Nat) : (s.setDot v).ime = s.ime := rfl
@[simp] theorem State.setDot_eiPending (s : State) (v : Nat) : (s.setDot v).eiPending = s.eiPending := rfl
@[simp] theorem State.setDot_halted (s : State) (v : Nat) : (s.setDot v).halted = s.halted := rfl
@[simp] theorem State.setDot_ie (s : State) (v : Nat) : (s.setDot v).ie = s.ie := rfl
@[simp] theorem State.setDot_irq (s : State) (v : Nat) : (s.setDot v).irq = s.irq := rfl
@[simp] theorem State.setDot_ram (s : State) (v : Nat) : (s.setDot v).ram = s.ram := rfl
@[simp] theorem State.setDot_cart (s : State) (v : Nat) : (s.setDot v).cart = s.cart := rfl
@[simp] theorem State.setDot_dot (s : State) (v : Nat) : (s.setDot v).dot = v := rfl
@[simp] theorem State.setDot_lcd (s : State) (v : Nat) : (s.setDot v).lcd = s.lcd := rfl
@[simp] theorem State.setDot_cycles (s : State) (v : Nat) : (s.setDot v).cycles = s.cycles := rfl
@[simp] theorem State.setDot_config (s : State) (v : Nat) : (s.setDot v).config = s.config := rfl

@[simp] theorem State.setLcd_regs (s : State) (v : LcdRegs) : (s.setLcd v).regs = s.regs := rfl
@[simp] theorem State.setLcd_flags (s : State) (v : LcdRegs) : (s.setLcd v).flags = s.flags := rfl
@[simp] theorem State.setLcd_sp (s : State) (v : LcdRegs) : (s.setLcd v).sp = s.sp := rfl
@[simp] theorem State.setLcd_pc (s : State) (v : LcdRegs) : (s.setLcd v).pc = s.pc := rfl
@[simp] theorem State.setLcd_ime (s : State) (v : LcdRegs) : (s.setLcd v).ime = s.ime := rfl
@[simp] theorem State.setLcd_eiPending (s : State) (v : LcdRegs) : (s.setLcd v).eiPending = s.eiPending := rfl
@[simp] theorem State.setLcd_halted (s : State) (v : LcdRegs) : (s.setLcd v).halted = s.halted := rfl
@[simp] theorem State.setLcd_ie (s : State) (v : LcdRegs) : (s.setLcd v).ie = s.ie := rfl
@[simp] theorem State.setLcd_irq (s : State) (v : LcdRegs) : (s.setLcd v).irq = s.irq := rfl
@[simp] theorem State.setLcd_ram (s : State) (v : LcdRegs) : (s.setLcd v).ram = s.ram := rfl
@[simp] theorem State.setLcd_cart (s : State) (v : LcdRegs) : (s.setLcd v).cart = s.cart := rfl
@[simp] theorem State.setLcd_dot (s : State) (v : LcdRegs) : (s.setLcd v).dot = s.dot := rfl
@[simp] theorem State.setLcd_lcd (s : State) (v : LcdRegs) : (s.setLcd v).lcd = v := rfl
@[simp] theorem State.setLcd_cycles (s : State) (v : LcdRegs) : (s.setLcd v).cycles = s.cycles := rfl
@[simp] theorem State.setLcd_config (s : State) (v : LcdRegs) : (s.setLcd v).config = s.config := rfl

@[simp] theorem State.setCycles_regs (s : State) (v : Nat) : (s.setCycles v).regs = s.regs := rfl
@[simp] theorem State.setCycles_flags (s : State) (v : Nat) : (s.setCycles v).flags = s.flags := rfl
@[simp] theorem State.setCycles_sp (s : State) (v : Nat) : (s.setCycles v).sp = s.sp := rfl
@[simp] theorem State.setCycles_pc (s : State) (v : Nat) : (s.setCycles v).pc = s.pc := rfl
@[simp] theorem State.setCycles_ime (s : State) (v : Nat) : (s.setCycles v).ime = s.ime := rfl
@[simp] theorem State.setCycles_eiPending (s : State) (v : Nat) : (s.setCycles v).eiPending = s.eiPending := rfl
@[simp] theorem State.setCycles_halted (s : State) (v : Nat) : (s.setCycles v).halted = s.halted := rfl
@[simp] theorem State.setCycles_ie (s : State) (v : Nat) : (s.setCycles v).ie = s.ie := rfl
@[simp] theorem State.setCycles_irq (s : State) (v : Nat) : (s.setCycles v).irq = s.irq := rfl
@[simp] theorem State.setCycles_ram (s : State) (v : Nat) : (s.setCycles v).ram = s.ram := rfl
@[simp] theorem State.setCycles_cart (s : State) (v : Nat) : (s.setCycles v).cart = s.cart := rfl
@[simp] theorem State.setCycles_dot (s : State) (v : Nat) : (s.setCycles v).dot = s.dot := rfl
@[simp] theorem State.setCycles_lcd (s : State) (v : Nat) : (s.setCycles v).lcd = s.lcd := rfl
@[simp] theorem State.setCycles_cycles (s : State) (v : Nat) : (s.setCycles v).cycles = v := rfl
@[simp] theorem State.setCycles_config (s : State) (v : Nat) : (s.setCycles v).config = s.config := rfl

end Sys2Proof.Machine
end

