-- ==== Sys2Proof/Laws/Bus.lean ====
section
/-! SUPPORT. The bus: the offsets an owner carries are inside its block, a write keeps every field outside the bus and the canonical
form of every block, and a read does not look at the fields outside the bus. -/

namespace Sys2Proof.Machine

/-! ### Offsets -/

theorem lcdOwner_cases (k : Nat) : lcdOwner k = .nobody ∨ ∃ r, lcdOwner k = .lcd r ∧ k ≤ 11 ∧ (r = .ly → k = 4) := by
  unfold lcdOwner
  split <;> simp

/-- The offset that an owner of the address `n` carries is inside the owner's block. -/
def Owner.inside (o : Owner) (n : Nat) : Prop :=
  match o with
  | .cartRom m => m = n ∧ n ≤ 0x7FFF
  | .cartRam k => k < ramWindowSize
  | .vram k => k < vramSize
  | .wram0 k => k < wramSize
  | .wram1 k => k < wramSize
  | .oam k => k < oamSize
  | .hram k => k < hramSpan
  | _ => True

theorem Owner.inside_ite {c : Prop} [Decidable c] {o o' : Owner} {n : Nat} (h : c → o.inside n) (h' : ¬c → o'.inside n) :
    (if c then o else o').inside n := by
  by_cases hc : c
  · rw [if_pos hc]; exact h hc
  · rw [if_neg hc]; exact h' hc

theorem ownerAt_inside (n : Nat) : (ownerAt n).inside n := by
  have hc := lcdOwner_cases (n - 0xFF40)
  generalize hl : lcdOwner (n - 0xFF40) = o at hc
  unfold ownerAt
  rw [hl]
  clear hl
  repeat' refine Owner.inside_ite (fun _ => ?_) (fun _ => ?_)
  all_goals first
    | (simp only [Owner.inside, true_and, ramWindowSize, vramSize, wramSize, oamSize, hramSpan]; omega)
    | (simp only [Owner.inside]; done)
    | (obtain rfl | ⟨r, rfl, -⟩ := hc <;> exact trivial)

theorem owner_inside {a : Word} {o : Owner} (h : owner a = o) : o.inside a.toNat := h ▸ ownerAt_inside a.toNat

/-- The first and the last address that an owner can have (R57, R60). -/
def Owner.range (o : Owner) : Nat × Nat :=
  match o with
  | .cartRom _ => (0x0000, 0x7FFF)
  | .vram _ => (0x8000, 0x9FFF)
  | .cartRam _ => (0xA000, 0xBFFF)
  | .wram0 _ => (0xC000, 0xFDFF)
  | .wram1 _ => (0xC000, 0xFDFF)
  | .oam _ => (0xFE00, 0xFE9F)
  | .hram _ => (0xFF80, 0xFFFE)
  | .requestFlags => (0xFF0F, 0xFF0F)
  | .enableMask => (0xFFFF, 0xFFFF)
  | .lcd .ly => (0xFF44, 0xFF44)
  | .lcd _ => (0xFF40, 0xFF4B)
  | .stub _ => (0x0000, 0xFFFF)
  | .nobody => (0x0000, 0xFFFF)

/-- The address `n` is in the range of the owner. -/
def Owner.spans (o : Owner) (n : Nat) : Prop := o.range.1 ≤ n ∧ n ≤ o.range.2

theorem Owner.spans_ite {c : Prop} [Decidable c] {o o' : Owner} {n : Nat} (h : c → o.spans n) (h' : ¬c → o'.spans n) :
    (if c then o else o').spans n := by
  by_cases hc : c
  · rw [if_pos hc]; exact h hc
  · rw [if_neg hc]; exact h' hc

theorem lcdOwner_spans {n : Nat} (h1 : 0xFF40 ≤ n) (h2 : n ≤ 0xFF7F) : (lcdOwner (n - 0xFF40)).spans n := by
  obtain h | ⟨r, h, hk, hr⟩ := lcdOwner_cases (n - 0xFF40) <;> rw [h]
  · simp only [Owner.spans, Owner.range]
    omega
  · cases r
    case ly =>
      have := hr rfl
      simp only [Owner.spans, Owner.range]
      omega
    all_goals
      simp only [Owner.spans, Owner.range]
      omega

theorem owner_spans (a : Word) : (owner a).spans a.toNat := by
  have ha := a.isLt
  have hl := @lcdOwner_spans a.toNat
  unfold owner ownerAt
  generalize lcdOwner (a.toNat - 0xFF40) = o at hl
  repeat' refine Owner.spans_ite (fun _ => ?_) (fun _ => ?_)
  all_goals first
    | (simp only [Owner.spans, Owner.range]; omega)
    | exact hl (by omega) (by omega)

theorem Cart.romBank_lt {c : Cart} (h : 0 < c.banks) : c.romBank < c.banks := Nat.mod_lt _ h

theorem Cart.romOffset_lt {c : Cart} (h : 2 ≤ c.banks) {n : Nat} (hn : n ≤ 0x7FFF) :
    c.romOffset n < c.banks * romBankSize := by
  have hb : c.romBank < c.banks := Cart.romBank_lt (by omega)
  have : c.romBank * 16384 + 16384 ≤ c.banks * 16384 := by
    have := Nat.mul_le_mul_right 16384 (Nat.succ_le_of_lt hb)
    rw [Nat.succ_mul] at this
    exact this
  unfold Cart.romOffset romBankSize
  split
  · omega
  · split <;> omega

theorem Cart.ramOffset_lt {c : Cart} (h : 0 < c.ramSize) (bankSize k : Nat) : c.ramOffset bankSize k < c.ramSize := Nat.mod_lt _ h

theorem Cart.ramShown_ramSize {c : Cart} (h : c.ramShown = true) : 0 < c.ramSize := by
  simp [Cart.ramShown] at h
  exact h.2

/-! ### What a write keeps -/

/-- A latch write keeps the image, the construction and the RAM. -/
theorem Cart.writeRom_image (c : Cart) (n : Nat) (v : Byte) :
    (c.writeRom n v).variant = c.variant ∧ (c.writeRom n v).rom = c.rom ∧ (c.writeRom n v).banks = c.banks ∧
      (c.writeRom n v).ramSize = c.ramSize ∧ (c.writeRom n v).ram = c.ram := by
  unfold Cart.writeRom
  split
  · simp
  · split_ifs <;> simp [Cart.writeRamEnable, Cart.writeBankLo, Cart.writeBankHi, Cart.writeMode]

/-- A write to the RAM window keeps the image, the construction and the latches. -/
theorem Cart.writeRam_image (c : Cart) (bankSize k : Nat) (v : Byte) :
    (c.writeRam bankSize k v).variant = c.variant ∧ (c.writeRam bankSize k v).rom = c.rom ∧
      (c.writeRam bankSize k v).banks = c.banks ∧ (c.writeRam bankSize k v).ramSize = c.ramSize ∧ (c.writeRam bankSize k v).bankLo = c.bankLo := by
  unfold Cart.writeRam
  split <;> simp

theorem State.writeLcd_core (s : State) (r : LcdReg) (v : Byte) :
    SameCore s (s.writeLcd r v) ∧ (s.writeLcd r v).cart = s.cart ∧ (s.writeLcd r v).ram = s.ram := by
  cases r <;> exact ⟨⟨rfl, rfl, rfl, rfl, rfl, rfl, rfl, rfl, rfl⟩, rfl, rfl⟩

/-- No owner's write changes a field outside the bus. -/
theorem State.ownerWrite_core {s t : State} {o : Owner} {v : Byte} (h : s.ownerWrite o v = some t) : SameCore s t := by
  cases o <;> simp only [State.ownerWrite] at h <;> try split at h
  all_goals
    cases h <;> first
      | exact ⟨rfl, rfl, rfl, rfl, rfl, rfl, rfl, rfl, rfl⟩
      | exact (s.writeLcd_core _ v).1

/-- No owner's write changes the image. -/
theorem State.ownerWrite_image {s t : State} {o : Owner} {v : Byte} (h : s.ownerWrite o v = some t) : SameImage s t := by
  cases o <;> simp only [State.ownerWrite] at h <;> try split at h
  all_goals cases h
  case cartRom n =>
    obtain ⟨h1, h2, h3, h4, -⟩ := s.cart.writeRom_image n v
    exact ⟨h1, h2, h3, h4⟩
  case cartRam k =>
    obtain ⟨h1, h2, h3, h4, -⟩ := s.cart.writeRam_image s.config.ramBankSize k v
    exact ⟨h1, h2, h3, h4⟩
  case lcd r =>
    have := (s.writeLcd_core r v).2.1
    exact ⟨by rw [this], by rw [this], by rw [this], by rw [this]⟩
  all_goals exact ⟨rfl, rfl, rfl, rfl⟩

theorem memWrite_core {s t : State} {a : Word} {v : Byte} (h : memWrite s a v = .ok t) : SameCore s t :=
  State.ownerWrite_core (memWrite_eq_ok.1 h)

/-- Only a store to LY moves `dot`, to 0 (R351). -/
theorem memWrite_dot {s t : State} {a : Word} {v : Byte} (h : memWrite s a v = .ok t) :
    t.dot = s.dot ∨ a = 0xFF44 ∧ t.dot = 0 := by
  have h := memWrite_eq_ok.1 h
  have ho := owner_spans a
  generalize owner a = o at h ho
  cases o <;> simp only [State.ownerWrite] at h <;> try split at h
  all_goals cases h
  case lcd r =>
    cases r
    case ly =>
      have ha : a.toNat = 0xFF44 := Nat.le_antisymm ho.2 ho.1
      exact .inr ⟨by bv_omega, rfl⟩
    all_goals exact .inl rfl
  all_goals exact .inl rfl

theorem memWrite_image {s t : State} {a : Word} {v : Byte} (h : memWrite s a v = .ok t) : SameImage s t :=
  State.ownerWrite_image (memWrite_eq_ok.1 h)

theorem SameCore.refl (s : State) : SameCore s s := ⟨rfl, rfl, rfl, rfl, rfl, rfl, rfl, rfl, rfl⟩

theorem SameCore.trans {s t u : State} (h : SameCore s t) (h' : SameCore t u) : SameCore s u :=
  ⟨h'.regs.trans h.regs, h'.flags.trans h.flags, h'.sp.trans h.sp, h'.pc.trans h.pc, h'.ime.trans h.ime,
    h'.eiPending.trans h.eiPending, h'.halted.trans h.halted, h'.cycles.trans h.cycles, h'.config.trans h.config⟩

theorem SameImage.refl (s : State) : SameImage s s := ⟨rfl, rfl, rfl, rfl⟩

theorem SameImage.trans {s t u : State} (h : SameImage s t) (h' : SameImage t u) : SameImage s u :=
  ⟨h'.variant.trans h.variant, h'.rom.trans h.rom, h'.banks.trans h.banks, h'.ramSize.trans h.ramSize⟩

/-! ### The canonical form -/

theorem Memory.fits_write {m : Memory} {size k : Nat} (h : m.fits size) (hk : k < size) (v : Byte) :
    (m.write k v).fits size :=
  ⟨Memory.write_wf h.1 k v, Memory.write_within h.2 hk v⟩

/-- Every block keeps its canonical form under every bus write (the offsets are inside the blocks). -/
theorem memWrite_ram {s t : State} {a : Word} {v : Byte} (h : memWrite s a v = .ok t) (hs : s.ram.Inv s.config) :
    t.ram.Inv t.config := by
  rw [(memWrite_core h).config]
  have h := memWrite_eq_ok.1 h
  generalize ho : owner a = o at h
  cases o <;> simp only [State.ownerWrite] at h <;> try split at h
  all_goals cases h
  case wram0 k => exact ⟨Memory.fits_write hs.wram0 (owner_inside ho) v, hs.wram1, hs.hram, hs.vram, hs.oam⟩
  case wram1 k => exact ⟨hs.wram0, Memory.fits_write hs.wram1 (owner_inside ho) v, hs.hram, hs.vram, hs.oam⟩
  case hram k hk => exact ⟨hs.wram0, hs.wram1, Memory.fits_write hs.hram hk v, hs.vram, hs.oam⟩
  case vram k => exact ⟨hs.wram0, hs.wram1, hs.hram, Memory.fits_write hs.vram (owner_inside ho) v, hs.oam⟩
  case oam k => exact ⟨hs.wram0, hs.wram1, hs.hram, hs.vram, Memory.fits_write hs.oam (owner_inside ho) v⟩
  case lcd r => rw [(s.writeLcd_core r v).2.2]; exact hs
  all_goals exact hs

/-- The cartridge RAM keeps its canonical form under a write to its window. -/
theorem Cart.writeRam_fits {c : Cart} (h : c.ram.fits c.ramSize) (bankSize k : Nat) (v : Byte) :
    (c.writeRam bankSize k v).ram.fits c.ramSize := by
  unfold Cart.writeRam
  split
  · next hs => exact Memory.fits_write h (Cart.ramOffset_lt (Cart.ramShown_ramSize hs) bankSize k) v
  · exact h

/-- A block in which nothing is listed is in canonical form and inside any size. -/
theorem Memory.fits_nil (size : Nat) : Memory.fits [] size := ⟨rfl, rfl⟩

theorem Ram.blank_inv (cfg : Config) : Ram.blank.Inv cfg := by
  constructor <;> exact Memory.fits_nil _

/-- The reset state's memories are in canonical form. -/
theorem reset_memories_wf : State.reset.ram.Inv State.reset.config ∧ State.reset.cart.ram.fits State.reset.cart.ramSize ∧
    State.reset.cart.rom.fits (State.reset.cart.banks * romBankSize) :=
  ⟨Ram.blank_inv _, Memory.fits_nil _, Memory.fits_nil _⟩

/-! ### A read does not look at the fields outside the bus -/

/-- Two states that agree on the fields of the bus read alike. -/
theorem memRead_congr {s t : State} (hc : t.cart = s.cart) (hr : t.ram = s.ram) (hl : t.lcd = s.lcd) (hd : t.dot = s.dot)
    (hi : t.irq = s.irq) (he : t.ie = s.ie) (hg : t.config = s.config) (a : Word) : memRead t a = memRead s a := by
  unfold memRead State.ownerRead State.readLcd
  rw [hc, hr, hl, hd, hi, he, hg]

@[simp] theorem memRead_setRegs (s : State) (v : Regs) (a : Word) : memRead (s.setRegs v) a = memRead s a := rfl
@[simp] theorem memRead_setFlags (s : State) (v : Flags) (a : Word) : memRead (s.setFlags v) a = memRead s a := rfl
@[simp] theorem memRead_setSp (s : State) (v : Word) (a : Word) : memRead (s.setSp v) a = memRead s a := rfl
@[simp] theorem memRead_setPc (s : State) (v : Word) (a : Word) : memRead (s.setPc v) a = memRead s a := rfl
@[simp] theorem memRead_setIme (s : State) (v : Bool) (a : Word) : memRead (s.setIme v) a = memRead s a := rfl
@[simp] theorem memRead_setEiPending (s : State) (v : Bool) (a : Word) : memRead (s.setEiPending v) a = memRead s a := rfl
@[simp] theorem memRead_setHalted (s : State) (v : Bool) (a : Word) : memRead (s.setHalted v) a = memRead s a := rfl
@[simp] theorem memRead_setCycles (s : State) (v : Nat) (a : Word) : memRead (s.setCycles v) a = memRead s a := rfl

/-! ### A write commutes with the updates outside the bus -/

theorem State.ownerWrite_setRegs (s : State) (w : Regs) (o : Owner) (v : Byte) :
    (s.setRegs w).ownerWrite o v = (s.ownerWrite o v).map (·.setRegs w) := by
  cases o <;> simp only [State.ownerWrite, Option.map_some, Option.map_none, apply_ite (Option.map _)] <;> first
    | rfl
    | (rename_i r; cases r <;> rfl)

theorem memWrite_setRegs (s : State) (w : Regs) (a : Word) (v : Byte) :
    memWrite (s.setRegs w) a v = (memWrite s a v).map (·.setRegs w) := by
  unfold memWrite
  rw [State.ownerWrite_setRegs]
  cases s.ownerWrite (owner a) v <;> rfl

theorem State.ownerWrite_setFlags (s : State) (w : Flags) (o : Owner) (v : Byte) :
    (s.setFlags w).ownerWrite o v = (s.ownerWrite o v).map (·.setFlags w) := by
  cases o <;> simp only [State.ownerWrite, Option.map_some, Option.map_none, apply_ite (Option.map _)] <;> first
    | rfl
    | (rename_i r; cases r <;> rfl)

theorem memWrite_setFlags (s : State) (w : Flags) (a : Word) (v : Byte) :
    memWrite (s.setFlags w) a v = (memWrite s a v).map (·.setFlags w) := by
  unfold memWrite
  rw [State.ownerWrite_setFlags]
  cases s.ownerWrite (owner a) v <;> rfl

theorem State.ownerWrite_setSp (s : State) (w : Word) (o : Owner) (v : Byte) :
    (s.setSp w).ownerWrite o v = (s.ownerWrite o v).map (·.setSp w) := by
  cases o <;> simp only [State.ownerWrite, Option.map_some, Option.map_none, apply_ite (Option.map _)] <;> first
    | rfl
    | (rename_i r; cases r <;> rfl)

theorem memWrite_setSp (s : State) (w : Word) (a : Word) (v : Byte) :
    memWrite (s.setSp w) a v = (memWrite s a v).map (·.setSp w) := by
  unfold memWrite
  rw [State.ownerWrite_setSp]
  cases s.ownerWrite (owner a) v <;> rfl

theorem State.ownerWrite_setPc (s : State) (w : Word) (o : Owner) (v : Byte) :
    (s.setPc w).ownerWrite o v = (s.ownerWrite o v).map (·.setPc w) := by
  cases o <;> simp only [State.ownerWrite, Option.map_some, Option.map_none, apply_ite (Option.map _)] <;> first
    | rfl
    | (rename_i r; cases r <;> rfl)

theorem memWrite_setPc (s : State) (w : Word) (a : Word) (v : Byte) :
    memWrite (s.setPc w) a v = (memWrite s a v).map (·.setPc w) := by
  unfold memWrite
  rw [State.ownerWrite_setPc]
  cases s.ownerWrite (owner a) v <;> rfl

theorem State.ownerWrite_setIme (s : State) (w : Bool) (o : Owner) (v : Byte) :
    (s.setIme w).ownerWrite o v = (s.ownerWrite o v).map (·.setIme w) := by
  cases o <;> simp only [State.ownerWrite, Option.map_some, Option.map_none, apply_ite (Option.map _)] <;> first
    | rfl
    | (rename_i r; cases r <;> rfl)

theorem memWrite_setIme (s : State) (w : Bool) (a : Word) (v : Byte) :
    memWrite (s.setIme w) a v = (memWrite s a v).map (·.setIme w) := by
  unfold memWrite
  rw [State.ownerWrite_setIme]
  cases s.ownerWrite (owner a) v <;> rfl

theorem State.ownerWrite_setEiPending (s : State) (w : Bool) (o : Owner) (v : Byte) :
    (s.setEiPending w).ownerWrite o v = (s.ownerWrite o v).map (·.setEiPending w) := by
  cases o <;> simp only [State.ownerWrite, Option.map_some, Option.map_none, apply_ite (Option.map _)] <;> first
    | rfl
    | (rename_i r; cases r <;> rfl)

theorem memWrite_setEiPending (s : State) (w : Bool) (a : Word) (v : Byte) :
    memWrite (s.setEiPending w) a v = (memWrite s a v).map (·.setEiPending w) := by
  unfold memWrite
  rw [State.ownerWrite_setEiPending]
  cases s.ownerWrite (owner a) v <;> rfl

theorem State.ownerWrite_setHalted (s : State) (w : Bool) (o : Owner) (v : Byte) :
    (s.setHalted w).ownerWrite o v = (s.ownerWrite o v).map (·.setHalted w) := by
  cases o <;> simp only [State.ownerWrite, Option.map_some, Option.map_none, apply_ite (Option.map _)] <;> first
    | rfl
    | (rename_i r; cases r <;> rfl)

theorem memWrite_setHalted (s : State) (w : Bool) (a : Word) (v : Byte) :
    memWrite (s.setHalted w) a v = (memWrite s a v).map (·.setHalted w) := by
  unfold memWrite
  rw [State.ownerWrite_setHalted]
  cases s.ownerWrite (owner a) v <;> rfl

theorem State.ownerWrite_setCycles (s : State) (w : Nat) (o : Owner) (v : Byte) :
    (s.setCycles w).ownerWrite o v = (s.ownerWrite o v).map (·.setCycles w) := by
  cases o <;> simp only [State.ownerWrite, Option.map_some, Option.map_none, apply_ite (Option.map _)] <;> first
    | rfl
    | (rename_i r; cases r <;> rfl)

theorem memWrite_setCycles (s : State) (w : Nat) (a : Word) (v : Byte) :
    memWrite (s.setCycles w) a v = (memWrite s a v).map (·.setCycles w) := by
  unfold memWrite
  rw [State.ownerWrite_setCycles]
  cases s.ownerWrite (owner a) v <;> rfl

end Sys2Proof.Machine
end

