-- ==== Sys2Proof/Laws/Decode.lean ====
section
/-! SUPPORT. What each shape of an opcode byte makes of the bytes after it. -/

namespace Sys2Proof

theorem decode_implied {op : Byte} {i : Instr} (h : opForm op = .implied i) (rest : List Byte) :
    decode (op :: rest) = .ok (i, rest) := by
  simp [decode, h]

theorem decode_withByte {op : Byte} {f : Byte → Instr} (h : opForm op = .withByte f) (n : Byte) (rest : List Byte) :
    decode (op :: n :: rest) = .ok (f n, rest) := by
  simp [decode, h]

theorem decode_withWord {op : Byte} {f : Word → Instr} (h : opForm op = .withWord f) (lo hi : Byte) (rest : List Byte) :
    decode (op :: lo :: hi :: rest) = .ok (f (joinBytes hi lo), rest) := by
  simp [decode, h]

theorem decode_prefixed (sub : Byte) (rest : List Byte) : decode (0xCB :: sub :: rest) = .ok (decodeCb sub, rest) := rfl

theorem decode_encodeWord {op : Byte} {f : Word → Instr} (h : opForm op = .withWord f) (nn : Word) (rest : List Byte) :
    decode (encodeWord op nn ++ rest) = .ok (f nn, rest) := by
  simp [encodeWord, decode, h]

/-- A sub-opcode is its three fields. -/
theorem decodeCb_pack (x : Fin 4) (y z : Fin 8) :
    decodeCb (packFields x y z) =
      cbForm (match x with
        | 0 => cbOp (packFields 0 y 0)
        | 1 => .bit y
        | 2 => .res y
        | 3 => .set y) (operand8OfCode z) := by
  revert x y z
  decide

end Sys2Proof
end

