-- ==== Sys2Proof/Laws/Mapped.lean ====
section
/-! SUPPORT. Which addresses answer, and what a store leaves alone: every address that it does not touch reads as before. -/

namespace Sys2Proof.Machine

/-! ### Which owners answer -/

/-- The owner answers reads and writes, under these parameters. -/
def Owner.answers (cfg : Config) (o : Owner) : Bool :=
  match o with
  | .vram _ => cfg.mapVideoRam
  | .oam _ => cfg.mapVideoRam
  | .hram k => decide (k < cfg.hramSize)
  | .stub _ => false
  | .nobody => false
  | _ => true

theorem State.ownerRead_isSome (s : State) (o : Owner) : (s.ownerRead o).isSome = o.answers s.config := by
  cases o <;> simp only [State.ownerRead, Owner.answers, Option.isSome_some, Option.isSome_none]
  all_goals split <;> simp_all

theorem State.ownerWrite_isSome (s : State) (o : Owner) (v : Byte) :
    (s.ownerWrite o v).isSome = o.answers s.config := by
  cases o <;> simp only [State.ownerWrite, Owner.answers, Option.isSome_some, Option.isSome_none]
  all_goals split <;> simp_all

theorem lcdOwner_answers (cfg : Config) (k : Nat) :
    (lcdOwner k).answers cfg = true ↔ k ≤ 5 ∨ 7 ≤ k ∧ k ≤ 11 := by
  unfold lcdOwner
  split <;> simp [Owner.answers]
  simp only [imp_false] at *
  omega

theorem Owner.answers_ite {c p : Prop} [Decidable c] {cfg : Config} {o o' : Owner} (h : c → (o.answers cfg = true ↔ p))
    (h' : ¬c → (o'.answers cfg = true ↔ p)) : (if c then o else o').answers cfg = true ↔ p := by
  by_cases hc : c
  · rw [if_pos hc]; exact h hc
  · rw [if_neg hc]; exact h' hc

/-- The ranges of `mappedAddr` are the owners that answer. -/
theorem owner_answers (cfg : Config) (a : Word) : (owner a).answers cfg = true ↔ mappedAddr cfg a = true := by
  have hlt := a.isLt
  unfold mappedAddr owner ownerAt
  generalize a.toNat = n at *
  have hc := lcdOwner_answers cfg (n - 0xFF40)
  generalize lcdOwner (n - 0xFF40) = o at *
  simp only [Bool.or_eq_true, Bool.and_eq_true, decide_eq_true_eq]
  repeat' refine Owner.answers_ite (fun _ => ?_) (fun _ => ?_)
  all_goals first
    | (rw [hc]; omega)
    | (simp only [Owner.answers, true_iff, false_iff, Bool.false_eq_true]; omega)
    | (simp only [Owner.answers, decide_eq_true_eq]; omega)
    | (simp only [Owner.answers]
       cases cfg.mapVideoRam <;>
         simp only [Bool.false_eq_true, false_and, true_and, true_iff, false_iff, or_false] <;> omega)

/-- A read answers exactly at the mapped addresses. -/
theorem memRead_of_mapped {s : State} {a : Word} (h : Mapped s a) : ∃ v, memRead s a = .ok v := by
  have := (owner_answers _ _).2 h
  rw [← State.ownerRead_isSome, Option.isSome_iff_exists] at this
  obtain ⟨v, hv⟩ := this
  exact ⟨v, memRead_eq_ok.2 hv⟩

theorem memRead_of_not_mapped {s : State} {a : Word} (h : ¬Mapped s a) : memRead s a = .error (.unmappedAddress a .read) := by
  refine memRead_eq_error.2 ⟨?_, rfl⟩
  rw [Mapped, ← owner_answers, ← State.ownerRead_isSome] at h
  simpa using h

/-- A write answers exactly at the mapped addresses. -/
theorem memWrite_of_mapped {s : State} {a : Word} (h : Mapped s a) (v : Byte) : ∃ t, memWrite s a v = .ok t := by
  have := (owner_answers _ _).2 h
  rw [← State.ownerWrite_isSome s _ v, Option.isSome_iff_exists] at this
  obtain ⟨t, ht⟩ := this
  exact ⟨t, memWrite_eq_ok.2 ht⟩

theorem memWrite_of_not_mapped {s : State} {a : Word} (h : ¬Mapped s a) (v : Byte) :
    memWrite s a v = .error (.unmappedAddress a .write) := by
  refine memWrite_eq_error.2 ⟨?_, rfl⟩
  rw [Mapped, ← owner_answers, ← State.ownerWrite_isSome s _ v] at h
  simpa using h

theorem mapped_of_memRead {s : State} {a : Word} {v : Byte} (h : memRead s a = .ok v) : Mapped s a := by
  by_contra hn
  rw [memRead_of_not_mapped hn] at h
  cases h

theorem mapped_of_memWrite {s t : State} {a : Word} {v : Byte} (h : memWrite s a v = .ok t) : Mapped s a := by
  by_contra hn
  rw [memWrite_of_not_mapped hn] at h
  cases h

/-- A completed write moves no address in or out of the map. -/
theorem mapped_after_memWrite {s t : State} {a : Word} {v : Byte} (h : memWrite s a v = .ok t) (x : Word) :
    Mapped t x ↔ Mapped s x := by
  rw [Mapped, Mapped, (memWrite_core h).config]

/-! ### What a store touches -/

/-- A latch write moves only the windows that `touches` names. -/
theorem Cart.writeRom_keeps (c : Cart) (n m : Nat) (v : Byte)
    (h : ¬(c.variant = .mbc1 ∧ 0x2000 ≤ n ∧ n ≤ 0x5FFF ∧ 0x4000 ≤ m)) : (c.writeRom n v).readRom m = c.readRom m := by
  unfold Cart.writeRom Cart.readRom Cart.romOffset Cart.romBank
  cases hv : c.variant
  · simp only [hv]
  · simp only [hv, true_and] at h
    simp only
    by_cases hm : m < 0x4000
    · split_ifs <;> simp only [Cart.writeRamEnable, Cart.writeBankLo, Cart.writeBankHi, Cart.writeMode, hv]
    · split_ifs <;> simp only [Cart.writeRamEnable, Cart.writeBankLo, Cart.writeBankHi, Cart.writeMode, hv] <;> omega

theorem Cart.writeRom_keepsRam (c : Cart) (bankSize n k : Nat) (v : Byte) (h : ¬(c.variant = .mbc1 ∧ (n ≤ 0x1FFF ∨ 0x4000 ≤ n))) :
    (c.writeRom n v).readRam bankSize k = c.readRam bankSize k := by
  unfold Cart.writeRom
  cases hv : c.variant
  · rfl
  · simp only [hv, true_and] at h
    simp only
    rw [if_neg (by omega), if_pos (by omega)]
    rfl

/-- A store to the RAM window changes one cell. -/
theorem Cart.writeRam_keeps (c : Cart) (bankSize k j : Nat) (v : Byte)
    (h : (c.ramShown && decide (c.ramOffset bankSize k = c.ramOffset bankSize j)) = false) :
    (c.writeRam bankSize k v).readRam bankSize j = c.readRam bankSize j := by
  unfold Cart.writeRam
  split
  · next hs =>
    rw [hs, Bool.true_and, decide_eq_false_iff_not] at h
    have hs' : ({ c with ram := c.ram.write (c.ramOffset bankSize k) v } : Cart).ramShown = true := hs
    unfold Cart.readRam
    rw [if_pos hs', if_pos hs]
    exact Memory.read_write_other (Ne.symm h) v
  · rfl

theorem Cart.writeRam_readRom (c : Cart) (bankSize k m : Nat) (v : Byte) : (c.writeRam bankSize k v).readRom m = c.readRom m := by
  unfold Cart.writeRam
  split <;> rfl

/-- A completed store leaves the bytes at every address that it does not touch. -/
theorem memWrite_reads {s t : State} {a : Word} {v : Byte} (h : memWrite s a v = .ok t) {x : Word}
    (hx : touches s a x = false) : memRead t x = memRead s x := by
  have h := memWrite_eq_ok.1 h
  have key : t.ownerRead (owner x) = s.ownerRead (owner x) := by
    unfold touches at hx
    generalize owner a = o at h hx
    generalize owner x = o' at hx
    cases o <;> simp only [State.ownerWrite] at h <;> try split at h
    all_goals cases h
    case cartRom n =>
      cases o' <;> try rfl
      · rename_i m
        simp only [decide_eq_false_iff_not] at hx
        exact congrArg some (s.cart.writeRom_keeps n m v hx)
      · rename_i k
        simp only [decide_eq_false_iff_not] at hx
        exact congrArg some (s.cart.writeRom_keepsRam s.config.ramBankSize n k v hx)
    case cartRam k =>
      cases o' <;> try rfl
      · exact congrArg some (s.cart.writeRam_readRom s.config.ramBankSize k _ v)
      · exact congrArg some (s.cart.writeRam_keeps s.config.ramBankSize k _ v hx)
    case lcd r =>
      cases o' <;> try (cases r <;> rfl)
      rename_i r'
      cases r <;> cases r' <;> first | rfl | (simp at hx)
    all_goals
      cases o' <;> try rfl
    all_goals simp only [Owner.wram0.injEq, Owner.wram1.injEq, Owner.hram.injEq, Owner.vram.injEq, Owner.oam.injEq,
      decide_eq_false_iff_not, decide_true, Bool.true_eq_false] at hx
    all_goals
      simp only [State.ownerRead]
      first
        | exact congrArg some (Memory.read_write_other (Ne.symm hx) v)
        | exact congrArg (fun b => if s.config.mapVideoRam = true then some b else none)
            (Memory.read_write_other (Ne.symm hx) v)
        | exact congrArg (fun b => if _ < s.config.hramSize then some b else none)
            (Memory.read_write_other (Ne.symm hx) v)
  unfold memRead
  rw [key]

theorem memWrite_onlyStored {s t : State} {a : Word} {v : Byte} (h : memWrite s a v = .ok t) : OnlyStored s t a :=
  ⟨memWrite_core h, fun _ hx => memWrite_reads h hx⟩

end Sys2Proof.Machine
end

