-- ==== Sys2Proof/Laws/Ops.lean ====
section
/-! SUPPORT. The shared operations, each said once: what a push, a pop, a call, a return, a dispatch and `Advance` do, and how a
meaning written over them takes the shapes of `Safety.lean`. -/

namespace Sys2Proof.Machine

/-! ### The stack -/

/-- Two stores, the high byte at `sp - 1`, then the low byte at `sp - 2`, and `sp` two lower. -/
theorem push16_eq (v : Word) (s : State) :
    push16 v s = (memWrite s (s.sp - 1) (hiByte v) >>= fun u => memWrite u (s.sp - 2) (loByte v)).map (·.setSp (s.sp - 2)) := by
  unfold push16 push8
  rw [memWrite_setSp]
  cases memWrite s (s.sp - 1) (hiByte v) with
  | error e => rfl
  | ok u =>
    show memWrite ((u.setSp (s.sp - 1)).setSp (s.sp - 1 - 1)) (s.sp - 1 - 1) (loByte v) = _
    have h : s.sp - 1 - 1 = s.sp - 2 := by bv_omega
    rw [h]
    exact memWrite_setSp u _ _ _

/-- Two reads, the low byte from `sp`, then the high byte from `sp + 1`, and `sp` two higher. -/
theorem pop16_eq (s : State) :
    pop16 s = (memRead s s.sp >>= fun lo => memRead s (s.sp + 1) >>= fun hi => .ok (hi ++ lo, s.setSp (s.sp + 2))) := by
  unfold pop16 pop8
  cases memRead s s.sp with
  | error e => rfl
  | ok lo =>
    show (memRead s (s.sp + 1) >>= fun v => pure (v, s.setSp (s.sp + 1 + 1))) >>= _ = _
    have h : s.sp + 1 + 1 = s.sp + 2 := by bv_omega
    rw [h]
    cases memRead s (s.sp + 1) <;> rfl

theorem push16_core {v : Word} {s t : State} (h : push16 v s = .ok t) : SameCore (s.setSp (s.sp - 2)) t := by
  rw [push16_eq] at h
  cases h1 : memWrite s (s.sp - 1) (hiByte v) with
  | error e => rw [h1] at h; cases h
  | ok u =>
    rw [h1] at h
    change (memWrite u (s.sp - 2) (loByte v)).map (·.setSp (s.sp - 2)) = .ok t at h
    cases h2 : memWrite u (s.sp - 2) (loByte v) with
    | error e => rw [h2] at h; cases h
    | ok w =>
      rw [h2] at h
      cases h
      have := (memWrite_core h1).trans (memWrite_core h2)
      exact ⟨this.regs, this.flags, rfl, this.pc, this.ime, this.eiPending, this.halted, this.cycles, this.config⟩

/-! ### Shapes -/

theorem loadsFrom_of {i : Instr} {s : State} {a : Word} {c : Nat} {g : Byte → State} {after : Byte → State}
    (h : exec i s = costing c (memRead s a >>= fun v => pure (g v))) (hg : ∀ v, (g v).setCycles c = after v) :
    LoadsFrom i s a after := by
  refine ⟨fun hm => ?_, fun hn => ?_⟩
  · obtain ⟨v, hv⟩ := memRead_of_mapped hm
    exact ⟨v, hv, by rw [h, hv]; exact congrArg _ (hg v)⟩
  · rw [h, memRead_of_not_mapped hn]
    rfl

theorem storesTo_of {i : Instr} {s : State} {a : Word} {v : Byte} {c : Nat} {g after : State → State}
    (h : exec i s = costing c (memWrite s a v >>= fun u => pure (g u)))
    (hg : ∀ u, memWrite s a v = .ok u → (g u).setCycles c = after u) : StoresTo i s a v after := by
  refine ⟨fun hm => ?_, fun hn => ?_⟩
  · obtain ⟨u, hu⟩ := memWrite_of_mapped hm v
    exact ⟨u, hu, memWrite_onlyStored hu, by rw [h, hu]; exact congrArg _ (hg u hu)⟩
  · rw [h, memWrite_of_not_mapped hn]
    rfl

theorem rewrites_of {i : Instr} {s : State} {a : Word} {f : Byte → Byte} {c : Nat} {g after : Byte → State → State}
    (h : exec i s = costing c (memRead s a >>= fun v => memWrite s a (f v) >>= fun u => pure (g v u)))
    (hg : ∀ v u, memWrite s a (f v) = .ok u → (g v u).setCycles c = after v u) : Rewrites i s a f after := by
  refine ⟨fun hm => ?_, fun hn => ?_⟩
  · obtain ⟨v, hv⟩ := memRead_of_mapped hm
    obtain ⟨u, hu⟩ := memWrite_of_mapped hm (f v)
    refine ⟨v, u, hv, hu, memWrite_onlyStored hu, ?_⟩
    rw [h, hv, Access.ok_bind, hu]
    exact congrArg _ (hg v u hu)
  · rw [h, memRead_of_not_mapped hn]
    rfl

theorem loadsPair_of {i : Instr} {s : State} {a b : Word} {c : Nat} {g after : Byte → Byte → State}
    (h : exec i s = costing c (memRead s a >>= fun lo => memRead s b >>= fun hi => pure (g lo hi)))
    (hg : ∀ lo hi, (g lo hi).setCycles c = after lo hi) : LoadsPair i s a b after := by
  refine ⟨fun ha hb => ?_, fun ha => ?_, fun ha hb => ?_⟩
  · obtain ⟨lo, hlo⟩ := memRead_of_mapped ha
    obtain ⟨hi, hhi⟩ := memRead_of_mapped hb
    refine ⟨lo, hi, hlo, hhi, ?_⟩
    rw [h, hlo, Access.ok_bind, hhi]
    exact congrArg _ (hg lo hi)
  · rw [h, memRead_of_not_mapped ha]
    rfl
  · obtain ⟨lo, hlo⟩ := memRead_of_mapped ha
    rw [h, hlo, Access.ok_bind, memRead_of_not_mapped hb]
    rfl

theorem storesPair_of {i : Instr} {s : State} {a b : Word} {v w : Byte} {c : Nat} {g after : State → State}
    (h : exec i s = costing c ((memWrite s a v >>= fun u => memWrite u b w).map g))
    (hg : ∀ u1 u2, memWrite s a v = .ok u1 → memWrite u1 b w = .ok u2 → (g u2).setCycles c = after u2) :
    StoresPair i s a v b w after := by
  refine ⟨fun ha hb => ?_, fun ha => ?_, fun ha hb => ?_⟩
  · obtain ⟨u1, h1⟩ := memWrite_of_mapped ha v
    obtain ⟨u2, h2⟩ := memWrite_of_mapped ((mapped_after_memWrite h1 b).2 hb) w
    refine ⟨u1, u2, h1, h2, memWrite_onlyStored h1, memWrite_onlyStored h2, ?_⟩
    rw [h, h1, Access.ok_bind, h2]
    exact congrArg _ (hg u1 u2 h1 h2)
  · rw [h, memWrite_of_not_mapped ha]
    rfl
  · obtain ⟨u1, h1⟩ := memWrite_of_mapped ha v
    rw [h, h1, Access.ok_bind, memWrite_of_not_mapped (fun hm => hb ((mapped_after_memWrite h1 b).1 hm))]
    rfl

/-! ### Time -/

/-- `Advance` changes the counter and the request flags, nothing else. -/
theorem advance_eq (s : State) :
    advance s =
      (s.setDot (nextDot s.dot s.cycles)).setIrq
        (if entersVblank s.dot (nextDot s.dot s.cycles) then s.irq ||| IrqKind.verticalBlank.bit else s.irq) := by
  simp only [advance]
  cases entersVblank s.dot (nextDot s.dot s.cycles) <;> rfl

@[simp] theorem advance_regs (s : State) : (advance s).regs = s.regs := by rw [advance_eq]; rfl
@[simp] theorem advance_flags (s : State) : (advance s).flags = s.flags := by rw [advance_eq]; rfl
@[simp] theorem advance_sp (s : State) : (advance s).sp = s.sp := by rw [advance_eq]; rfl
@[simp] theorem advance_pc (s : State) : (advance s).pc = s.pc := by rw [advance_eq]; rfl
@[simp] theorem advance_ime (s : State) : (advance s).ime = s.ime := by rw [advance_eq]; rfl
@[simp] theorem advance_eiPending (s : State) : (advance s).eiPending = s.eiPending := by rw [advance_eq]; rfl
@[simp] theorem advance_halted (s : State) : (advance s).halted = s.halted := by rw [advance_eq]; rfl
@[simp] theorem advance_ie (s : State) : (advance s).ie = s.ie := by rw [advance_eq]; rfl
@[simp] theorem advance_ram (s : State) : (advance s).ram = s.ram := by rw [advance_eq]; rfl
@[simp] theorem advance_cart (s : State) : (advance s).cart = s.cart := by rw [advance_eq]; rfl
@[simp] theorem advance_dot (s : State) : (advance s).dot = nextDot s.dot s.cycles := by rw [advance_eq]; rfl
@[simp] theorem advance_lcd (s : State) : (advance s).lcd = s.lcd := by rw [advance_eq]; rfl
@[simp] theorem advance_cycles (s : State) : (advance s).cycles = s.cycles := by rw [advance_eq]; rfl
@[simp] theorem advance_config (s : State) : (advance s).config = s.config := by rw [advance_eq]; rfl

/-! ### Interrupts -/

/-- `firstPending` names a pending kind, and no kind with a lower number is pending. -/
theorem firstPending_eq_some {p : BitVec 5} {k : IrqKind} :
    firstPending p = some k ↔ p.getLsbD k.index = true ∧ ∀ j, j < k.index → p.getLsbD j = false := by
  revert p k
  have : ∀ p : BitVec 5, ∀ k ∈ [IrqKind.verticalBlank, .displayStatus, .timer, .serial, .joypad],
      firstPending p = some k ↔ p.getLsbD k.index = true ∧ ∀ j, j < k.index → p.getLsbD j = false := by decide
  intro p k
  exact this p k (by cases k <;> decide)

theorem firstPending_eq_none {p : BitVec 5} : firstPending p = none ↔ p = 0 := by
  revert p
  decide

end Sys2Proof.Machine
end

