-- ==== Sys2Proof/Laws/Exec.lean ====
section
/-! SUPPORT. Everything an instruction can do to the bus, said once: it changes fields outside the bus and it makes single-byte stores
at the addresses of its footprint. Every property that both keep is kept by every instruction. -/

namespace Sys2Proof.Machine

/-- The fields of the bus are the same: memories, cartridge, display registers, `dot`, `IF`, `IE`, and the parameters. -/
structure SameBus (s t : State) : Prop where
  ram : t.ram = s.ram
  cart : t.cart = s.cart
  lcd : t.lcd = s.lcd
  dot : t.dot = s.dot
  irq : t.irq = s.irq
  ie : t.ie = s.ie
  config : t.config = s.config

/-- `t` comes from `s` by changes outside the bus and single-byte stores at some of the addresses `places`. -/
inductive BusSteps (places : List Word) : State → State → Prop where
  | cpu {s t : State} (h : SameBus s t) : BusSteps places s t
  | store {s t : State} {a : Word} {v : Byte} (h : memWrite s a v = .ok t) (ha : a ∈ places) : BusSteps places s t
  | trans {s t u : State} (h : BusSteps places s t) (h' : BusSteps places t u) : BusSteps places s u

/-- Changing the fields outside the bus keeps the bus: every named update of one of them is of this form. -/
theorem SameBus.updated (s : State) (regs : Regs) (flags : Flags) (sp pc : Word) (ime ei halted : Bool) (cycles : Nat) :
    SameBus s
      { s with regs := regs, flags := flags, sp := sp, pc := pc, ime := ime, eiPending := ei, halted := halted, cycles := cycles } :=
  ⟨rfl, rfl, rfl, rfl, rfl, rfl, rfl⟩

theorem SameBus.refl (s : State) : SameBus s s := .updated ..

theorem SameBus.trans {s t u : State} (h : SameBus s t) (h' : SameBus t u) : SameBus s u :=
  ⟨h'.ram.trans h.ram, h'.cart.trans h.cart, h'.lcd.trans h.lcd, h'.dot.trans h.dot, h'.irq.trans h.irq, h'.ie.trans h.ie,
    h'.config.trans h.config⟩

theorem SameBus.memRead {s t : State} (h : SameBus s t) (a : Word) : memRead t a = memRead s a :=
  memRead_congr h.cart h.ram h.lcd h.dot h.irq h.ie h.config a

theorem setReg_bus (s : State) (r : Reg8) (v : Byte) : SameBus s (s.setReg r v) := .updated ..

theorem setR16_bus (s : State) (p : Reg16) (v : Word) : SameBus s (s.setR16 p v) := by
  cases p <;> exact .updated ..

theorem setStk16_bus (s : State) (p : Stk16) (v : Word) : SameBus s (s.setStk16 p v) := by
  cases p <;> exact .updated ..

/-! ### A completed result reaches its state by bus steps; one without a store keeps the bus -/

theorem next_bus {s t u : State} (he : Host.Outcome.next (φ := Fault) (ρ := Refusal) t = .next u) (h : SameBus s t) :
    SameBus s u := by
  cases he
  exact h

theorem load_bus {s u : State} {a : Word} {c : Nat} {g : Byte → State} (hg : ∀ v, SameBus s (g v))
    (h : costing c (memRead s a >>= fun v => pure (g v)) = .next u) : SameBus s u := by
  obtain ⟨w, hw, rfl⟩ := costing_eq_next.1 h
  obtain ⟨v, -, hv⟩ := Access.bind_eq_ok.1 hw
  cases hv
  exact (hg v).trans (.updated ..)

theorem pop_bus {s u : State} {c : Nat} {g : Word × State → State} (hg : ∀ v, SameBus s (g (v, s.setSp (s.sp + 2))))
    (h : costing c (pop16 s >>= fun x => pure (g x)) = .next u) : SameBus s u := by
  obtain ⟨w, hw, rfl⟩ := costing_eq_next.1 h
  rw [pop16_eq] at hw
  obtain ⟨x, hx, hw⟩ := Access.bind_eq_ok.1 hw
  obtain ⟨lo, -, hx⟩ := Access.bind_eq_ok.1 hx
  obtain ⟨hi, -, hx⟩ := Access.bind_eq_ok.1 hx
  cases hx
  cases hw
  exact (hg _).trans (.updated ..)

theorem store_steps {s u : State} {a : Word} {v : Byte} {c : Nat} {g : State → State} {places : List Word}
    (hg : ∀ t, SameBus t (g t)) (h : costing c (memWrite s a v >>= fun t => pure (g t)) = .next u) (ha : a ∈ places) :
    BusSteps places s u := by
  obtain ⟨w, hw, rfl⟩ := costing_eq_next.1 h
  obtain ⟨t, ht, hw⟩ := Access.bind_eq_ok.1 hw
  cases hw
  exact .trans (.store ht ha) (.cpu ((hg t).trans (.updated ..)))

theorem plainStore_steps {s u : State} {a : Word} {v : Byte} {c : Nat} {places : List Word}
    (h : costing c (memWrite s a v) = .next u) (ha : a ∈ places) : BusSteps places s u := by
  obtain ⟨w, hw, rfl⟩ := costing_eq_next.1 h
  exact .trans (.store hw ha) (.cpu (.updated ..))

/-- A push stores at `sp - 1` and `sp - 2` of the state before it. -/
theorem push16_steps {v : Word} {s t : State} {places : List Word} (h : push16 v s = .ok t) (hhi : s.sp - 1 ∈ places)
    (hlo : s.sp - 2 ∈ places) : BusSteps places s t := by
  rw [push16_eq] at h
  cases hb : memWrite s (s.sp - 1) (hiByte v) >>= fun u => memWrite u (s.sp - 2) (loByte v) with
  | error e =>
    rw [hb] at h
    cases h
  | ok w =>
    rw [hb] at h
    cases h
    obtain ⟨u, hu, hw⟩ := Access.bind_eq_ok.1 hb
    exact .trans (.store hu hhi) (.trans (.store hw hlo) (.cpu (.updated ..)))

theorem callTo_steps {target : Word} {s u : State} {c : Nat} {places : List Word}
    (h : costing c (callTo target s) = .next u) (hhi : s.sp - 1 ∈ places) (hlo : s.sp - 2 ∈ places) : BusSteps places s u := by
  obtain ⟨w, hw, rfl⟩ := costing_eq_next.1 h
  obtain ⟨t, ht, hw⟩ := Access.bind_eq_ok.1 hw
  cases hw
  exact .trans (push16_steps ht hhi hlo) (.cpu (.updated ..))

theorem popPc_bus {s u : State} {c : Nat} (h : costing c (popPc s) = .next u) : SameBus s u :=
  pop_bus (g := fun x => x.2.setPc x.1) (fun _ => (.updated ..)) h

/-- A write to an operand stores only where the operand is the byte at HL. -/
theorem writeOperand_steps {s t : State} {v : Operand8} {x : Byte} {places : List Word} (h : writeOperand s v x = .ok t)
    (ha : v = .hlInd → s.hl ∈ places) : BusSteps places s t := by
  cases v with
  | reg r => cases h; exact .cpu (setReg_bus s r _)
  | hlInd => exact .store h (ha rfl)

theorem rewrite_steps {s u : State} {v : Operand8} {c : Nat} {f : Byte → Byte} {g : Byte → State → State} {places : List Word}
    (hg : ∀ x t, SameBus t (g x t)) (ha : v = .hlInd → s.hl ∈ places)
    (h : costing c (readOperand s v >>= fun x => writeOperand s v (f x) >>= fun t => pure (g x t)) = .next u) :
    BusSteps places s u := by
  obtain ⟨w, hw, rfl⟩ := costing_eq_next.1 h
  obtain ⟨x, -, hw⟩ := Access.bind_eq_ok.1 hw
  obtain ⟨t, ht, hw⟩ := Access.bind_eq_ok.1 hw
  cases hw
  exact .trans (writeOperand_steps ht ha) (.cpu ((hg x t).trans (.updated ..)))

theorem stepOperand_steps {op : Byte → Flags → AluOut} {v : Operand8} {c : Nat} {s u : State} {places : List Word}
    (ha : v = .hlInd → s.hl ∈ places) (h : stepOperand op v c s = .next u) : BusSteps places s u :=
  rewrite_steps (f := fun x => (op x s.flags).value) (g := fun x t => t.setFlags (op x s.flags).flags)
    (fun _ _ => (.updated ..)) ha h

theorem rotateOperand_steps {op : Byte → Bool → ShiftOut} {v : Operand8} {c : Nat} {s u : State} {places : List Word}
    (ha : v = .hlInd → s.hl ∈ places) (h : rotateOperand op v c s = .next u) : BusSteps places s u :=
  rewrite_steps (f := fun x => (op x s.flags.c).value) (g := fun x t => t.setFlags (cbRotateFlags (op x s.flags.c)))
    (fun _ _ => (.updated ..)) ha h

theorem changeBit_steps {op : Byte → Byte} {v : Operand8} {c : Nat} {s u : State} {places : List Word}
    (ha : v = .hlInd → s.hl ∈ places) (h : changeBit op v c s = .next u) : BusSteps places s u := by
  obtain ⟨w, hw, rfl⟩ := costing_eq_next.1 h
  obtain ⟨x, -, hw⟩ := Access.bind_eq_ok.1 hw
  exact .trans (writeOperand_steps hw ha) (.cpu (.updated ..))

theorem testBit_bus {b : U3} {v : Operand8} {c : Nat} {s u : State} (h : testBit b v c s = .next u) : SameBus s u := by
  cases v with
  | reg r => exact next_bus (t := (s.setFlags (bitFlags b (s.reg r) s.flags)).setCycles c) h (.updated ..)
  | hlInd => exact load_bus (g := fun x => s.setFlags (bitFlags b x s.flags)) (fun _ => (.updated ..)) h

theorem aluHl_bus {op : Byte → Byte → Flags → AluOut} {c : Nat} {s u : State} (h : aluHl op c s = .next u) : SameBus s u :=
  load_bus (g := fun v => s.setA (op s.regs.a v s.flags)) (fun _ => (.updated ..)) h

theorem aluValue_bus {op : Byte → Byte → Flags → AluOut} {v : Byte} {c : Nat} {s u : State} (h : aluValue op v c s = .next u) :
    SameBus s u := next_bus h (.updated ..)

theorem loadA_bus {a : Word} {c : Nat} {s u : State} (h : loadA a c s = .next u) : SameBus s u :=
  load_bus (g := fun v => s.setReg .a v) (fun _ => (.updated ..)) h

/-! ### Every instruction -/

/-- The meaning of `PREFIX CB` is that of the instruction its sub-opcode selects. -/
theorem exec_prefixCb (sub : Byte) (s : State) : exec (.prefixCb sub) s = exec (decodeCb sub) s := by
  show execPrefixCb sub s = _
  unfold execPrefixCb decodeCb
  cases cbOp sub <;> cases cbOperand sub <;> rfl

theorem cbForm_steps {op : CbOp} {v : Operand8} {s u : State} {places : List Word} (ha : v = .hlInd → s.hl ∈ places)
    (h : exec (cbForm op v) s = .next u) : BusSteps places s u := by
  cases op with
  | rlc =>
    cases v with
    | reg r => exact rotateOperand_steps (op := rotRlc) (v := .reg r) ha h
    | hlInd => exact rotateOperand_steps (op := rotRlc) (v := .hlInd) ha h
  | rrc =>
    cases v with
    | reg r => exact rotateOperand_steps (op := rotRrc) (v := .reg r) ha h
    | hlInd => exact rotateOperand_steps (op := rotRrc) (v := .hlInd) ha h
  | rl =>
    cases v with
    | reg r => exact rotateOperand_steps (op := rotRl) (v := .reg r) ha h
    | hlInd => exact rotateOperand_steps (op := rotRl) (v := .hlInd) ha h
  | rr =>
    cases v with
    | reg r => exact rotateOperand_steps (op := rotRr) (v := .reg r) ha h
    | hlInd => exact rotateOperand_steps (op := rotRr) (v := .hlInd) ha h
  | sla =>
    cases v with
    | reg r => exact rotateOperand_steps (op := shiftSla) (v := .reg r) ha h
    | hlInd => exact rotateOperand_steps (op := shiftSla) (v := .hlInd) ha h
  | sra =>
    cases v with
    | reg r => exact rotateOperand_steps (op := shiftSra) (v := .reg r) ha h
    | hlInd => exact rotateOperand_steps (op := shiftSra) (v := .hlInd) ha h
  | swap =>
    cases v with
    | reg r => exact rotateOperand_steps (op := swapNibbles) (v := .reg r) ha h
    | hlInd => exact rotateOperand_steps (op := swapNibbles) (v := .hlInd) ha h
  | srl =>
    cases v with
    | reg r => exact rotateOperand_steps (op := shiftSrl) (v := .reg r) ha h
    | hlInd => exact rotateOperand_steps (op := shiftSrl) (v := .hlInd) ha h
  | bit b =>
    cases v with
    | reg r => exact .cpu (testBit_bus (b := b) (v := .reg r) h)
    | hlInd => exact .cpu (testBit_bus (b := b) (v := .hlInd) h)
  | res b =>
    cases v with
    | reg r => exact changeBit_steps (op := resBit b) (v := .reg r) ha h
    | hlInd => exact changeBit_steps (op := resBit b) (v := .hlInd) ha h
  | set b =>
    cases v with
    | reg r => exact changeBit_steps (op := setBit b) (v := .reg r) ha h
    | hlInd => exact changeBit_steps (op := setBit b) (v := .hlInd) ha h

/-- An instruction stores at most at the addresses of its footprint, in the state it executes in. -/
theorem exec_busSteps {i : Instr} {s u : State} (h : exec i s = .next u) :
    BusSteps ((footprint i).stores.map (·.addr s)) s u := by
  cases i
  case prefixCb sub => rw [exec_prefixCb] at h; exact cbForm_steps (fun _ => .head _) h
  case halt =>
    change execHalt s = .next u at h
    unfold execHalt at h
    split at h
    · cases h
    · exact .cpu (next_bus h (.updated ..))
  case jpCcNn cc nn =>
    change execJpCcNn cc nn s = .next u at h
    unfold execJpCcNn at h
    split at h <;> exact .cpu (next_bus h (.updated ..))
  case jrCcE cc e =>
    change execJrCcE cc e s = .next u at h
    unfold execJrCcE at h
    split at h <;> exact .cpu (next_bus h (.updated ..))
  case callCcNn cc nn =>
    change execCallCcNn cc nn s = .next u at h
    unfold execCallCcNn at h
    split at h
    · exact callTo_steps h (.head _) (.tail _ (.head _))
    · exact .cpu (next_bus h (.updated ..))
  case retCc cc =>
    change execRetCc cc s = .next u at h
    unfold execRetCc at h
    split at h
    · exact .cpu (popPc_bus h)
    · exact .cpu (next_bus h (.updated ..))
  case reti =>
    obtain ⟨w, hw, rfl⟩ := costing_eq_next.1 h
    obtain ⟨t, ht, hw⟩ := Access.bind_eq_ok.1 hw
    cases hw
    have := popPc_bus (c := 0) (s := s) (u := t.setCycles 0) (by rw [ht]; rfl)
    exact .cpu (this.trans (.updated ..))
  case pushRr p =>
    obtain ⟨w, hw, rfl⟩ := costing_eq_next.1 h
    exact .trans (push16_steps hw (.head _) (.tail _ (.head _))) (.cpu (.updated ..))
  case popRr p =>
    exact .cpu (pop_bus (g := fun x => x.2.setStk16 p x.1)
      (fun v => SameBus.trans (t := s.setSp (s.sp + 2)) (.updated ..) (setStk16_bus _ p v)) h)
  case ldNnSp nn =>
    obtain ⟨w, hw, rfl⟩ := costing_eq_next.1 h
    obtain ⟨t, ht, hw⟩ := Access.bind_eq_ok.1 hw
    exact .trans (.trans (.store ht (.head _)) (.store hw (.tail _ (.head _)))) (.cpu (.updated ..))
  case ldRrNn p nn => exact .cpu (next_bus h ((setR16_bus s p nn).trans (.updated ..)))
  case incRr p => exact .cpu (next_bus h ((setR16_bus s p _).trans (.updated ..)))
  case decRr p => exact .cpu (next_bus h ((setR16_bus s p _).trans (.updated ..)))
  case callNn nn => exact callTo_steps h (.head _) (.tail _ (.head _))
  case rst t => exact callTo_steps h (.head _) (.tail _ (.head _))
  case ret => exact .cpu (popPc_bus h)
  case ldRHl r => exact .cpu (load_bus (g := fun v => s.setReg r v) (fun v => setReg_bus s r v) h)
  case ldHliA => exact store_steps (g := fun t => t.setHl (t.hl + 1)) (fun _ => (.updated ..)) h (.head _)
  case ldHldA => exact store_steps (g := fun t => t.setHl (t.hl - 1)) (fun _ => (.updated ..)) h (.head _)
  case ldAHli =>
    exact .cpu (load_bus (g := fun v => (s.setReg .a v).setHl (s.hl + 1)) (fun _ => (.updated ..)) h)
  case ldAHld =>
    exact .cpu (load_bus (g := fun v => (s.setReg .a v).setHl (s.hl - 1)) (fun _ => (.updated ..)) h)
  case rlcR r => exact cbForm_steps (op := .rlc) (v := .reg r) nofun h
  case rlcHl => exact cbForm_steps (op := .rlc) (v := .hlInd) (fun _ => .head _) h
  case rrcR r => exact cbForm_steps (op := .rrc) (v := .reg r) nofun h
  case rrcHl => exact cbForm_steps (op := .rrc) (v := .hlInd) (fun _ => .head _) h
  case rlR r => exact cbForm_steps (op := .rl) (v := .reg r) nofun h
  case rlHl => exact cbForm_steps (op := .rl) (v := .hlInd) (fun _ => .head _) h
  case rrR r => exact cbForm_steps (op := .rr) (v := .reg r) nofun h
  case rrHl => exact cbForm_steps (op := .rr) (v := .hlInd) (fun _ => .head _) h
  case slaR r => exact cbForm_steps (op := .sla) (v := .reg r) nofun h
  case slaHl => exact cbForm_steps (op := .sla) (v := .hlInd) (fun _ => .head _) h
  case sraR r => exact cbForm_steps (op := .sra) (v := .reg r) nofun h
  case sraHl => exact cbForm_steps (op := .sra) (v := .hlInd) (fun _ => .head _) h
  case swapR r => exact cbForm_steps (op := .swap) (v := .reg r) nofun h
  case swapHl => exact cbForm_steps (op := .swap) (v := .hlInd) (fun _ => .head _) h
  case srlR r => exact cbForm_steps (op := .srl) (v := .reg r) nofun h
  case srlHl => exact cbForm_steps (op := .srl) (v := .hlInd) (fun _ => .head _) h
  case bitR b r => exact cbForm_steps (op := .bit b) (v := .reg r) nofun h
  case bitHl b => exact .cpu (testBit_bus (b := b) (v := .hlInd) h)
  case resR b r => exact cbForm_steps (op := .res b) (v := .reg r) nofun h
  case resHl b => exact cbForm_steps (op := .res b) (v := .hlInd) (fun _ => .head _) h
  case setR b r => exact cbForm_steps (op := .set b) (v := .reg r) nofun h
  case setHl b => exact cbForm_steps (op := .set b) (v := .hlInd) (fun _ => .head _) h
  case incR r => exact stepOperand_steps (op := inc8) (v := .reg r) nofun h
  case incHl => exact stepOperand_steps (op := inc8) (v := .hlInd) (fun _ => .head _) h
  case decR r => exact stepOperand_steps (op := dec8) (v := .reg r) nofun h
  case decHl => exact stepOperand_steps (op := dec8) (v := .hlInd) (fun _ => .head _) h
  all_goals first
    | (cases h; done)
    | exact plainStore_steps h (.head _)
    | exact .cpu (aluHl_bus h)
    | exact .cpu (loadA_bus h)
    | exact .cpu (next_bus h (.updated ..))

/-- No instruction is refused. -/
theorem exec_ne_refused (i : Instr) (s : State) (q : Refusal) : exec i s ≠ .refused q := by
  have hcb : ∀ op v, exec (cbForm op v) s ≠ .refused q := by
    intro op v
    cases op <;> cases v <;> first
      | exact fun h => by cases h
      | exact costing_ne_refused _ _ _
  cases i
  case prefixCb sub => rw [exec_prefixCb]; exact hcb _ _
  case halt => show execHalt s ≠ _; unfold execHalt; split <;> simp
  case jpCcNn cc nn => show execJpCcNn cc nn s ≠ _; unfold execJpCcNn; split <;> simp
  case jrCcE cc e => show execJrCcE cc e s ≠ _; unfold execJrCcE; split <;> simp
  case callCcNn cc nn =>
    show execCallCcNn cc nn s ≠ _; unfold execCallCcNn; split
    · exact costing_ne_refused _ _ _
    · simp
  case retCc cc =>
    show execRetCc cc s ≠ _; unfold execRetCc; split
    · exact costing_ne_refused _ _ _
    · simp
  all_goals first
    | exact fun h => by cases h
    | exact costing_ne_refused _ _ _

/-! ### Consequences -/

theorem BusSteps.config {s t : State} {places : List Word} (h : BusSteps places s t) : t.config = s.config := by
  induction h with
  | cpu h => exact h.config
  | store h _ => exact (memWrite_core h).config
  | trans _ _ h h' => exact h'.trans h

/-- Only a store to LY moves `dot`, to 0 (R351). -/
theorem BusSteps.dot {s t : State} {places : List Word} (h : BusSteps places s t) :
    t.dot = s.dot ∨ 0xFF44 ∈ places ∧ t.dot = 0 := by
  induction h with
  | cpu h => exact .inl h.dot
  | store h ha => exact (memWrite_dot h).imp_right fun ⟨e, hd⟩ => ⟨e ▸ ha, hd⟩
  | trans _ _ h h' => exact h'.elim (fun e => by rw [e]; exact h) .inr

theorem BusSteps.image {s t : State} {places : List Word} (h : BusSteps places s t) : SameImage s t := by
  induction h with
  | cpu h => exact ⟨by rw [h.cart], by rw [h.cart], by rw [h.cart], by rw [h.cart]⟩
  | store h _ => exact memWrite_image h
  | trans _ _ h h' => exact h.trans h'

theorem BusSteps.mapped {s t : State} {places : List Word} (h : BusSteps places s t) (a : Word) : Mapped t a ↔ Mapped s a := by
  rw [Mapped, Mapped, h.config]

end Sys2Proof.Machine
end

