-- ==== Sys2Proof/Laws/Frame.lean ====
section
/-! SUPPORT. What an instruction leaves alone on the bus: the blocks and the registers that its stores avoid, and every address that
none of its stores touches. -/

namespace Sys2Proof.Machine

/-! ### Blocks and registers -/

theorem KeepsElsewhere.of_sameBus {places : List Word} {s t : State} (h : SameBus s t) : KeepsElsewhere places s t where
  latches _ := by rw [h.cart]; exact ⟨rfl, rfl, rfl, rfl⟩
  vram _ := by rw [h.ram]
  cartRam _ := by rw [h.cart]
  wram _ := by rw [h.ram]; exact ⟨rfl, rfl⟩
  oam _ := by rw [h.ram]
  irq _ := h.irq
  lcd _ := h.lcd
  dot _ := h.dot
  hram _ := by rw [h.ram]
  ie _ := h.ie

theorem KeepsElsewhere.trans {places : List Word} {s t u : State} (h : KeepsElsewhere places s t)
    (h' : KeepsElsewhere places t u) : KeepsElsewhere places s u where
  latches ha := by
    obtain ⟨e1, e2, e3, e4⟩ := h.latches ha
    obtain ⟨f1, f2, f3, f4⟩ := h'.latches ha
    exact ⟨f1.trans e1, f2.trans e2, f3.trans e3, f4.trans e4⟩
  vram ha := (h'.vram ha).trans (h.vram ha)
  cartRam ha := (h'.cartRam ha).trans (h.cartRam ha)
  wram ha := ⟨(h'.wram ha).1.trans (h.wram ha).1, (h'.wram ha).2.trans (h.wram ha).2⟩
  oam ha := (h'.oam ha).trans (h.oam ha)
  irq ha := (h'.irq ha).trans (h.irq ha)
  lcd ha := (h'.lcd ha).trans (h.lcd ha)
  dot ha := (h'.dot ha).trans (h.dot ha)
  hram ha := (h'.hram ha).trans (h.hram ha)
  ie ha := (h'.ie ha).trans (h.ie ha)

/-- An address of an owner's range is not away from it. -/
theorem Away.absurd {places : List Word} {lo hi : Nat} {a : Word} {p : Prop} (h : Away places lo hi) (ha : a ∈ places)
    (hr : lo ≤ a.toNat ∧ a.toNat ≤ hi) : p := by
  have := h a ha
  omega

/-- A latch store leaves the RAM, and a store to the RAM leaves the latches. -/
theorem Cart.writeRom_ram (c : Cart) (n : Nat) (v : Byte) : (c.writeRom n v).ram = c.ram := (c.writeRom_image n v).2.2.2.2

theorem Cart.writeRam_latches (c : Cart) (bankSize k : Nat) (v : Byte) :
    (c.writeRam bankSize k v).ramEn = c.ramEn ∧ (c.writeRam bankSize k v).bankLo = c.bankLo ∧
      (c.writeRam bankSize k v).bankHi = c.bankHi ∧ (c.writeRam bankSize k v).mode = c.mode := by
  unfold Cart.writeRam
  split <;> exact ⟨rfl, rfl, rfl, rfl⟩

theorem memWrite_keepsElsewhere {places : List Word} {s t : State} {a : Word} {v : Byte} (h : memWrite s a v = .ok t)
    (ha : a ∈ places) : KeepsElsewhere places s t := by
  have h := memWrite_eq_ok.1 h
  have ho := owner_spans a
  generalize owner a = o at h ho
  cases o <;> simp only [State.ownerWrite] at h <;> try split at h
  all_goals cases h
  case cartRom n =>
    constructor
    case latches => exact fun h => h.absurd ha ho
    case cartRam => exact fun _ => s.cart.writeRom_ram n v
    case wram => exact fun _ => ⟨rfl, rfl⟩
    all_goals exact fun _ => rfl
  case cartRam k =>
    constructor
    case latches => exact fun _ => s.cart.writeRam_latches s.config.ramBankSize k v
    case cartRam => exact fun h => h.absurd ha ho
    case wram => exact fun _ => ⟨rfl, rfl⟩
    all_goals exact fun _ => rfl
  case lcd r =>
    cases r
    all_goals
      constructor
      case latches => exact fun _ => ⟨rfl, rfl, rfl, rfl⟩
      case wram => exact fun _ => ⟨rfl, rfl⟩
      all_goals first
        | exact fun _ => rfl
        | exact fun h => h.absurd ha ho
  all_goals
    constructor
    case latches => exact fun _ => ⟨rfl, rfl, rfl, rfl⟩
    all_goals first
      | exact fun _ => rfl
      | exact fun _ => ⟨rfl, rfl⟩
      | exact fun h => h.absurd ha ho

theorem BusSteps.keepsElsewhere {places : List Word} {s t : State} (h : BusSteps places s t) : KeepsElsewhere places s t := by
  induction h with
  | cpu h => exact .of_sameBus h
  | store h ha => exact memWrite_keepsElsewhere h ha
  | trans _ _ h h' => exact h.trans h'

/-! ### Reads -/

/-- No store to a latch stands beside one to the RAM that the latch selects. -/
def Unmixed (places : List Word) : Prop := Away places 0x0000 0x7FFF ∨ Away places 0xA000 0xBFFF

theorem owner_cartRam_range {a : Word} {k : Nat} (h : owner a = .cartRam k) : 0xA000 ≤ a.toNat ∧ a.toNat ≤ 0xBFFF := by
  have := owner_spans a
  rw [h] at this
  exact this

/-- What a store touches depends on the construction of the cartridge and, for its RAM, on the latches. -/
theorem touches_congr {s t : State} (hi : SameImage s t) (hc : t.config = s.config) {b : Word}
    (hl : 0xA000 ≤ b.toNat ∧ b.toNat ≤ 0xBFFF → t.cart.ramEn = s.cart.ramEn ∧ t.cart.bankHi = s.cart.bankHi ∧
      t.cart.mode = s.cart.mode) (x : Word) : touches t b x = touches s b x := by
  have hb := @owner_cartRam_range b
  unfold touches
  generalize owner b = o at hb
  generalize owner x = o'
  cases o
  case cartRom n => cases o' <;> simp only [hi.variant]
  case cartRam k =>
    obtain ⟨h1, h2, h3⟩ := hl (hb rfl)
    have hs : t.cart.ramShown = s.cart.ramShown := by
      unfold Cart.ramShown
      rw [hi.variant, hi.ramSize, h1]
    have ho (k : Nat) : t.cart.ramOffset t.config.ramBankSize k = s.cart.ramOffset s.config.ramBankSize k := by
      unfold Cart.ramOffset Cart.ramBank
      rw [hi.ramSize, hc, h2, h3]
    cases o' <;> simp only [hs, ho]
  case lcd r =>
    cases o'
    case lcd r' => cases r <;> cases r' <;> rfl
    all_goals cases r <;> rfl
  all_goals rfl

/-- Steps that store at unmixed places leave every address that no store at these places touches, as the first state shows it. -/
theorem BusSteps.reads {places : List Word} {s t : State} (hu : Unmixed places) (h : BusSteps places s t) :
    ∀ x, (∀ b ∈ places, touches s b x = false) → memRead t x = memRead s x := by
  have same {s t : State} (h : BusSteps places s t) : ∀ b ∈ places, ∀ x, touches t b x = touches s b x := fun b hb x =>
    touches_congr h.image h.config (fun hr => hu.elim
      (fun hu => ⟨(h.keepsElsewhere.latches hu).1, (h.keepsElsewhere.latches hu).2.2⟩) (fun hu => hu.absurd hb hr)) x
  induction h with
  | cpu h => exact fun x _ => h.memRead x
  | store h ha => exact fun x hx => memWrite_reads h (hx _ ha)
  | trans h1 _ h h' => exact fun x hx => (h' x (fun b hb => (same h1 b hb x).trans (hx b hb))).trans (h x hx)

/-- The stores of one instruction are unmixed: two of them are at neighbouring addresses. -/
theorem footprint_unmixed (i : Instr) (s : State) : Unmixed ((footprint i).stores.map (·.addr s)) := by
  have none : Unmixed [] := .inl (fun _ h => by cases h)
  have one (a : Word) : Unmixed [a] := by
    simp only [Unmixed, Away, List.mem_singleton, forall_eq]
    omega
  have two (a b : Word) (h : b = a + 1 ∨ b = a - 1) : Unmixed [a, b] := by
    simp only [Unmixed, Away, List.mem_cons, List.not_mem_nil, or_false, forall_eq_or_imp, forall_eq]
    rcases h with rfl | rfl <;> bv_omega
  have push : Unmixed (pushPlaces.map (·.addr s)) := two _ _ (.inr (by show s.sp - 2 = s.sp - 1 - 1; bv_omega))
  cases i <;> first
    | exact none
    | exact one _
    | exact push
    | exact two _ _ (.inl rfl)

/-- Everything an instruction that completes can do on the bus: stores at the places of its footprint and nothing else. -/
theorem exec_frame {i : Instr} {s t : State} (h : exec i s = .next t) :
    KeepsElsewhere ((footprint i).stores.map (·.addr s)) s t ∧
      ∀ x, (∀ p ∈ (footprint i).stores, touches s (p.addr s) x = false) → memRead t x = memRead s x :=
  ⟨(exec_busSteps h).keepsElsewhere, fun x hx =>
    (exec_busSteps h).reads (footprint_unmixed i s) x (fun _ hb => by
      obtain ⟨p, hp, rfl⟩ := List.mem_map.1 hb
      exact hx p hp)⟩

end Sys2Proof.Machine
end

