-- ==== Sys2Proof/Laws/Owner.lean ====
section
/-! SUPPORT. The owner of every address, range by range (20_memory.md R57), and what a read or a write at an address of a known owner
answers. -/

namespace Sys2Proof.Machine

theorem owner_rom {a : Word} (h2 : a.toNat ≤ 0x7FFF) : owner a = .cartRom a.toNat := by
  unfold owner ownerAt
  rw [if_pos (by omega)]

theorem owner_vram {a : Word} (h1 : 0x8000 ≤ a.toNat) (h2 : a.toNat ≤ 0x9FFF) : owner a = .vram (a.toNat - 0x8000) := by
  unfold owner ownerAt
  repeat rw [if_neg (by omega)]
  rw [if_pos (by omega)]

theorem owner_cartRam {a : Word} (h1 : 0xA000 ≤ a.toNat) (h2 : a.toNat ≤ 0xBFFF) : owner a = .cartRam (a.toNat - 0xA000) := by
  unfold owner ownerAt
  repeat rw [if_neg (by omega)]
  rw [if_pos (by omega)]

theorem owner_wram0 {a : Word} (h1 : 0xC000 ≤ a.toNat) (h2 : a.toNat ≤ 0xCFFF) : owner a = .wram0 (a.toNat - 0xC000) := by
  unfold owner ownerAt
  repeat rw [if_neg (by omega)]
  rw [if_pos (by omega)]

theorem owner_wram1 {a : Word} (h1 : 0xD000 ≤ a.toNat) (h2 : a.toNat ≤ 0xDFFF) : owner a = .wram1 (a.toNat - 0xD000) := by
  unfold owner ownerAt
  repeat rw [if_neg (by omega)]
  rw [if_pos (by omega)]

theorem owner_mirror0 {a : Word} (h1 : 0xE000 ≤ a.toNat) (h2 : a.toNat ≤ 0xEFFF) : owner a = .wram0 (a.toNat - 0xE000) := by
  unfold owner ownerAt
  repeat rw [if_neg (by omega)]
  rw [if_pos (by omega)]

theorem owner_mirror1 {a : Word} (h1 : 0xF000 ≤ a.toNat) (h2 : a.toNat ≤ 0xFDFF) : owner a = .wram1 (a.toNat - 0xF000) := by
  unfold owner ownerAt
  repeat rw [if_neg (by omega)]
  rw [if_pos (by omega)]

theorem owner_oam {a : Word} (h1 : 0xFE00 ≤ a.toNat) (h2 : a.toNat ≤ 0xFE9F) : owner a = .oam (a.toNat - 0xFE00) := by
  unfold owner ownerAt
  repeat rw [if_neg (by omega)]
  rw [if_pos (by omega)]

theorem owner_hram {a : Word} (h1 : 0xFF80 ≤ a.toNat) (h2 : a.toNat ≤ 0xFFFE) : owner a = .hram (a.toNat - 0xFF80) := by
  unfold owner ownerAt
  repeat rw [if_neg (by omega)]
  rw [if_pos (by omega)]

/-- The mirror shares the owner, and its offset, of the work RAM (R60). -/
theorem owner_mirror {a : Word} (h1 : 0xE000 ≤ a.toNat) (h2 : a.toNat ≤ 0xFDFF) : owner a = owner (a - 0x2000) := by
  have hs : (a - 0x2000).toNat = a.toNat - 0x2000 := by bv_omega
  by_cases h : a.toNat ≤ 0xEFFF
  · rw [owner_mirror0 h1 h, owner_wram0 (by omega) (by omega), hs]
    exact congrArg Owner.wram0 (by omega)
  · rw [owner_mirror1 (by omega) h2, owner_wram1 (by omega) (by omega), hs]
    exact congrArg Owner.wram1 (by omega)

/-- A read at an address whose owner answers. -/
theorem memRead_of_owner {s : State} {a : Word} {o : Owner} {v : Byte} (h : owner a = o) (hv : s.ownerRead o = some v) :
    memRead s a = .ok v := by
  unfold memRead
  rw [h, hv]

/-- A write at an address whose owner answers. -/
theorem memWrite_of_owner {s t : State} {a : Word} {o : Owner} {v : Byte} (h : owner a = o) (ht : s.ownerWrite o v = some t) :
    memWrite s a v = .ok t := by
  unfold memWrite
  rw [h, ht]

end Sys2Proof.Machine
end

