-- ==== Sys2Proof/Laws/PerInstr.lean ====
section
/-! SUPPORT. A statement made of every instruction, one lemma per constructor: the number of bytes of its encoding is the one its
first byte alone fixes (30_encoding.md R120, R121). -/

namespace Sys2Proof.Laws.EncodedLength

/-- The number of bytes of an instruction whose opcode byte has this form. -/
def formLength (f : OpForm) : Nat :=
  match f with
  | .implied _ => 1
  | .withByte _ => 2
  | .withWord _ => 3
  | .prefixed => 2
  | .unreadByte _ => 2

/-- The length of the encoding is what its first byte says. -/
def Statement (i : Instr) : Prop := ∃ op rest, encode i = op :: rest ∧ (encode i).length = formLength (opForm op)

theorem nop : Statement .nop := ⟨_, _, rfl, rfl⟩

theorem stop : Statement .stop := ⟨_, _, rfl, rfl⟩

theorem halt : Statement .halt := ⟨_, _, rfl, rfl⟩

theorem di : Statement .di := ⟨_, _, rfl, rfl⟩

theorem ei : Statement .ei := ⟨_, _, rfl, rfl⟩

theorem prefixCb (sub : Byte) : Statement (.prefixCb sub) := ⟨_, _, rfl, rfl⟩

theorem jpNn (nn : Word) : Statement (.jpNn nn) := ⟨_, _, rfl, rfl⟩

theorem jpCcNn (cc : Cond) (nn : Word) : Statement (.jpCcNn cc nn) := by
  cases cc <;> exact ⟨_, _, rfl, rfl⟩

theorem jpHl : Statement .jpHl := ⟨_, _, rfl, rfl⟩

theorem jrE (e : Byte) : Statement (.jrE e) := ⟨_, _, rfl, rfl⟩

theorem jrCcE (cc : Cond) (e : Byte) : Statement (.jrCcE cc e) := by
  cases cc <;> exact ⟨_, _, rfl, rfl⟩

theorem callNn (nn : Word) : Statement (.callNn nn) := ⟨_, _, rfl, rfl⟩

theorem callCcNn (cc : Cond) (nn : Word) : Statement (.callCcNn cc nn) := by
  cases cc <;> exact ⟨_, _, rfl, rfl⟩

theorem ret : Statement .ret := ⟨_, _, rfl, rfl⟩

theorem retCc (cc : Cond) : Statement (.retCc cc) := by
  cases cc <;> exact ⟨_, _, rfl, rfl⟩

theorem reti : Statement .reti := ⟨_, _, rfl, rfl⟩

theorem rst (t : U3) : Statement (.rst t) := by
  fin_cases t <;> exact ⟨_, _, rfl, rfl⟩

theorem ldRR (dst : Reg8) (src : Reg8) : Statement (.ldRR dst src) := by
  cases dst <;> cases src <;> exact ⟨_, _, rfl, rfl⟩

theorem ldRHl (dst : Reg8) : Statement (.ldRHl dst) := by
  cases dst <;> exact ⟨_, _, rfl, rfl⟩

theorem ldHlR (src : Reg8) : Statement (.ldHlR src) := by
  cases src <;> exact ⟨_, _, rfl, rfl⟩

theorem ldRN (dst : Reg8) (n : Byte) : Statement (.ldRN dst n) := by
  cases dst <;> exact ⟨_, _, rfl, rfl⟩

theorem ldHlN (n : Byte) : Statement (.ldHlN n) := ⟨_, _, rfl, rfl⟩

theorem ldhNA (n : Byte) : Statement (.ldhNA n) := ⟨_, _, rfl, rfl⟩

theorem ldhAN (n : Byte) : Statement (.ldhAN n) := ⟨_, _, rfl, rfl⟩

theorem ldCA : Statement .ldCA := ⟨_, _, rfl, rfl⟩

theorem ldAC : Statement .ldAC := ⟨_, _, rfl, rfl⟩

theorem ldBcA : Statement .ldBcA := ⟨_, _, rfl, rfl⟩

theorem ldDeA : Statement .ldDeA := ⟨_, _, rfl, rfl⟩

theorem ldABc : Statement .ldABc := ⟨_, _, rfl, rfl⟩

theorem ldADe : Statement .ldADe := ⟨_, _, rfl, rfl⟩

theorem ldHliA : Statement .ldHliA := ⟨_, _, rfl, rfl⟩

theorem ldHldA : Statement .ldHldA := ⟨_, _, rfl, rfl⟩

theorem ldAHli : Statement .ldAHli := ⟨_, _, rfl, rfl⟩

theorem ldAHld : Statement .ldAHld := ⟨_, _, rfl, rfl⟩

theorem ldNnA (nn : Word) : Statement (.ldNnA nn) := ⟨_, _, rfl, rfl⟩

theorem ldANn (nn : Word) : Statement (.ldANn nn) := ⟨_, _, rfl, rfl⟩

theorem ldRrNn (p : Reg16) (nn : Word) : Statement (.ldRrNn p nn) := by
  cases p <;> exact ⟨_, _, rfl, rfl⟩

theorem ldNnSp (nn : Word) : Statement (.ldNnSp nn) := ⟨_, _, rfl, rfl⟩

theorem pushRr (p : Stk16) : Statement (.pushRr p) := by
  cases p <;> exact ⟨_, _, rfl, rfl⟩

theorem popRr (p : Stk16) : Statement (.popRr p) := by
  cases p <;> exact ⟨_, _, rfl, rfl⟩

theorem ldHlSpE (e : Byte) : Statement (.ldHlSpE e) := ⟨_, _, rfl, rfl⟩

theorem ldSpHl : Statement .ldSpHl := ⟨_, _, rfl, rfl⟩

theorem addAR (r : Reg8) : Statement (.addAR r) := by
  cases r <;> exact ⟨_, _, rfl, rfl⟩

theorem addAHl : Statement .addAHl := ⟨_, _, rfl, rfl⟩

theorem addAN (n : Byte) : Statement (.addAN n) := ⟨_, _, rfl, rfl⟩

theorem adcAR (r : Reg8) : Statement (.adcAR r) := by
  cases r <;> exact ⟨_, _, rfl, rfl⟩

theorem adcAHl : Statement .adcAHl := ⟨_, _, rfl, rfl⟩

theorem adcAN (n : Byte) : Statement (.adcAN n) := ⟨_, _, rfl, rfl⟩

theorem subAR (r : Reg8) : Statement (.subAR r) := by
  cases r <;> exact ⟨_, _, rfl, rfl⟩

theorem subAHl : Statement .subAHl := ⟨_, _, rfl, rfl⟩

theorem subAN (n : Byte) : Statement (.subAN n) := ⟨_, _, rfl, rfl⟩

theorem sbcAR (r : Reg8) : Statement (.sbcAR r) := by
  cases r <;> exact ⟨_, _, rfl, rfl⟩

theorem sbcAHl : Statement .sbcAHl := ⟨_, _, rfl, rfl⟩

theorem sbcAN (n : Byte) : Statement (.sbcAN n) := ⟨_, _, rfl, rfl⟩

theorem andAR (r : Reg8) : Statement (.andAR r) := by
  cases r <;> exact ⟨_, _, rfl, rfl⟩

theorem andAHl : Statement .andAHl := ⟨_, _, rfl, rfl⟩

theorem andAN (n : Byte) : Statement (.andAN n) := ⟨_, _, rfl, rfl⟩

theorem xorAR (r : Reg8) : Statement (.xorAR r) := by
  cases r <;> exact ⟨_, _, rfl, rfl⟩

theorem xorAHl : Statement .xorAHl := ⟨_, _, rfl, rfl⟩

theorem xorAN (n : Byte) : Statement (.xorAN n) := ⟨_, _, rfl, rfl⟩

theorem orAR (r : Reg8) : Statement (.orAR r) := by
  cases r <;> exact ⟨_, _, rfl, rfl⟩

theorem orAHl : Statement .orAHl := ⟨_, _, rfl, rfl⟩

theorem orAN (n : Byte) : Statement (.orAN n) := ⟨_, _, rfl, rfl⟩

theorem cpAR (r : Reg8) : Statement (.cpAR r) := by
  cases r <;> exact ⟨_, _, rfl, rfl⟩

theorem cpAHl : Statement .cpAHl := ⟨_, _, rfl, rfl⟩

theorem cpAN (n : Byte) : Statement (.cpAN n) := ⟨_, _, rfl, rfl⟩

theorem incR (r : Reg8) : Statement (.incR r) := by
  cases r <;> exact ⟨_, _, rfl, rfl⟩

theorem incHl : Statement .incHl := ⟨_, _, rfl, rfl⟩

theorem decR (r : Reg8) : Statement (.decR r) := by
  cases r <;> exact ⟨_, _, rfl, rfl⟩

theorem decHl : Statement .decHl := ⟨_, _, rfl, rfl⟩

theorem cpl : Statement .cpl := ⟨_, _, rfl, rfl⟩

theorem daa : Statement .daa := ⟨_, _, rfl, rfl⟩

theorem scf : Statement .scf := ⟨_, _, rfl, rfl⟩

theorem ccf : Statement .ccf := ⟨_, _, rfl, rfl⟩

theorem incRr (p : Reg16) : Statement (.incRr p) := by
  cases p <;> exact ⟨_, _, rfl, rfl⟩

theorem decRr (p : Reg16) : Statement (.decRr p) := by
  cases p <;> exact ⟨_, _, rfl, rfl⟩

theorem addHlRr (p : Reg16) : Statement (.addHlRr p) := by
  cases p <;> exact ⟨_, _, rfl, rfl⟩

theorem addSpE (e : Byte) : Statement (.addSpE e) := ⟨_, _, rfl, rfl⟩

theorem rlca : Statement .rlca := ⟨_, _, rfl, rfl⟩

theorem rrca : Statement .rrca := ⟨_, _, rfl, rfl⟩

theorem rla : Statement .rla := ⟨_, _, rfl, rfl⟩

theorem rra : Statement .rra := ⟨_, _, rfl, rfl⟩

theorem rlcR (r : Reg8) : Statement (.rlcR r) := ⟨_, _, rfl, rfl⟩

theorem rlcHl : Statement .rlcHl := ⟨_, _, rfl, rfl⟩

theorem rrcR (r : Reg8) : Statement (.rrcR r) := ⟨_, _, rfl, rfl⟩

theorem rrcHl : Statement .rrcHl := ⟨_, _, rfl, rfl⟩

theorem rlR (r : Reg8) : Statement (.rlR r) := ⟨_, _, rfl, rfl⟩

theorem rlHl : Statement .rlHl := ⟨_, _, rfl, rfl⟩

theorem rrR (r : Reg8) : Statement (.rrR r) := ⟨_, _, rfl, rfl⟩

theorem rrHl : Statement .rrHl := ⟨_, _, rfl, rfl⟩

theorem slaR (r : Reg8) : Statement (.slaR r) := ⟨_, _, rfl, rfl⟩

theorem slaHl : Statement .slaHl := ⟨_, _, rfl, rfl⟩

theorem sraR (r : Reg8) : Statement (.sraR r) := ⟨_, _, rfl, rfl⟩

theorem sraHl : Statement .sraHl := ⟨_, _, rfl, rfl⟩

theorem swapR (r : Reg8) : Statement (.swapR r) := ⟨_, _, rfl, rfl⟩

theorem swapHl : Statement .swapHl := ⟨_, _, rfl, rfl⟩

theorem srlR (r : Reg8) : Statement (.srlR r) := ⟨_, _, rfl, rfl⟩

theorem srlHl : Statement .srlHl := ⟨_, _, rfl, rfl⟩

theorem bitR (b : U3) (r : Reg8) : Statement (.bitR b r) := ⟨_, _, rfl, rfl⟩

theorem bitHl (b : U3) : Statement (.bitHl b) := ⟨_, _, rfl, rfl⟩

theorem resR (b : U3) (r : Reg8) : Statement (.resR b r) := ⟨_, _, rfl, rfl⟩

theorem resHl (b : U3) : Statement (.resHl b) := ⟨_, _, rfl, rfl⟩

theorem setR (b : U3) (r : Reg8) : Statement (.setR b r) := ⟨_, _, rfl, rfl⟩

theorem setHl (b : U3) : Statement (.setHl b) := ⟨_, _, rfl, rfl⟩

theorem illegalD3 : Statement .illegalD3 := ⟨_, _, rfl, rfl⟩

theorem illegalDB : Statement .illegalDB := ⟨_, _, rfl, rfl⟩

theorem illegalDD : Statement .illegalDD := ⟨_, _, rfl, rfl⟩

theorem illegalE3 : Statement .illegalE3 := ⟨_, _, rfl, rfl⟩

theorem illegalE4 : Statement .illegalE4 := ⟨_, _, rfl, rfl⟩

theorem illegalEB : Statement .illegalEB := ⟨_, _, rfl, rfl⟩

theorem illegalEC : Statement .illegalEC := ⟨_, _, rfl, rfl⟩

theorem illegalED : Statement .illegalED := ⟨_, _, rfl, rfl⟩

theorem illegalF4 : Statement .illegalF4 := ⟨_, _, rfl, rfl⟩

theorem illegalFC : Statement .illegalFC := ⟨_, _, rfl, rfl⟩

theorem illegalFD : Statement .illegalFD := ⟨_, _, rfl, rfl⟩

end Sys2Proof.Laws.EncodedLength
end

