-- ==== Sys2Proof/Laws/Step.lean ====
section
/-! SUPPORT. The machine step, said once: its three kinds, what a fetch reads, and what every completed or fatal step looks like. -/

namespace Sys2Proof.Machine

/-! ### Fetching -/

/-- What the opcode byte makes of the fetches after it. -/
def fetchForm (f : OpForm) (s : State) : Access (Instr × State) :=
  match f with
  | .implied i => .ok (i, s.setPc (s.pc + 1))
  | .unreadByte i => .ok (i, s.setPc (s.pc + 1))
  | .prefixed => memRead s (s.pc + 1) >>= fun sub => .ok (decodeCb sub, s.setPc (s.pc + 2))
  | .withByte f => memRead s (s.pc + 1) >>= fun n => .ok (f n, s.setPc (s.pc + 2))
  | .withWord f =>
    memRead s (s.pc + 1) >>= fun lo => memRead s (s.pc + 2) >>= fun hi => .ok (f (joinBytes hi lo), s.setPc (s.pc + 3))

theorem pc_add_one_add_one (v : Word) : v + 1 + 1 = v + 2 := by bv_omega

theorem pc_add_two_add_one (v : Word) : v + 2 + 1 = v + 3 := by bv_omega

/-- A fetch is the reads of the instruction's bytes in address order, and `pc` moved past those read. -/
theorem fetchInstr_eq (s : State) :
    fetchInstr s =
      (memRead s s.pc >>= fun op =>
        if s.refusesTier op then .error (.unimplementedOpcode op) else fetchForm (opForm op) s) := by
  unfold fetchInstr fetch8
  cases memRead s s.pc with
  | error e => rfl
  | ok op =>
    simp only [Access.ok_bind, Access.pure_eq, Access.throw_eq]
    congr 1
    cases opForm op with
    | implied i => rfl
    | unreadByte i => rfl
    | prefixed =>
      simp only [fetchForm, memRead_setPc, State.setPc_pc, pc_add_one_add_one]
      cases memRead s (s.pc + 1) <;> rfl
    | withByte f =>
      simp only [fetchForm, memRead_setPc, State.setPc_pc, pc_add_one_add_one]
      cases memRead s (s.pc + 1) <;> rfl
    | withWord f =>
      simp only [fetchForm, fetch16, fetch8, memRead_setPc, State.setPc_pc, pc_add_one_add_one]
      cases memRead s (s.pc + 1) with
      | error e => rfl
      | ok lo =>
        simp only [Access.ok_bind, Access.pure_eq, memRead_setPc, State.setPc_pc, pc_add_two_add_one]
        cases memRead s (s.pc + 2) <;> rfl

/-- A completed fetch moves `pc` and changes nothing else. -/
theorem fetchInstr_ok {s t : State} {i : Instr} (h : fetchInstr s = .ok (i, t)) : t = s.setPc t.pc := by
  rw [fetchInstr_eq] at h
  obtain ⟨op, -, h⟩ := Access.bind_eq_ok.1 h
  split at h
  · cases h
  · cases hf : opForm op <;> rw [hf] at h <;> simp only [fetchForm] at h
    case implied => cases h; rfl
    case unreadByte => cases h; rfl
    case withWord =>
      obtain ⟨lo, -, h⟩ := Access.bind_eq_ok.1 h
      obtain ⟨hi, -, h⟩ := Access.bind_eq_ok.1 h
      cases h; rfl
    all_goals
      obtain ⟨n, -, h⟩ := Access.bind_eq_ok.1 h
      cases h; rfl

/-- A fatal fetch: an opcode that the repertoire refuses, or a read at an address that is not mapped. -/
theorem fetchInstr_error {s : State} {f : Fault} (h : fetchInstr s = .error f) :
    (∃ op, f = .unimplementedOpcode op) ∨ ∃ a, f = .unmappedAddress a .read ∧ ¬Mapped s a := by
  have hr : ∀ {a : Word}, memRead s a = .error f → ∃ a, f = .unmappedAddress a .read ∧ ¬Mapped s a := by
    intro a ha
    refine ⟨a, (memRead_eq_error.1 ha).2, fun hm => ?_⟩
    obtain ⟨v, hv⟩ := memRead_of_mapped hm
    rw [hv] at ha
    cases ha
  rw [fetchInstr_eq] at h
  rcases Access.bind_eq_error.1 h with h | ⟨op, -, h⟩
  · exact .inr (hr h)
  · split at h
    · cases h; exact .inl ⟨op, rfl⟩
    · cases hf : opForm op <;> rw [hf] at h <;> simp only [fetchForm] at h
      case implied => cases h
      case unreadByte => cases h
      case withWord =>
        rcases Access.bind_eq_error.1 h with h | ⟨lo, -, h⟩
        · exact .inr (hr h)
        · rcases Access.bind_eq_error.1 h with h | ⟨hi, -, h⟩
          · exact .inr (hr h)
          · cases h
      all_goals
        rcases Access.bind_eq_error.1 h with h | ⟨n, -, h⟩
        · exact .inr (hr h)
        · cases h

theorem refusesTier_eq_false {s : State} {op : Byte} : s.refusesTier op = false ↔ Admitted s op := by
  unfold State.refusesTier Admitted tierG
  cases s.config.repertoire <;> simp

/-- STOP is the one instruction with a byte that is not fetched. -/
theorem opForm_unreadByte {op : Byte} {i : Instr} (h : opForm op = .unreadByte i) : i = .stop := by
  have h0 : ∀ y z, formX0 y z = .unreadByte i → i = .stop := by
    intro y z
    unfold formX0
    repeat' split
    all_goals
      intro h
      first
        | (cases h; done)
        | (cases h; rfl)
  have h3 : ∀ y z, formX3 y z ≠ .unreadByte i := by
    intro y z
    unfold formX3
    repeat' split
    all_goals exact nofun
  unfold opForm at h
  split at h
  · exact h0 _ _ h
  · cases h
  · cases h
  · exact absurd h (h3 _ _)

/-- Where the bytes at `pc` are those of an instruction, the fetch gives that instruction; it does not read STOP's second byte. -/
theorem fetchInstr_of_bytes {s : State} {i : Instr} {bytes : List Byte} (hb : BytesAtPc s bytes)
    (hd : decode bytes = .ok (i, [])) (ha : ∀ op, bytes[0]? = some op → Admitted s op) (hs : i ≠ .stop) :
    fetchInstr s = .ok (i, s.setPc (s.pc + BitVec.ofNat 16 bytes.length)) := by
  cases bytes with
  | nil => cases hd
  | cons op tl =>
    have h0 : memRead s s.pc = .ok op := by simpa using hb 0 op rfl
    have hb1 : ∀ v, tl[0]? = some v → memRead s (s.pc + 1) = .ok v := fun v hv => hb 1 v (by simpa using hv)
    have hb2 : ∀ v, tl[1]? = some v → memRead s (s.pc + 2) = .ok v := fun v hv => hb 2 v (by simpa using hv)
    rw [fetchInstr_eq, h0, Access.ok_bind, refusesTier_eq_false.2 (ha op rfl)]
    cases hf : opForm op <;> simp only [decode, hf] at hd
    case implied j => cases hd; rfl
    case unreadByte j =>
      have hj : j = i := congrArg Prod.fst (Except.ok.inj hd)
      exact absurd (opForm_unreadByte hf) (hj ▸ hs)
    case prefixed =>
      split at hd <;> cases hd
      simp only [fetchForm, hb1 _ rfl, Access.ok_bind]
      rfl
    case withByte f =>
      split at hd <;> cases hd
      simp only [fetchForm, hb1 _ rfl, Access.ok_bind]
      rfl
    case withWord f =>
      split at hd <;> cases hd
      simp only [fetchForm, hb1 _ rfl, hb2 _ rfl, Access.ok_bind]
      rfl

/-! ### The three kinds of a step -/

theorem State.idles_eq_true {s : State} : s.idles = true ↔ s.halted = true ∧ s.pending = 0 := by
  simp [State.idles]

/-- A state that fetches does not idle. -/
theorem FetchesNext.idles {s : State} (h : FetchesNext s) : s.idles = false := by
  rw [Bool.eq_false_iff]
  intro hi
  obtain ⟨h1, h2⟩ := State.idles_eq_true.1 hi
  exact h.1 h1 h2

/-- A state that fetches dispatches nothing. -/
theorem FetchesNext.dispatches {s : State} (h : FetchesNext s) : (s.setHalted false).dispatches = none := by
  unfold State.dispatches
  split
  · next hime => exact firstPending_eq_none.2 (h.2 hime)
  · rfl

/-- A state that dispatches does not idle. -/
theorem State.idles_of_dispatches {s : State} {k : IrqKind} (h : s.dispatches = some k) : s.idles = false := by
  rw [Bool.eq_false_iff]
  intro hi
  unfold State.dispatches at h
  split at h
  · rw [firstPending_eq_none.2 (State.idles_eq_true.1 hi).2] at h
    cases h
  · cases h

/-- Where the step fetches, it is one instruction from the awake state. -/
theorem step_of_fetchesNext {s : State} (h : FetchesNext s) :
    step s = closeStep s.eiPending (cpuStep (s.setHalted false)) := by
  simp only [step, machineStep, h.idles, h.dispatches]
  rfl

/-- Where a kind is dispatched, the step is the dispatch. -/
theorem step_of_dispatches {s : State} {k : IrqKind} (h : s.dispatches = some k) :
    step s = closeStep false (toOutcome (dispatchInterrupt k (s.setHalted false))) := by
  have hd : (s.setHalted false).dispatches = some k := h
  simp only [step, machineStep, State.idles_of_dispatches h, hd]
  rfl

theorem step_of_idles {s : State} (h : s.idles = true) : step s = .next (advance (s.setCycles s.config.cycHaltIdle)) := by
  simp only [step, machineStep, h, if_true]

/-- Every state idles, dispatches one kind, or fetches. -/
theorem step_kinds (s : State) : s.idles = true ∨ (∃ k, s.dispatches = some k) ∨ FetchesNext s := by
  by_cases hi : s.idles = true
  · exact .inl hi
  · cases hd : s.dispatches with
    | some k => exact .inr (.inl ⟨k, rfl⟩)
    | none =>
      refine .inr (.inr ⟨fun h1 h2 => hi (State.idles_eq_true.2 ⟨h1, h2⟩), fun h => ?_⟩)
      unfold State.dispatches at hd
      rw [if_pos h] at hd
      exact firstPending_eq_none.1 hd

theorem closeStep_eq_next {was : Bool} {r : Result} {t : State} :
    closeStep was r = .next t ↔ ∃ u, r = .next u ∧ t = advance (completeEi was u) := by
  cases r <;> simp [closeStep, eq_comm]

theorem completeEi_bus (was : Bool) (t : State) : SameBus t (completeEi was t) := by
  unfold completeEi
  split <;> exact .updated ..

@[simp] theorem completeEi_cycles (was : Bool) (t : State) : (completeEi was t).cycles = t.cycles := by
  unfold completeEi
  split <;> rfl

/-- A completed dispatch has pushed `pc`. -/
theorem dispatchInterrupt_ok {k : IrqKind} {s t : State} (h : dispatchInterrupt k s = .ok t) :
    ∃ u, push16 s.pc (acknowledge k s) = .ok u ∧ t = (u.setPc k.vector).setCycles u.config.cycDispatch := by
  obtain ⟨u, hu, h⟩ := Access.bind_eq_ok.1 h
  cases h
  exact ⟨u, hu, rfl⟩

/-- A step that dispatches stores the two bytes of `pc`. -/
theorem stepStores_of_dispatches {s : State} {k : IrqKind} (h : s.dispatches = some k) :
    s.stepStores = pushPlaces.map (·.addr s) := by
  have hd : (s.setHalted false).dispatches = some k := h
  simp only [State.stepStores, State.idles_of_dispatches h, hd]
  rfl

/-- A step that fetches stores where the instruction's footprint says. -/
theorem stepStores_of_fetched {s u : State} {i : Instr} (hf : FetchesNext s) (hu : fetchInstr (s.setHalted false) = .ok (i, u)) :
    s.stepStores = (footprint i).stores.map (·.addr u) := by
  simp only [State.stepStores, hf.idles, hf.dispatches, hu]
  rfl

/-- Everything a completed step can be. -/
theorem step_next {s t : State} (h : step s = .next t) :
    (s.idles = true ∧ t = advance (s.setCycles s.config.cycHaltIdle)) ∨
    (∃ k u, s.dispatches = some k ∧ push16 s.pc (acknowledge k (s.setHalted false)) = .ok u ∧
      t = advance ((u.setPc k.vector).setCycles u.config.cycDispatch)) ∨
    ∃ i u v, FetchesNext s ∧ fetchInstr (s.setHalted false) = .ok (i, u) ∧ exec i u = .next v ∧
      t = advance (completeEi s.eiPending v) := by
  rcases step_kinds s with hi | ⟨k, hk⟩ | hf
  · rw [step_of_idles hi] at h
    cases h
    exact .inl ⟨hi, rfl⟩
  · rw [step_of_dispatches hk] at h
    obtain ⟨w, hw, rfl⟩ := closeStep_eq_next.1 h
    obtain ⟨u, hu, rfl⟩ := dispatchInterrupt_ok (toOutcome_eq_next.1 hw)
    exact .inr (.inl ⟨k, u, hk, hu, rfl⟩)
  · rw [step_of_fetchesNext hf] at h
    obtain ⟨v, hv, rfl⟩ := closeStep_eq_next.1 h
    unfold cpuStep at hv
    split at hv
    · next i u hu => exact .inr (.inr ⟨i, u, v, hf, hu, hv, rfl⟩)
    · cases hv

/-- Before its closing `Advance` a completed step has reached a state by bus steps, storing at most at `stepStores`, from one that
differs from `s` at most in `IF`. -/
theorem step_bus {s t : State} (h : step s = .next t) :
    ∃ q u, BusSteps s.stepStores (s.setIrq q) u ∧ t = advance u := by
  rcases step_next h with ⟨-, rfl⟩ | ⟨k, u, hk, hu, rfl⟩ | ⟨i, u, v, hf, hu, hv, rfl⟩
  · refine ⟨s.irq, s.setCycles s.config.cycHaltIdle, .cpu ?_, rfl⟩
    exact .updated ..
  · rw [stepStores_of_dispatches hk]
    refine ⟨s.irq &&& ~~~k.bit, _, .trans (.cpu ?_) (.trans (push16_steps hu (.head _) (.tail _ (.head _))) (.cpu ?_)), rfl⟩
    · exact .updated ..
    · exact .updated ..
  · rw [stepStores_of_fetched hf hu]
    refine ⟨s.irq, _, .trans (.cpu (t := u) ?_) (.trans (exec_busSteps hv) (.cpu (completeEi_bus _ v))), rfl⟩
    rw [fetchInstr_ok hu]
    exact .updated ..

end Sys2Proof.Machine
end

