-- ==== Sys2Proof/Tests/Slice0.lean ====
section
/-! SUPPORT. The model's own tests: the well-formedness check, decoding of words written out from the encoding lines of the
spec, single steps of 95_test_vectors.md (the vector's name stands in each comment), and a witness for every obligation that has
hypotheses. -/

namespace Sys2Proof.Tests

open Sys2Proof.Machine

/-! ### Helpers -/

/-- A field, or several, of the next state. -/
def seen {α : Type} (r : Result) (f : State → α) : Option α :=
  match r with
  | .next t => some (f t)
  | .fault _ => none
  | .refused _ => none

/-- The fault of a step that stops. -/
def stopped (r : Result) : Option Fault :=
  match r with
  | .next _ => none
  | .fault f => some f
  | .refused _ => none

/-- The state V0 of 95_test_vectors.md, part 2. -/
def v0 : State :=
  { State.reset with
    regs := { b := 0, c := 0, d := 0, e := 0, h := 0, l := 0, a := 0 }
    flags := { z := false, n := false, h := false, c := false } }

/-- V0 with these bytes at `pc`. -/
def code (bytes : List Byte) : State := v0.pokeBytes v0.pc bytes

/-- The byte that a read at the address returns. -/
def byteAt (s : State) (a : Word) : Option Byte := (memRead s a).toOption

/-- Register A, the flag byte F, `pc` and the cost of a step. -/
def aluView (s : State) : Byte × Byte × Word × Nat := (s.regs.a, s.flagByte, s.pc, s.cycles)

/-- The bytes decode to the instruction and nothing is left. -/
def spells (row : Instr × List Byte) : Bool := decide ((decode row.2).toOption = some (row.1, []))

/-! ### Well-formedness: one check, one ill-formed term -/

theorem test_wellFormed_refuses_prefix : (Instr.prefixCb 0x00).wellFormed = false := by decide

theorem test_wellFormed_admits_prefixed : (decodeCb 0x00).wellFormed = true := by decide

/-! ### Decoding: every constructor, from a word written out from the spec's encoding -/

theorem test_decode_control : (
    ([(.nop, [0b00000000]), (.stop, [0b00010000, 0x00]), (.halt, [0b01110110]), (.di, [0b11110011]),
      (.ei, [0b11111011])] : List (Instr × List Byte))).all spells = true := by
  decide

theorem test_decode_jumps : (
    ([(.jpNn 0x0150, [0b11000011, 0x50, 0x01]), (.jpCcNn .z 0x2000, [0b11001010, 0x00, 0x20]), (.jpHl, [0b11101001]),
      (.jrE 0x05, [0b00011000, 0x05]), (.jrCcE .nz 0xFC, [0b00100000, 0xFC]), (.callNn 0x1234, [0b11001101, 0x34, 0x12]),
      (.callCcNn .nc 0x4000, [0b11010100, 0x00, 0x40]), (.ret, [0b11001001])] : List (Instr × List Byte)) ++
    ([(.retCc .c, [0b11011000]), (.reti, [0b11011001]), (.rst 5, [0b11101111])]
      : List (Instr × List Byte))).all spells = true := by
  decide

theorem test_decode_load8 : (
    ([(.ldRR .d .a, [0b01010111]), (.ldRHl .a, [0b01111110]), (.ldHlR .b, [0b01110000]), (.ldRN .l 0x12, [0b00101110, 0x12]),
      (.ldHlN 0x42, [0b00110110, 0x42]), (.ldhNA 0x80, [0b11100000, 0x80]), (.ldhAN 0x81, [0b11110000, 0x81]),
      (.ldCA, [0b11100010])] : List (Instr × List Byte)) ++
    ([(.ldAC, [0b11110010]), (.ldBcA, [0b00000010]), (.ldDeA, [0b00010010]), (.ldABc, [0b00001010]), (.ldADe, [0b00011010]),
      (.ldHliA, [0b00100010]), (.ldHldA, [0b00110010]), (.ldAHli, [0b00101010])] : List (Instr × List Byte)) ++
    ([(.ldAHld, [0b00111010]), (.ldNnA 0xC200, [0b11101010, 0x00, 0xC2]),
      (.ldANn 0xE200, [0b11111010, 0x00, 0xE2])] : List (Instr × List Byte))).all spells = true := by
  decide

theorem test_decode_load16 : (
    ([(.ldRrNn .hl 0x1234, [0b00100001, 0x34, 0x12]), (.ldNnSp 0xC100, [0b00001000, 0x00, 0xC1]),
      (.pushRr .af, [0b11110101]), (.popRr .de, [0b11010001]), (.ldHlSpE 0x02, [0b11111000, 0x02]),
      (.ldSpHl, [0b11111001])] : List (Instr × List Byte))).all spells = true := by
  decide

theorem test_decode_alu8 : (
    ([(.addAR .b, [0b10000000]), (.addAHl, [0b10000110]), (.addAN 1, [0b11000110, 0x01]), (.adcAR .c, [0b10001001]),
      (.adcAHl, [0b10001110]), (.adcAN 2, [0b11001110, 0x02]), (.subAR .e, [0b10010011]),
      (.subAHl, [0b10010110])] : List (Instr × List Byte)) ++
    ([(.subAN 3, [0b11010110, 0x03]), (.sbcAR .h, [0b10011100]), (.sbcAHl, [0b10011110]), (.sbcAN 4, [0b11011110, 0x04]),
      (.andAR .l, [0b10100101]), (.andAHl, [0b10100110]), (.andAN 5, [0b11100110, 0x05]),
      (.xorAR .a, [0b10101111])] : List (Instr × List Byte)) ++
    ([(.xorAHl, [0b10101110]), (.xorAN 6, [0b11101110, 0x06]), (.orAR .c, [0b10110001]), (.orAHl, [0b10110110]),
      (.orAN 7, [0b11110110, 0x07]), (.cpAR .d, [0b10111010]), (.cpAHl, [0b10111110]),
      (.cpAN 8, [0b11111110, 0x08])] : List (Instr × List Byte)) ++
    ([(.incR .e, [0b00011100]), (.incHl, [0b00110100]), (.decR .l, [0b00101101]), (.decHl, [0b00110101]),
      (.cpl, [0b00101111]), (.daa, [0b00100111]), (.scf, [0b00110111]), (.ccf, [0b00111111])]
      : List (Instr × List Byte))).all spells = true := by
  decide

theorem test_decode_alu16 : (
    ([(.incRr .sp, [0b00110011]), (.decRr .bc, [0b00001011]), (.addHlRr .de, [0b00011001]),
      (.addSpE 0xFE, [0b11101000, 0xFE])] : List (Instr × List Byte))).all spells = true := by
  decide

theorem test_decode_rotates : (
    ([(.rlca, [0b00000111]), (.rrca, [0b00001111]), (.rla, [0b00010111]), (.rra, [0b00011111]),
      (.rlcR .b, [0xCB, 0b00000000]), (.rlcHl, [0xCB, 0b00000110]), (.rrcR .c, [0xCB, 0b00001001]),
      (.rrcHl, [0xCB, 0b00001110])] : List (Instr × List Byte)) ++
    ([(.rlR .l, [0xCB, 0b00010101]), (.rlHl, [0xCB, 0b00010110]), (.rrR .a, [0xCB, 0b00011111]), (.rrHl, [0xCB, 0b00011110]),
      (.slaR .d, [0xCB, 0b00100010]), (.slaHl, [0xCB, 0b00100110]), (.sraR .e, [0xCB, 0b00101011]),
      (.sraHl, [0xCB, 0b00101110])] : List (Instr × List Byte)) ++
    ([(.swapR .a, [0xCB, 0b00110111]), (.swapHl, [0xCB, 0b00110110]), (.srlR .h, [0xCB, 0b00111100]),
      (.srlHl, [0xCB, 0b00111110])] : List (Instr × List Byte))).all spells = true := by
  decide

theorem test_decode_bits : (
    ([(.bitR 7 .h, [0xCB, 0b01111100]), (.bitHl 4, [0xCB, 0b01100110]), (.resR 0 .a, [0xCB, 0b10000111]),
      (.resHl 3, [0xCB, 0b10011110]), (.setR 1 .c, [0xCB, 0b11001001]),
      (.setHl 7, [0xCB, 0b11111110])] : List (Instr × List Byte))).all spells = true := by
  decide

theorem test_decode_illegal : (
    ([(.illegalD3, [0xD3]), (.illegalDB, [0xDB]), (.illegalDD, [0xDD]), (.illegalE3, [0xE3]), (.illegalE4, [0xE4]),
      (.illegalEB, [0xEB]), (.illegalEC, [0xEC]), (.illegalED, [0xED])] : List (Instr × List Byte)) ++
    ([(.illegalF4, [0xF4]), (.illegalFC, [0xFC]), (.illegalFD, [0xFD])] : List (Instr × List Byte))).all spells = true := by
  decide

theorem test_decode_truncated : (decode []).toOption = none ∧ (decode [0xCB]).toOption = none ∧ (decode [0x3E]).toOption = none ∧
    (decode [0xC3, 0x00]).toOption = none := by
  decide

/-- The host's numbering of a row's word (log 10). -/
theorem test_decodeTableWord : decodeTableWord 8 0x76 = some .halt ∧ decodeTableWord 24 0x2000C3 = some (.jpNn 0x2000) ∧
    decodeTableWord 16 0x37CB = some (.swapR .a) ∧ decodeTableWord 8 0xC3 = some (.jpNn 0x0000) := by
  decide

/-- The word that the host places is the one that the next step runs (log 11). -/
theorem test_withFetchWord :
    seen (step (State.reset.withFetchWord 16 0x423E)) (fun t => (t.regs.a, t.pc)) = some (0x42, 0x0102) := by
  decide

/-! ### Single steps of 95_test_vectors.md -/

/-- vT2. -/
theorem test_halt_sets_halted : seen (step (code [0x76])) (fun t => (t.halted, t.pc, t.dot)) = some (true, 0x0101, 4) := by
  decide

/-- vT3. -/
theorem test_halt_refused : stopped (step { code [0x76] with ie := 0x01, irq := 0x01 }) = some (.unimplementedOpcode 0x76) := by
  decide

/-- vT4. -/
theorem test_dispatch_before_halt : seen (step { code [0x76] with ime := true, ie := 0x01, irq := 0x01 })
      (fun t => ((t.sp, t.pc, t.cycles), (t.ime, t.irq, byteAt t 0xFFFD))) =
    some ((0xFFFC, 0x0040, 20), (false, 0x00, some 0x01)) := by
  decide

/-- vT5. -/
theorem test_stop_fatal : stopped (step (code [0x10, 0x00])) = some (.unimplementedOpcode 0x10) := by
  decide

/-- vT8. -/
theorem test_ei_then_nop :
    seen (core.run 2 (code [0xFB, 0x00, 0x00])) (fun t => (t.pc, t.ime, t.eiPending)) = some (0x0102, true, false) := by
  decide

/-- vT9. -/
theorem test_ei_then_di :
    seen (core.run 2 (code [0xFB, 0xF3, 0x00])) (fun t => (t.pc, t.ime, t.eiPending)) = some (0x0102, false, false) := by
  decide

/-- vT12. -/
theorem test_illegal_fatal : stopped (step (code [0xD3])) = some (.unimplementedOpcode 0xD3) := by
  decide

/-- vJ3. -/
theorem test_jp_cc_not_taken :
    seen (step { code [0xC2, 0x00, 0x20] with flags := { v0.flags with z := true } }) (fun t => (t.pc, t.cycles)) =
      some (0x0103, 12) := by
  decide

/-- vJ7. -/
theorem test_jr_back : seen (step (code [0x18, 0xFB])) (fun t => (t.pc, t.cycles)) = some (0x00FD, 12) := by
  decide

/-- vJ13. -/
theorem test_jr_cc_taken : seen (step (code [0x30, 0xFC])) (fun t => (t.pc, t.cycles)) = some (0x00FE, 12) := by
  decide

/-- vJ27. -/
theorem test_call_sp_wraps :
    seen (step { code [0xCD, 0x00, 0x20] with sp := 0x0000 }) (fun t => (t.sp, t.pc, t.ie, byteAt t 0xFFFE)) =
    some (0xFFFE, 0x2000, 0x01, some 0x03) := by
  decide

/-- vJ17. -/
theorem test_call_cc_taken : seen (step { code [0xCC, 0x00, 0x20] with flags := { v0.flags with z := true } })
      (fun t => (t.sp, t.pc, byteAt t 0xFFFC, byteAt t 0xFFFD, t.cycles)) = some (0xFFFC, 0x2000, some 0x03, some 0x01, 24) := by
  decide

/-- V0 with 0x53 and 0x01 on the stack at 0xFFFC. -/
def stacked (op : Byte) : State := { (code [op]).pokeBytes 0xFFFC [0x53, 0x01] with sp := 0xFFFC }

/-- vJ18. -/
theorem test_ret : seen (step (stacked 0xC9)) (fun t => (t.sp, t.pc, t.ime, t.cycles)) = some (0xFFFE, 0x0153, false, 16) := by
  decide

/-- vJ19. -/
theorem test_ret_cc_not_taken :
    seen (step { stacked 0xC0 with flags := { v0.flags with z := true } }) (fun t => (t.sp, t.pc, t.cycles)) =
    some (0xFFFC, 0x0101, 8) := by
  decide

/-- vJ21. -/
theorem test_reti : seen (step (stacked 0xD9)) (fun t => (t.sp, t.pc, t.ime, t.cycles)) = some (0xFFFE, 0x0153, true, 16) := by
  decide

/-- vJ23. -/
theorem test_rst : seen (step (code [0xEF])) (fun t => (t.sp, t.pc, byteAt t 0xFFFC, byteAt t 0xFFFD)) =
    some (0xFFFC, 0x0028, some 0x01, some 0x01) := by
  decide

/-- vJ25. -/
theorem test_jp_hl : seen (step ((code [0xE9]).setHl 0xC123)) (fun t => (t.pc, t.cycles)) = some (0xC123, 4) := by
  decide

/-- vL1. -/
theorem test_ld_r_r :
    seen (step ((code [0x41]).setReg .c 0x5A)) (fun t => (t.regs.b, t.regs.c, t.cycles)) = some (0x5A, 0x5A, 4) := by
  decide

/-- vL4. -/
theorem test_ld_h_hl_indirect :
    seen (step (((code [0x66]).setHl 0xC010).pokeBytes 0xC010 [0x9C])) (fun t => (t.regs.h, t.regs.l)) = some (0x9C, 0x10) := by
  decide

/-- vL6. -/
theorem test_ld_hl_indirect_h : seen (step ((code [0x74]).setHl 0xC020)) (fun t => byteAt t 0xC020) = some (some 0xC0) := by
  decide

/-- vL14. -/
theorem test_ldh_request_flags :
    seen (step { code [0xF0, 0x0F] with irq := 0x05 }) (fun t => (t.regs.a, t.cycles)) = some (0xE5, 12) := by
  decide

/-- vL15. -/
theorem test_ldh_stub_fatal : stopped (step (code [0xE0, 0x00])) = some (.unmappedAddress 0xFF00 .write) := by
  decide

/-- vL26. -/
theorem test_ld_hli_a_wraps :
    seen (step (((code [0x22]).setReg .a 0x01).setHl 0xFFFF)) (fun t => (t.hl, t.ie)) = some (0x0000, 0x01) := by
  decide

/-- vL25. -/
theorem test_ld_a_hld :
    seen (step (((code [0x3A]).setHl 0xC100).pokeBytes 0xC100 [0x88])) (fun t => (t.regs.a, t.hl)) = some (0x88, 0xC0FF) := by
  decide

/-- vL28. -/
theorem test_ld_a_nn_mirror :
    seen (step ((code [0xFA, 0x00, 0xE2]).pokeBytes 0xC200 [0xAA])) (fun t => (t.regs.a, t.cycles)) = some (0xAA, 16) := by
  decide

/-- vL31. -/
theorem test_ld_a_nn_open_bus : seen (step (code [0xFA, 0x00, 0xA0])) (fun t => t.regs.a) = some 0xFF := by
  decide

/-- vW2. -/
theorem test_ld_sp_nn : seen (step (code [0x31, 0x00, 0xD0])) (fun t => (t.sp, t.cycles)) = some (0xD000, 12) := by
  decide

/-- vW3. -/
theorem test_ld_nn_sp :
    seen (step { code [0x08, 0x00, 0xC0] with sp := 0xABCD }) (fun t => (byteAt t 0xC000, byteAt t 0xC001, t.cycles)) =
    some (some 0xCD, some 0xAB, 20) := by
  decide

/-- vW5. -/
theorem test_push_af :
    seen (step ({ code [0xF5] with flags := Flags.ofByte 0xB0 }.setReg .a 0x12))
        (fun t => (t.sp, byteAt t 0xFFFC, byteAt t 0xFFFD)) =
    some (0xFFFC, some 0xB0, some 0x12) := by
  decide

/-- vW7. -/
theorem test_pop_af_drops_low :
    seen (step { (code [0xF1]).pokeBytes 0xFFFC [0xFF, 0x12] with sp := 0xFFFC }) aluView = some (0x12, 0xF0, 0x0101, 12) := by
  decide

/-- vW12. -/
theorem test_ld_hl_sp_e :
    seen (step { code [0xF8, 0xF8] with sp := 0xD008 }) (fun t => (t.hl, t.flagByte, t.sp)) = some (0xD000, 0x30, 0xD008) := by
  decide

/-- vA1. -/
theorem test_add_all_carries :
    seen (step (((code [0x80]).setReg .a 0x3A).setReg .b 0xC6)) aluView = some (0x00, 0xB0, 0x0101, 4) := by
  decide

/-- vA7. -/
theorem test_adc_carry_in :
    seen (step (((code [0x88]).setFlags (Flags.ofByte 0x10)).setReg .a 0x0F)) aluView = some (0x10, 0x20, 0x0101, 4) := by
  decide

/-- vA10. -/
theorem test_sub_borrow : seen (step ((code [0xD6, 0x40]).setReg .a 0x3E)) aluView = some (0xFE, 0x50, 0x0102, 8) := by
  decide

/-- vA13. -/
theorem test_sbc_borrow_in :
    seen (step ((((code [0x98]).setFlags (Flags.ofByte 0x10)).setReg .a 0x10).setReg .b 0x0F)) aluView =
      some (0x00, 0xE0, 0x0101, 4) := by
  decide

/-- vA16. -/
theorem test_and_sets_half :
    seen (step (((code [0xE6, 0x00]).setFlags (Flags.ofByte 0x50)).setReg .a 0xFF)) aluView = some (0x00, 0xA0, 0x0102, 8) := by
  decide

/-- vA17. -/
theorem test_xor_clears :
    seen (step (((code [0xAF]).setFlags (Flags.ofByte 0xF0)).setReg .a 0xFF)) aluView = some (0x00, 0x80, 0x0101, 4) := by
  decide

/-- vA20. -/
theorem test_or_immediate : seen (step ((code [0xF6, 0x03]).setReg .a 0x5A)) aluView = some (0x5B, 0x00, 0x0102, 8) := by
  decide

/-- vA23. -/
theorem test_cp_keeps_a : seen (step ((code [0xFE, 0x40]).setReg .a 0x3C)) aluView = some (0x3C, 0x50, 0x0102, 8) := by
  decide

/-- vA25. -/
theorem test_inc_keeps_carry :
    seen (step (((code [0x3C]).setFlags (Flags.ofByte 0x10)).setReg .a 0xFF)) aluView = some (0x00, 0xB0, 0x0101, 4) := by
  decide

/-- vA30. -/
theorem test_dec_hl_indirect :
    seen (step (((code [0x35]).setHl 0xC000).pokeBytes 0xC000 [0x10])) (fun t => (byteAt t 0xC000, t.flagByte, t.cycles)) =
    some (some 0x0F, 0x60, 12) := by
  decide

/-- vA31. -/
theorem test_cpl :
    seen (step (((code [0x2F]).setFlags (Flags.ofByte 0x90)).setReg .a 0x35)) aluView = some (0xCA, 0xF0, 0x0101, 4) := by
  decide

/-- vA33. -/
theorem test_daa_add : seen (step ((code [0x27]).setReg .a 0x9A)) aluView = some (0x00, 0x90, 0x0101, 4) := by
  decide

/-- vA36. -/
theorem test_daa_sub :
    seen (step (((code [0x27]).setFlags (Flags.ofByte 0x50)).setReg .a 0xA0)) aluView = some (0x40, 0x50, 0x0101, 4) := by
  decide

/-- vA37. -/
theorem test_scf : seen (step ((code [0x37]).setFlags (Flags.ofByte 0xE0))) aluView = some (0x00, 0x90, 0x0101, 4) := by
  decide

/-- vA38. -/
theorem test_ccf : seen (step ((code [0x3F]).setFlags (Flags.ofByte 0xF0))) aluView = some (0x00, 0x80, 0x0101, 4) := by
  decide

/-- vX1. -/
theorem test_inc_bc_wraps :
    seen (step ({ code [0x03] with flags := Flags.ofByte 0xF0 }.setR16 .bc 0xFFFF)) (fun t => (t.r16 .bc, t.flagByte, t.cycles)) =
    some (0x0000, 0xF0, 8) := by
  decide

/-- vX4. -/
theorem test_dec_hl_borrows : seen (step ((code [0x2B]).setHl 0x0100)) (fun t => (t.hl, t.cycles)) = some (0x00FF, 8) := by
  decide

/-- vX7. -/
theorem test_add_hl_sp :
    seen (step ({ code [0x39] with sp := 0xFFFF, flags := Flags.ofByte 0x40 }.setHl 0x0001)) (fun t => (t.hl, t.flagByte)) =
    some (0x0000, 0x30) := by
  decide

/-- vX10. -/
theorem test_add_sp_negative :
    seen (step { code [0xE8, 0xFF] with sp := 0x0001 }) (fun t => (t.sp, t.flagByte, t.cycles)) = some (0x0000, 0x30, 16) := by
  decide

/-- vB2. -/
theorem test_rlca_clears_zero :
    seen (step ((code [0x07]).setFlags (Flags.ofByte 0xF0))) aluView = some (0x00, 0x00, 0x0101, 4) := by
  decide

/-- vB3. -/
theorem test_rla :
    seen (step (((code [0x17]).setFlags (Flags.ofByte 0x10)).setReg .a 0x95)) aluView = some (0x2B, 0x10, 0x0101, 4) := by
  decide

/-- vB4. -/
theorem test_rrca : seen (step ((code [0x0F]).setReg .a 0x3B)) aluView = some (0x9D, 0x10, 0x0101, 4) := by
  decide

/-- vB6. -/
theorem test_rra_zero_result : seen (step ((code [0x1F]).setReg .a 0x01)) aluView = some (0x00, 0x10, 0x0101, 4) := by
  decide

/-- vB8. -/
theorem test_rlc_hl_indirect :
    seen (step ((code [0xCB, 0x06]).setHl 0xC000)) (fun t => (t.flagByte, t.pc, t.cycles)) = some (0x80, 0x0102, 16) := by
  decide

/-- vB10. -/
theorem test_rl_zero_result : seen (step ((code [0xCB, 0x17]).setReg .a 0x80)) aluView = some (0x00, 0x90, 0x0102, 8) := by
  decide

/-- vB16. -/
theorem test_sra_keeps_sign : seen (step ((code [0xCB, 0x2F]).setReg .a 0x8A)) aluView = some (0xC5, 0x00, 0x0102, 8) := by
  decide

/-- R281. -/
theorem test_swap : seen (step ((code [0xCB, 0x37]).setReg .a 0xA5)) aluView = some (0x5A, 0x00, 0x0102, 8) := by
  decide

/-- R284. -/
theorem test_res_keeps_flags :
    seen (step (((code [0xCB, 0x87]).setFlags (Flags.ofByte 0xF0)).setReg .a 0xFF)) aluView = some (0xFE, 0xF0, 0x0102, 8) := by
  decide

/-- R283. -/
theorem test_bit :
    seen (step ({ code [0xCB, 0x65] with flags := Flags.ofByte 0x10 }.setReg .l 0xEF)) (fun t => (t.regs.l, t.flagByte)) =
      some (0xEF, 0xB0) := by
  decide

/-- R285. -/
theorem test_set_hl_indirect :
    seen (step ((code [0xCB, 0xFE]).setHl 0xC000)) (fun t => (byteAt t 0xC000, t.flagByte, t.cycles)) =
      some (some 0x80, 0x00, 16) := by
  decide

/-- R344. -/
theorem test_vblank_request : seen (step { code [0x00] with dot := 65660 }) (fun t => (t.dot, t.irq)) = some (65664, 0x01) := by
  decide


/-! ### Witnesses: states and operands that meet the hypotheses of the obligations

`mapped_bounds` covers every clause `Mapped` or `¬Mapped` at the edges of the address map; the theorems after it name the obligation
that they serve. An obligation whose quantified states and operands carry no hypothesis at all has no witness. -/

/-- `aboutToRun` with every part computed. -/
def aboutToRunCheck (s : State) (i : Instr) (bytes : List Byte) : Bool :=
  (!s.halted || decide (s.pending ≠ 0)) && (!s.ime || decide (s.pending = 0))
    && (List.range bytes.length).all (fun k => decide (byteAt s (s.pc + BitVec.ofNat 16 k) = bytes[k]?))
    && decide ((decode bytes).toOption = some (i, []))
    && (decide (s.config.repertoire = .full) || bytes.head?.all (fun op => decide (op ∉ tierGOpcodes)))

theorem eq_ok_of_toOption {ε α : Type} {r : Except ε α} {v : α} (h : r.toOption = some v) : r = .ok v := by
  cases r with
  | ok w => exact congrArg _ (Option.some.inj h)
  | error e => cases h

theorem aboutToRun_of_check {s : State} {i : Instr} {bytes : List Byte} (h : aboutToRunCheck s i bytes = true) :
    AboutToRun s i bytes := by
  simp only [aboutToRunCheck, Bool.and_eq_true, Bool.or_eq_true, Bool.not_eq_true', decide_eq_true_eq, List.all_eq_true,
    List.mem_range, ne_eq] at h
  obtain ⟨⟨⟨⟨hh, hi⟩, hb⟩, hd⟩, ha⟩ := h
  refine ⟨⟨fun e => hh.resolve_left (by simp [e]), fun e => hi.resolve_left (by simp [e])⟩, fun k v hk => ?_,
    eq_ok_of_toOption hd, fun op ho hr => ?_⟩
  · have hlt : k < bytes.length := (List.getElem?_eq_some_iff.1 hk).1
    exact eq_ok_of_toOption ((hb k hlt).trans hk)
  · rcases ha with ha | ha
    · rw [hr] at ha; cases ha
    · rw [List.head?_eq_getElem?, ho] at ha
      simpa using ha

/-- Awake and with interrupts off, a state fetches. -/
theorem fetchesNext_of_quiet {s : State} (hh : s.halted = false) (hi : s.ime = false) : FetchesNext s :=
  ⟨fun h => absurd (hh.symm.trans h) nofun, fun h => absurd (hi.symm.trans h) nofun⟩

/-- The edges of the address map, with the video memories unmapped and mapped: `Mapped` and `¬Mapped` are both met, for every
obligation that distinguishes them. -/
theorem mapped_bounds :
    ([0x0000, 0x7FFF, 0xA000, 0xBFFF, 0xC000, 0xDFFF, 0xE000, 0xFDFF, 0xFF0F, 0xFF40, 0xFF45, 0xFF47, 0xFF4B, 0xFF80, 0xFFFE,
        0xFFFF] : List Word).all (mappedAddr defaultConfig) = true ∧
    ([0x8000, 0x9FFF, 0xFE00, 0xFE9F, 0xFEA0, 0xFF0E, 0xFF10, 0xFF3F, 0xFF46, 0xFF4C, 0xFF7F] : List Word).any
      (mappedAddr defaultConfig) = false ∧
    ([0x8000, 0x9FFF, 0xFE00, 0xFE9F] : List Word).all (mappedAddr { defaultConfig with mapVideoRam := true }) = true ∧
    v0.config = defaultConfig := by
  decide

/-- Another size of high RAM: the addresses above it are unmapped, and 0xFFFF stays the enable register (log 20). -/
theorem mapped_bounds_hram :
    ([0xFF80, 0xFFBF, 0xFFFF] : List Word).all (mappedAddr { defaultConfig with hramSize := 64 }) = true ∧
    ([0xFFC0, 0xFFFE] : List Word).any (mappedAddr { defaultConfig with hramSize := 64 }) = false ∧
    ([0xFF80, 0xFFFE, 0xFFFF] : List Word).all (mappedAddr { defaultConfig with hramSize := 128 }) = true := by
  decide

/-- V0 with HL, BC, DE and C at addresses of one's choice. -/
def pointing (a : Word) : State :=
  { v0 with regs := ((v0.regs.setHl a).setBc a).setDe a, sp := a }

theorem witness_DecodeInvertsEncode : ∃ i : Instr, i.wellFormed = true ∧ encode i = [0xCB, 0xFE] := ⟨.setHl 7, by decide⟩

theorem witness_DecodedBytesAreTheEncoding :
    decode [0x10, 0x55, 0x00] = .ok (.stop, [0x00]) ∧ decode [0x10] = .ok (.stop, []) ∧
      decode [0xC3, 0x34, 0x12, 0x76] = .ok (.jpNn 0x1234, [0x76]) :=
  ⟨rfl, rfl, rfl⟩

/-- One, two and three bytes; bytes on both sides of 0xFFFF and 0x0000; halted and woken; the documented repertoire. -/
theorem witness_StepRunsDecodedInstruction :
    AboutToRun v0 .nop [0x00] ∧ AboutToRun (code [0xCB, 0x37]) (.swapR .a) [0xCB, 0x37] ∧
      AboutToRun (({ v0 with ie := 0xC3, pc := 0xFFFF }).pokeBytes 0x0000 [0x34, 0x12]) (.jpNn 0x1234) [0xC3, 0x34, 0x12] ∧
      AboutToRun { v0 with halted := true, ie := 0x01, irq := 0x01 } .nop [0x00] ∧
      AboutToRun { v0 with config := { v0.config with repertoire := .documented }, ime := true, eiPending := true } .nop [0x00] := by
  refine ⟨?_, ?_, ?_, ?_, ?_⟩ <;> exact aboutToRun_of_check (by decide)

/-- Each clause: an unmapped opcode byte; a refused tier; an unmapped second byte; an unmapped third byte. -/
theorem witness_FetchFailsInOrder :
    (FetchesNext { v0 with pc := 0x8000 } ∧ ¬Mapped { v0 with pc := 0x8000 } 0x8000) ∧
    (∃ s : State, FetchesNext s ∧ byteAt s s.pc = some 0x27 ∧ ¬Admitted s 0x27) ∧
    (∃ s : State, FetchesNext s ∧ byteAt s s.pc = some 0x06 ∧ Admitted s 0x06 ∧ (decode [0x06]).toOption = none ∧
      ¬Mapped s (s.pc + 1)) ∧
    ∃ s : State, FetchesNext s ∧ byteAt s s.pc = some 0xC3 ∧ Admitted s 0xC3 ∧ (decode [0xC3]).toOption = none ∧
      Mapped s (s.pc + 1) ∧ (decode [0xC3, 0xFF]).toOption = none ∧ ¬Mapped s (s.pc + 2) := by
  refine ⟨⟨fetchesNext_of_quiet rfl rfl, by decide⟩,
    ⟨{ code [0x27] with config := { v0.config with repertoire := .documented } }, fetchesNext_of_quiet rfl rfl, by decide,
      fun h => absurd (h rfl) (by decide)⟩,
    ⟨{ v0 with pc := 0xFF4B, lcd := { v0.lcd with wx := 0x06 } }, fetchesNext_of_quiet rfl rfl, ?_⟩,
    ⟨{ v0 with pc := 0xFF4A, lcd := { v0.lcd with wy := 0xC3 } }, fetchesNext_of_quiet rfl rfl, ?_⟩⟩
  · exact ⟨by decide, nofun, by decide⟩
  · exact ⟨by decide, nofun, by decide⟩

theorem witness_HaltedStepIdlesOrWakes :
    ({ v0 with halted := true, ie := 0xE0 } : State).halted = true ∧ (0xE0 : Byte).extractLsb' 0 5 &&& v0.irq = 0 ∧
      ({ v0 with halted := true, ie := 0x10, irq := 0x10 } : State).halted = true ∧
      (0x10 : Byte).extractLsb' 0 5 &&& (0x10 : BitVec 5) ≠ 0 := by
  decide

/-- Kind 0 with every kind pending, and kind 4 alone; a stack that is mapped, unmapped at once, unmapped at the second byte. -/
theorem witness_DispatchTakesLowestPendingKind :
    (∀ k ∈ [0, 4], ∃ s : State, s.ime = true ∧ k < 5 ∧ s.pending.getLsbD k = true ∧ (∀ j, j < k → s.pending.getLsbD j = false) ∧
      Mapped s (s.sp - 1) ∧ Mapped s (s.sp - 2)) ∧
    (∃ s : State, s.ime = true ∧ s.pending.getLsbD 0 = true ∧ ¬Mapped s (s.sp - 1)) ∧
    ∃ s : State, s.ime = true ∧ s.pending.getLsbD 0 = true ∧ Mapped s (s.sp - 1) ∧ ¬Mapped s (s.sp - 2) := by
  refine ⟨fun k hk => ?_, ⟨{ v0 with ime := true, ie := 0x01, irq := 0x01, sp := 0xFF80 }, by decide⟩,
    ⟨{ v0 with ime := true, ie := 0x01, irq := 0x01, sp := 0xFF81 }, by decide⟩⟩
  have : k = 0 ∨ k = 4 := by simpa using hk
  rcases this with rfl | rfl
  · exact ⟨{ v0 with ime := true, ie := 0x1F, irq := 0x1F }, by decide⟩
  · exact ⟨{ v0 with ime := true, ie := 0xF0, irq := 0x1F }, by decide⟩

/-- After an EI: an instruction, and DI. Without an EI: EI itself, RETI, and another. -/
theorem witness_EiEnablesAfterNextInstruction :
    (∀ row ∈ [(Instr.nop, (0x00 : Byte)), (.di, 0xF3), (.ei, 0xFB), (.reti, 0xD9)], ∀ was : Bool,
      ∃ s t : State, AboutToRun s row.1 [row.2] ∧ s.ime = false ∧ s.eiPending = was ∧ step s = .next t) := by
  intro row hr was
  refine ⟨{ code [row.2] with eiPending := was, sp := 0xC000 }, ?_⟩
  simp only [List.mem_cons, List.not_mem_nil, or_false] at hr
  rcases hr with rfl | rfl | rfl | rfl <;> cases was <;>
    exact ⟨_, aboutToRun_of_check (by decide), rfl, rfl, rfl⟩

theorem witness_HaltSetsHalted :
    (∃ s : State, s.ime = false ∧ s.ie.extractLsb' 0 5 &&& s.irq ≠ 0) ∧
    (∃ s : State, s.ime = true ∧ s.ie.extractLsb' 0 5 &&& s.irq ≠ 0) ∧
    ∃ s : State, s.ime = false ∧ s.ie.extractLsb' 0 5 &&& s.irq = 0 :=
  ⟨⟨{ v0 with ie := 0x10, irq := 0x10 }, by decide⟩, ⟨{ v0 with ime := true, ie := 0x10, irq := 0x10 }, by decide⟩,
    ⟨{ v0 with ie := 0xE0, irq := 0x1F }, by decide⟩⟩

theorem witness_RefusedOpcodesAreFatal : ∀ op ∈ ([0x10, 0xD3, 0xFD] : List Byte),
    FetchesNext (code [op]) ∧ byteAt (code [op]) (code [op]).pc = some op := by
  have h : ∀ op ∈ ([0x10, 0xD3, 0xFD] : List Byte), byteAt (code [op]) (code [op]).pc = some op := by decide
  exact fun op ho => ⟨fetchesNext_of_quiet rfl rfl, h op ho⟩

theorem witness_PrefixDispatchesOnSubOpcode :
    (0x00 : Byte).extractLsb' 0 3 ≠ 6 ∧ (0xFF : Byte).extractLsb' 0 3 ≠ 6 ∧ (0x06 : Byte).extractLsb' 0 3 = 6 ∧
      (0xFE : Byte).extractLsb' 0 3 = 6 ∧ Mapped (pointing 0x7FFF) (pointing 0x7FFF).hl ∧
      ¬Mapped (pointing 0x8000) (pointing 0x8000).hl := by
  decide

/-- Every condition taken and not taken: AbsoluteJumps, RelativeJumps, CallsPushReturnAddress, ReturnsPopAddress. -/
theorem witness_conditions : ∀ cc : Cond, ∃ f g : Flags, Taken cc f ∧ ¬Taken cc g := by
  intro cc
  cases cc
  · exact ⟨Flags.ofByte 0x70, Flags.ofByte 0x80, rfl, nofun⟩
  · exact ⟨Flags.ofByte 0x80, Flags.ofByte 0x70, rfl, nofun⟩
  · exact ⟨Flags.ofByte 0xE0, Flags.ofByte 0x10, rfl, nofun⟩
  · exact ⟨Flags.ofByte 0x10, Flags.ofByte 0xE0, rfl, nofun⟩

/-- A stack of which both bytes, the first, or only the first answer: CallsPushReturnAddress, PushStoresPair, ReturnsPopAddress,
PopLoadsPair, StoreStackPointer. -/
theorem witness_pairs :
    (let s := pointing 0x0000; Mapped s (s.sp - 1) ∧ Mapped s (s.sp - 2)) ∧
    (let s := pointing 0xA000; ¬Mapped s (s.sp - 1)) ∧
    (let s := pointing 0xA001; Mapped s (s.sp - 1) ∧ ¬Mapped s (s.sp - 2)) ∧
    (let s := pointing 0xFFFF; Mapped s s.sp ∧ Mapped s (s.sp + 1)) ∧
    (let s := pointing 0x9FFF; ¬Mapped s s.sp) ∧
    (let s := pointing 0x7FFF; Mapped s s.sp ∧ ¬Mapped s (s.sp + 1)) := by
  decide

/-- A single operand in memory that answers and one that does not: LoadsFromMemory, StoresToMemory, AdditionFamily,
SubtractionFamily, LogicFamily, IncrementDecrement, PrefixedRotates, BitOperations. -/
theorem witness_operands :
    (let s := pointing 0xFFFF; Mapped s s.hl ∧ Mapped s (s.regs.b ++ s.regs.c) ∧ Mapped s (s.regs.d ++ s.regs.e) ∧
      Mapped s (0xFF#8 ++ s.regs.c)) ∧
    (let s := pointing 0xFF7F; ¬Mapped s s.hl ∧ ¬Mapped s (s.regs.b ++ s.regs.c) ∧ ¬Mapped s (s.regs.d ++ s.regs.e) ∧
      ¬Mapped s (0xFF#8 ++ s.regs.c)) ∧
    Mapped v0 (0xFF#8 ++ 0x0F#8) ∧ ¬Mapped v0 (0xFF#8 ++ 0x10#8) := by
  decide

theorem witness_PopReturnsPushedValue : ∀ sp ∈ ([0xC002, 0xFE00, 0xFF82, 0xFFFF] : List Word),
    (pointing sp).ram.Inv (pointing sp).config ∧ (0xC002 ≤ sp.toNat ∧ sp.toNat ≤ 0xFE00 ∨ 0xFF82 ≤ sp.toNat) ∧
      ∃ t, push16 0x1234 (pointing sp) = .ok t := by
  intro sp hs
  refine ⟨Ram.blank_inv _, ?_⟩
  simp only [List.mem_cons, List.not_mem_nil, or_false] at hs
  rcases hs with rfl | rfl | rfl | rfl <;> exact ⟨by decide, _, rfl⟩

theorem witness_DaaCorrectsBcd : ∀ a ∈ ([0x00, 0x99] : List Byte), a.toNat % 16 ≤ 9 ∧ a.toNat / 16 ≤ 9 := by decide

/-- No address falls under two clauses of ReadsFollowAddressMap and WritesFollowAddressMap: each edge of each range is met, and the
ranges do not meet. -/
theorem witness_addressMap :
    let lo : List Nat := [0x8000, 0xC000, 0xD000, 0xE000, 0xFE00, 0xFEA0, 0xFF0F, 0xFF10, 0xFF46, 0xFF4C, 0xFF80, 0xFFFF]
    let hi : List Nat := [0x9FFF, 0xCFFF, 0xDFFF, 0xFDFF, 0xFE9F, 0xFF0E, 0xFF0F, 0xFF3F, 0xFF46, 0xFF7F, 0xFFFE, 0xFFFF]
    (lo.zip hi).all (fun r => decide (r.1 ≤ r.2)) = true ∧ (hi.zip lo.tail).all (fun r => decide (r.1 < r.2)) = true ∧
      (lo ++ hi).all (fun n => decide ((BitVec.ofNat 16 n).toNat = n)) = true := by
  decide

/-- Both edges of each clause, and of the mirror in the first one. -/
theorem witness_StoredByteReadsBack : v0.ram.Inv v0.config ∧
    ∀ a ∈ ([0xC000, 0xDDFF, 0xC000 + 0x2000, 0xDDFF + 0x2000, 0xDE00, 0xDFFF, 0xFF80, 0xFFFE] : List Word),
      ∃ t, memWrite v0 a 0x42 = .ok t := by
  have hall : ([0xC000, 0xDDFF, 0xC000 + 0x2000, 0xDDFF + 0x2000, 0xDE00, 0xDFFF, 0xFF80, 0xFFFE] : List Word).all
      (mappedAddr defaultConfig) = true := by decide
  refine ⟨Ram.blank_inv _, fun a ha => memWrite_of_mapped ?_ _⟩
  rw [Mapped, show v0.config = defaultConfig from rfl]
  exact List.all_eq_true.1 hall a ha

theorem witness_NoControllerIsFlatRom : v0.cart.variant = .noController := by decide

/-- An MBC1 cartridge of two banks with 32768 bytes of RAM. -/
def mbc1 : State :=
  { v0 with
    cart := { Cart.initial .mbc1 [(0x0147, 0x03), (0x0149, 0x03)] 2 [] 32768 with ramEn := true, bankHi := 3, mode := .ramBanking } }

/-- For Mbc1StoresLoadLatches and Mbc1RomTranslation: MBC1, and the cartridge's invariant. -/
theorem witness_Mbc1RomTranslation : mbc1.cart.variant = .mbc1 ∧ mbc1.cart.Inv mbc1.config :=
  ⟨rfl,
    { banks := by decide
      rom := ⟨by decide, by decide⟩
      ram := Memory.fits_nil _
      bankLo := by decide
      variant := by decide
      noRam := nofun
      ramSize := fun _ => by decide }⟩

/-- Enabled, disabled and absent RAM. -/
theorem witness_Mbc1RamWindow :
    (mbc1.cart.variant = .mbc1 ∧ mbc1.cart.ramEn = true ∧ 0 < mbc1.cart.ramSize) ∧
    ({ mbc1.cart with ramEn := false } : Cart).variant = .mbc1 ∧ ({ mbc1.cart with ramSize := 0 } : Cart).variant = .mbc1 := by
  decide

theorem witness_FrameTimeline : (∀ n ∈ [0, 143], ∀ x ∈ [0, 79, 80, 251, 252, 455], n ≤ 143 ∧ x ≤ 455) ∧
    ∀ d ∈ [65664, 70223], 65664 ≤ d ∧ d ≤ 70223 := by
  decide

theorem witness_OneVblankRequestPerFrame : (∀ c ∈ [4, 24], c ≤ 24) ∧ vblankRequests 65660 [4, 24] = 1 ∧
    vblankRequests 70223 [24, 0] = 0 := by
  decide

/-- A launch of an image of this length with these header bytes. -/
def launch (length : Nat) (kind code : Byte) : Launch where
  config := defaultConfig
  image := some { length := length, bytes := (Memory.write [] 0x0147 kind).write 0x0149 code }
  ram := Ram.blank
  cartRam := []

/-- The fault of a launch. -/
def bootFault (l : Launch) : Option Fault := stopped (boot l)

/-- The controller and the RAM size of a launch that boots. -/
def bootCart (l : Launch) : Option (Variant × Nat) := seen (boot l) (fun t => (t.cart.variant, t.cart.ramSize))

/-- Every clause: no image; lengths 16384 and 32769; a controller code 0x04; a RAM-size code 0x01; both kinds that boot. -/
theorem witness_BootRefusesMalformedImages :
    bootFault { launch 32768 0 0 with image := none } = some .imageIoFailure ∧
    bootFault (launch 16384 0 0) = some (.malformedCartridgeHeader (.length 16384)) ∧
    bootFault (launch 32769 0 0) = some (.malformedCartridgeHeader (.length 32769)) ∧
    bootFault (launch 32768 4 0) = some (.malformedCartridgeHeader (.byteAt 0x0147 4)) ∧
    bootFault (launch 49152 1 1) = some (.malformedCartridgeHeader (.byteAt 0x0149 1)) ∧
    bootCart (launch 32768 0 1) = some (.noController, 0) ∧ bootCart (launch 32768 1 0) = some (.mbc1, 0) ∧
    bootCart (launch 65536 3 4) = some (.mbc1, 131072) := by
  decide

theorem witness_BootGivesResetValues : ∃ t, boot (launch 32768 3 5) = .next t := ⟨_, rfl⟩

theorem witness_BootEstablishesInvariant : (launch 32768 3 5).Inv ∧ ∃ t, boot (launch 32768 3 5) = .next t := by
  refine ⟨⟨Ram.blank_inv _, fun img h => ?_, fun _ n _ _ => Memory.fits_nil n⟩, _, rfl⟩
  cases h
  exact ⟨by decide, by decide⟩

theorem mbc1_inv : mbc1.Inv := ⟨by decide, Ram.blank_inv _, witness_Mbc1RomTranslation.2⟩

/-- For StepKeepsInvariant and StepKeepsImageAndParameters: a store to a latch runs from a state that meets the invariant. -/
theorem witness_StepKeepsInvariant : ∃ s t : State, s.Inv ∧ step s = .next t :=
  ⟨mbc1, _, mbc1_inv, rfl⟩

/-- For StepCostMovesDot: a plain step, and a store to LY. -/
theorem witness_StepCostMovesDot : TableCosts defaultConfig ∧ (∃ t, step v0 = .next t) ∧
    (0xFF44 ∈ (code [0xE0, 0x44]).stepStores ∧
      seen (step { code [0xE0, 0x44] with dot := 1000 }) (fun t => (t.dot, t.cycles)) = some (12, 12)) :=
  ⟨⟨rfl, rfl, rfl, rfl, rfl, rfl⟩, ⟨_, rfl⟩, by decide⟩

theorem witness_StepFaultsAreFatalKinds :
    stopped (step { v0 with pc := 0x8000 }) = some (.unmappedAddress 0x8000 .read) ∧
      stopped (step (code [0xFD])) = some (.unimplementedOpcode 0xFD) := by
  decide

/-- One instruction with each part of the footprint off, and on. -/
theorem witness_InstructionsKeepTheirFootprint :
    (∃ t, exec .nop v0 = .next t) ∧ (footprint .nop).stores = [] ∧ (footprint .nop).halt = false ∧
      (∃ t, exec (.pushRr .af) v0 = .next t) ∧ (footprint (.pushRr .af)).stores = pushPlaces ∧
      (∃ t, exec .reti (pointing 0xFFFF) = .next t) ∧ (footprint .reti).irq = true ∧ (∃ t, exec .halt v0 = .next t) :=
  ⟨⟨_, rfl⟩, rfl, rfl, ⟨_, rfl⟩, rfl, ⟨_, rfl⟩, by decide, ⟨_, rfl⟩⟩

/-- The frame of the stores in InstructionsKeepTheirFootprint: a push from the reset stack stores at 0xFFFD and 0xFFFC. -/
theorem witness_footprintOfPush : (footprint (.pushRr .af)).stores.map (·.addr v0) = [0xFFFD, 0xFFFC] := rfl

/-- Each of these stores touches its own byte and none of its neighbours. -/
theorem witness_pushTouches :
    ([0xFFFB, 0xFFFE, 0xFFFF, 0xC000] : List Word).any (fun x => touches v0 0xFFFD x || touches v0 0xFFFC x) = false ∧
      (touches v0 0xFFFD 0xFFFD && touches v0 0xFFFC 0xFFFC) = true := by
  decide

/-- They avoid every range of KeepsElsewhere but that of the high RAM. -/
theorem witness_pushAvoids : (∀ hi < 0xFFFC, Away [0xFFFD, 0xFFFC] 0x0000 hi) ∧ Away [0xFFFD, 0xFFFC] 0xFFFF 0xFFFF := by
  simp only [Away, List.mem_cons, List.not_mem_nil, or_false, forall_eq_or_imp, forall_eq]
  exact ⟨fun hi h => ⟨.inr (by bv_omega), .inr (by bv_omega)⟩, by decide⟩

/-- Both edges of every range in the tier G clause of FetchFailsInOrder, and the bytes beside them. -/
theorem test_tierG_edges :
    ([0xC7, 0xFF, 0x88, 0x8F, 0xCE, 0x98, 0x9F, 0xDE, 0x03, 0x33, 0x0B, 0x3B, 0x09, 0x39, 0xE8] : List Byte).all tierG = true ∧
      ([0xBF, 0x87, 0x90, 0x97, 0xA0, 0x43, 0x49, 0x4B, 0x29 + 0x40] : List Byte).any tierG = false := by
  decide

end Sys2Proof.Tests
end

section
/-! The cartridge on the bus (21_cartridge_mbc1.md R93 to R102): what a read or a write answers in the ROM ranges and in the RAM
window, each variant's meaning of it, and the obligations on them. -/

namespace Sys2Proof.Machine

/-! ### The two cartridge ranges on the bus -/

theorem memRead_rom {a : Word} (h : a.toNat ≤ 0x7FFF) (s : State) : memRead s a = .ok (s.cart.readRom a.toNat) :=
  memRead_of_owner (owner_rom h) rfl

theorem memWrite_rom {a : Word} (h : a.toNat ≤ 0x7FFF) (s : State) (v : Byte) :
    memWrite s a v = .ok (s.setCart (s.cart.writeRom a.toNat v)) :=
  memWrite_of_owner (owner_rom h) rfl

theorem memRead_cartRam {a : Word} (h1 : 0xA000 ≤ a.toNat) (h2 : a.toNat ≤ 0xBFFF) (s : State) :
    memRead s a = .ok (s.cart.readRam s.config.ramBankSize (a.toNat - 0xA000)) :=
  memRead_of_owner (owner_cartRam h1 h2) rfl

theorem memWrite_cartRam {a : Word} (h1 : 0xA000 ≤ a.toNat) (h2 : a.toNat ≤ 0xBFFF) (s : State) (v : Byte) :
    memWrite s a v = .ok (s.setCart (s.cart.writeRam s.config.ramBankSize (a.toNat - 0xA000) v)) :=
  memWrite_of_owner (owner_cartRam h1 h2) rfl

@[simp] theorem State.setCart_self (s : State) : s.setCart s.cart = s := rfl

/-! ### The ROM ranges, by variant -/

theorem Cart.readRom_of_noController {c : Cart} (h : c.variant = .noController) (n : Nat) : c.readRom n = c.rom.read n := by
  simp only [Cart.readRom, Cart.romOffset, h]

theorem Cart.writeRom_of_noController {c : Cart} (h : c.variant = .noController) (n : Nat) (v : Byte) : c.writeRom n v = c := by
  simp only [Cart.writeRom, h]

theorem Cart.romOffset_of_mbc1 {c : Cart} (h : c.variant = .mbc1) (n : Nat) :
    c.romOffset n = if n < 0x4000 then n else c.romBank * romBankSize + (n - 0x4000) := by
  simp only [Cart.romOffset, h]

theorem Cart.romOffset_low {c : Cart} (h : c.variant = .mbc1) {n : Nat} (hn : n ≤ 0x3FFF) : c.romOffset n = n := by
  rw [Cart.romOffset_of_mbc1 h, if_pos (by omega)]

theorem Cart.romOffset_banked {c : Cart} (h : c.variant = .mbc1) {n : Nat} (hn : 0x4000 ≤ n) :
    c.romOffset n = c.romBank * romBankSize + (n - 0x4000) := by
  rw [Cart.romOffset_of_mbc1 h, if_neg (by omega)]

theorem Cart.writeRom_of_mbc1 {c : Cart} (h : c.variant = .mbc1) (n : Nat) (v : Byte) :
    c.writeRom n v =
      if n ≤ 0x1FFF then c.writeRamEnable v
      else if n ≤ 0x3FFF then c.writeBankLo v
      else if n ≤ 0x5FFF then c.writeBankHi v
      else c.writeMode v := by
  simp only [Cart.writeRom, h]

/-! ### The latch writes in arithmetic -/

/-- The low bits of a byte, taken as the remainder of its value. -/
theorem extractLow_eq_ofNat (v : Byte) (w : Nat) : v.extractLsb' 0 w = BitVec.ofNat w (v.toNat % 2 ^ w) :=
  BitVec.eq_of_toNat_eq (by simp)

theorem ofNat_mod_eq_iff {w m k : Nat} (hk : k < 2 ^ w) : BitVec.ofNat w (m % 2 ^ w) = BitVec.ofNat w k ↔ m % 2 ^ w = k := by
  rw [← BitVec.toNat_inj, BitVec.toNat_ofNat, BitVec.toNat_ofNat, Nat.mod_mod, Nat.mod_eq_of_lt hk]

theorem Cart.writeRamEnable_eq (c : Cart) (v : Byte) : c.writeRamEnable v = { c with ramEn := decide (v.toNat % 16 = 10) } := by
  have key : v.extractLsb' 0 4 = 0xA#4 ↔ v.toNat % 16 = 10 := by
    rw [extractLow_eq_ofNat]
    exact ofNat_mod_eq_iff (by decide)
  simp only [Cart.writeRamEnable, key]

theorem Cart.writeBankLo_eq (c : Cart) (v : Byte) :
    c.writeBankLo v = { c with bankLo := if v.toNat % 32 = 0 then 1 else BitVec.ofNat 5 (v.toNat % 32) } := by
  have key : v.extractLsb' 0 5 = 0#5 ↔ v.toNat % 32 = 0 := by
    rw [extractLow_eq_ofNat]
    exact ofNat_mod_eq_iff (by decide)
  simp only [Cart.writeBankLo, key]
  rw [extractLow_eq_ofNat]
  rfl

theorem Cart.writeBankHi_eq (c : Cart) (v : Byte) : c.writeBankHi v = { c with bankHi := BitVec.ofNat 2 (v.toNat % 4) } :=
  congrArg (fun hi => { c with bankHi := hi }) (extractLow_eq_ofNat v 2)

theorem Cart.writeMode_eq (c : Cart) (v : Byte) :
    c.writeMode v = { c with mode := if v.toNat % 2 = 1 then .ramBanking else .simpleRom } := by
  simp only [Cart.writeMode, BitVec.getLsbD, Nat.testBit_zero, decide_eq_true_eq]

/-! ### The RAM window -/

theorem Cart.ramShown_eq_true_iff {c : Cart} : c.ramShown = true ↔ c.variant = .mbc1 ∧ c.ramEn = true ∧ 0 < c.ramSize := by
  simp only [Cart.ramShown, Bool.and_eq_true, decide_eq_true_eq, and_assoc]

theorem Cart.readRam_of_shown {c : Cart} (h : c.ramShown = true) (bankSize k : Nat) :
    c.readRam bankSize k = c.ram.read (c.ramOffset bankSize k) := if_pos h

theorem Cart.writeRam_of_shown {c : Cart} (h : c.ramShown = true) (bankSize k : Nat) (v : Byte) :
    c.writeRam bankSize k v = { c with ram := c.ram.write (c.ramOffset bankSize k) v } := if_pos h

theorem Cart.ramBank_eq (c : Cart) : c.ramBank = if c.mode = .ramBanking then c.bankHi.toNat else 0 := by
  unfold Cart.ramBank
  cases c.mode <;> rfl

/-- A window that shows no cell is open bus (R93, R100). -/
theorem cartRam_openBus {s : State} (hs : ¬s.cart.ramShown = true) {a : Word} (h1 : 0xA000 ≤ a.toNat) (h2 : a.toNat ≤ 0xBFFF)
    (v : Byte) : memRead s a = .ok 0xFF ∧ memWrite s a v = .ok s := by
  have hr : s.cart.readRam s.config.ramBankSize (a.toNat - 0xA000) = 0xFF := if_neg hs
  have hw : s.cart.writeRam s.config.ramBankSize (a.toNat - 0xA000) v = s.cart := if_neg hs
  rw [memRead_cartRam h1 h2, memWrite_cartRam h1 h2, hr, hw, State.setCart_self]
  exact ⟨rfl, rfl⟩

/-! ### The obligations -/

/-- Settles O44: the ROM ranges have no translation and no latch, and the RAM window never shows a cell. -/
theorem noControllerIsFlatRom : Obligations.NoControllerIsFlatRom := by
  intro s a v hv
  refine ⟨fun h => ⟨?_, ?_⟩, fun h1 h2 => cartRam_openBus (fun hs => ?_) h1 h2 v⟩
  · rw [memRead_rom h, Cart.readRom_of_noController hv]
  · rw [memWrite_rom h, Cart.writeRom_of_noController hv, State.setCart_self]
  · exact absurd ((Cart.ramShown_eq_true_iff.1 hs).1.symm.trans hv) (by decide)

/-- Settles O45: the address selects the latch write, whose meaning in arithmetic is `Cart.writeRamEnable_eq` and its fellows. -/
theorem mbc1StoresLoadLatches : Obligations.Mbc1StoresLoadLatches := by
  intro s a v hv
  refine ⟨fun h => ?_, fun h1 h2 => ?_, fun h1 h2 => ?_, fun h1 h2 => ?_⟩ <;>
    rw [memWrite_rom (by omega), Cart.writeRom_of_mbc1 hv]
  · rw [if_pos h, Cart.writeRamEnable_eq]
    rfl
  · rw [if_neg (by omega), if_pos h2, Cart.writeBankLo_eq]
    rfl
  · rw [if_neg (by omega), if_neg (by omega), if_pos h2, Cart.writeBankHi_eq]
    rfl
  · rw [if_neg (by omega), if_neg (by omega), if_neg (by omega), Cart.writeMode_eq]
    rfl

/-- Settles O46: the offset by window; the banked offset is inside the image because the selected bank is one of its banks. -/
theorem mbc1RomTranslation : Obligations.Mbc1RomTranslation := by
  intro s a hv
  refine ⟨fun h => ?_, fun h1 h2 => ⟨?_, fun hi => ?_⟩⟩
  · rw [memRead_rom (by omega), Cart.readRom, Cart.romOffset_low hv h]
  · rw [memRead_rom h2, Cart.readRom, Cart.romOffset_banked hv h1]
    rfl
  · have hlt := Cart.romOffset_lt hi.banks h2
    rwa [Cart.romOffset_banked hv h1] at hlt

/-- Settles O47: the window shows a cell exactly while it is enabled and RAM is fitted. -/
theorem mbc1RamWindow : Obligations.Mbc1RamWindow := by
  refine ⟨rfl, fun s a v hv h1 h2 => ⟨fun hoff => cartRam_openBus (fun hs => ?_) h1 h2 v, fun hen hsize => ?_⟩⟩
  · obtain ⟨-, hen, hsize⟩ := Cart.ramShown_eq_true_iff.1 hs
    rcases hoff with hoff | hoff
    · exact absurd (hen.symm.trans hoff) (by decide)
    · omega
  · have hs : s.cart.ramShown = true := Cart.ramShown_eq_true_iff.2 ⟨hv, hen, hsize⟩
    rw [memRead_cartRam h1 h2, memWrite_cartRam h1 h2, Cart.readRam_of_shown hs, Cart.writeRam_of_shown hs, Cart.ramOffset,
      Cart.ramBank_eq]
    exact ⟨rfl, rfl⟩

end Sys2Proof.Machine
end

section
/-! Encoding (30_encoding.md R120, R132): what the form of an opcode byte makes of the two bytes after it, that it is always a
well-formed instruction, and the opcode bytes at which every step stops. -/

namespace Sys2Proof.Machine

open Sys2Proof.Laws.EncodedLength (formLength)

/-! ### The instruction that a form selects -/

/-- The instruction that an opcode byte of this form makes of the two bytes after it. -/
def formInstr (f : OpForm) (b1 b2 : Byte) : Instr :=
  match f with
  | .implied i => i
  | .unreadByte i => i
  | .prefixed => decodeCb b1
  | .withByte g => g b1
  | .withWord g => g (joinBytes b2 b1)

/-- Decoding reads the instruction of the opcode byte's form and drops as many bytes as the form is long. -/
theorem decode_eq_formInstr (op b1 b2 : Byte) (rest : List Byte) :
    decode (op :: b1 :: b2 :: rest) =
      .ok (formInstr (opForm op) b1 b2, (op :: b1 :: b2 :: rest).drop (formLength (opForm op))) := by
  cases h : opForm op <;> simp [decode, h, formInstr, formLength]

theorem formLength_bounds (f : OpForm) : 1 ≤ formLength f ∧ formLength f ≤ 3 := by
  cases f <;> simp [formLength]

/-! ### Every entry of the opcode maps is well formed -/

theorem ldForm_wellFormed (dst src : Operand8) : (ldForm dst src).wellFormed = true := by
  cases dst <;> cases src <;> rfl

theorem aluForm_wellFormed (y : Fin 8) (v : Operand8) : (aluForm y v).wellFormed = true := by
  unfold aluForm
  split <;> rfl

theorem aluImmForm_wellFormed (y : Fin 8) (n : Byte) : (aluImmForm y n).wellFormed = true := by
  unfold aluImmForm
  split <;> rfl

theorem decodeCb_wellFormed (sub : Byte) : (decodeCb sub).wellFormed = true := by
  unfold decodeCb cbForm
  split <;> rfl

theorem formX0_wellFormed (y z : Fin 8) (b1 b2 : Byte) : (formInstr (formX0 y z) b1 b2).wellFormed = true := by
  unfold formX0
  repeat' split
  all_goals rfl

/-- The only entries whose instruction depends on more than the row are the prefix byte's and the immediate operations'. -/
theorem formX3_wellFormed (y z : Fin 8) (b1 b2 : Byte) : (formInstr (formX3 y z) b1 b2).wellFormed = true := by
  unfold formX3
  split
  case h_4 =>
    split
    case h_2 => exact decodeCb_wellFormed b1
    all_goals rfl
  case h_7 => exact aluImmForm_wellFormed y b1
  all_goals
    repeat' split
    all_goals rfl

theorem opForm_wellFormed (op b1 b2 : Byte) : (formInstr (opForm op) b1 b2).wellFormed = true := by
  unfold opForm
  split
  · exact formX0_wellFormed _ _ b1 b2
  · exact ldForm_wellFormed _ _
  · exact aluForm_wellFormed _ _
  · exact formX3_wellFormed _ _ b1 b2

/-- Settles O4: the length is that of the opcode byte's form, and the instruction is the form's. -/
theorem firstByteFixesLength : Obligations.FirstByteFixesLength := by
  refine ⟨fun op => ?_, fun sub rest => ⟨decodeCb sub, decodeCb_wellFormed sub, decode_prefixed sub rest⟩⟩
  obtain ⟨hlow, hhigh⟩ := formLength_bounds (opForm op)
  exact ⟨formLength (opForm op), hlow, hhigh, fun b1 b2 rest =>
    ⟨formInstr (opForm op) b1 b2, opForm_wellFormed op b1 b2, decode_eq_formInstr op b1 b2 rest⟩⟩

/-! ### The opcode bytes at which every step stops -/

/-- The illegal opcode bytes of R132, each with its row of the opcode table. -/
def illegalRows : List (Instr × Byte) :=
  [(.illegalD3, 0xD3), (.illegalDB, 0xDB), (.illegalDD, 0xDD), (.illegalE3, 0xE3), (.illegalE4, 0xE4), (.illegalEB, 0xEB),
    (.illegalEC, 0xEC), (.illegalED, 0xED), (.illegalF4, 0xF4), (.illegalFC, 0xFC), (.illegalFD, 0xFD)]

theorem illegalRows_opForm : ∀ row ∈ illegalRows, opForm row.2 = .implied row.1 := by
  intro row hrow
  fin_cases hrow <;> rfl

theorem illegalRows_exec : ∀ row ∈ illegalRows, ∀ s : State, exec row.1 s = .fault (.unimplementedOpcode row.2) := by
  intro row hrow s
  fin_cases hrow <;> rfl

/-- An opcode byte whose instruction is fatal, and which is fetched alone, stops the step with the same fault whether or not the
repertoire refuses it. -/
theorem step_of_fatalOpcode {s : State} {op : Byte} {i : Instr} (hfetch : FetchesNext s) (hop : memRead s s.pc = .ok op)
    (hform : opForm op = .implied i ∨ opForm op = .unreadByte i)
    (hexec : ∀ t, exec i t = .fault (.unimplementedOpcode op)) : step s = .fault (.unimplementedOpcode op) := by
  have hcpu : cpuStep (s.setHalted false) = .fault (.unimplementedOpcode op) := by
    have hop' : memRead (s.setHalted false) (s.setHalted false).pc = .ok op := hop
    rw [cpuStep, fetchInstr_eq, hop', Access.ok_bind]
    by_cases hr : (s.setHalted false).refusesTier op = true
    · rw [if_pos hr]
    · rw [if_neg hr]
      rcases hform with hform | hform <;> rw [hform] <;> exact hexec _
  rw [step_of_fetchesNext hfetch, hcpu, closeStep]

/-- Settles O13: the rows are those of R132 and STOP, each fetched as its opcode byte alone. -/
theorem refusedOpcodesAreFatal : Obligations.RefusedOpcodesAreFatal := by
  refine ⟨fun b rest => rfl, fun row hrow => ⟨?_, ?_, ?_⟩, fun row hrow s => ?_⟩
  · exact decode_implied (illegalRows_opForm row hrow)
  · exact decode_withByte rfl row.2
  · exact ⟨decodeCb row.2, decodeCb_wellFormed row.2, decode_prefixed row.2⟩
  · rcases List.mem_cons.1 hrow with rfl | hrow
    · exact ⟨rfl, fun hfetch hop => step_of_fatalOpcode hfetch hop (.inr rfl) fun _ => rfl⟩
    · have hexec := illegalRows_exec row hrow
      exact ⟨hexec s, fun hfetch hop => step_of_fatalOpcode hfetch hop (.inl (illegalRows_opForm row hrow)) hexec⟩

end Sys2Proof.Machine
end

section
/-! NOP and DI (40_control_misc.md R150, R153): what each makes of the state, and the obligation on them. -/

namespace Sys2Proof.Machine

theorem exec_nop (s : State) : exec .nop s = .next (s.setCycles s.config.cyc.control.nop) := rfl

theorem exec_di (s : State) :
    exec .di s = .next (((s.setIme false).setEiPending false).setCycles s.config.cyc.control.di) := rfl

/-- Settles O11: each opcode byte is the whole instruction, and the updates that each makes touch only the fields named. -/
theorem nopAndDi : Obligations.NopAndDi := by
  refine ⟨?nopBytes, ?diBytes, ?costs, fun s => ⟨?nop, ?di⟩⟩
  case nopBytes => exact decode_implied (op := 0x00) rfl
  case diBytes => exact decode_implied (op := 0xF3) rfl
  case costs => exact ⟨rfl, rfl⟩
  case nop => rw [exec_nop, State.setCycles]
  case di => rw [exec_di, State.setIme, State.setEiPending, State.setCycles]

end Sys2Proof.Machine
end

section
/-! Jumps, calls and returns (41_jumps_calls.md R160 to R171): the condition table, the target of a relative jump, what a call does
to the stack and a return takes from it, and what each transfer makes of the state. -/

namespace Sys2Proof.Machine

/-! ### Spelling, conditions and targets -/

theorem spelledBy_implied {op : Byte} {i : Instr} (h : opForm op = .implied i) : SpelledBy i [op] := decode_implied h

theorem spelledBy_withByte {op : Byte} {f : Byte → Instr} (h : opForm op = .withByte f) (n : Byte) : SpelledBy (f n) [op, n] :=
  decode_withByte h n

theorem spelledBy_withWord {op : Byte} {f : Word → Instr} (h : opForm op = .withWord f) (lo hi : Byte) :
    SpelledBy (f (hi ++ lo)) [op, lo, hi] := decode_withWord h lo hi

theorem Flags.holds_eq_true_iff_taken {f : Flags} {cc : Cond} : f.holds cc = true ↔ Taken cc f := by
  cases cc <;> simp [Flags.holds, Taken]

theorem State.relativeTarget_eq_ofInt (s : State) (e : Byte) :
    s.relativeTarget e = BitVec.ofInt 16 ((s.pc.toNat : Int) + e.toInt) := by
  rw [State.relativeTarget, signExtend16, BitVec.signExtend, BitVec.ofInt_add, BitVec.ofInt_natCast, BitVec.ofNat_toNat,
    BitVec.setWidth_eq]

theorem opForm_rst (t : U3) : opForm (BitVec.ofNat 8 (0xC7 + 8 * t.val)) = .implied (.rst t) := by
  fin_cases t <;> rfl

theorem rstTarget_eq (t : U3) : rstTarget t = BitVec.ofNat 16 (8 * t.val) := by rw [rstTarget, Nat.mul_comm]

/-! ### Jumps -/

theorem exec_jpNn (nn : Word) (s : State) : exec (.jpNn nn) s = .next ((s.setPc nn).setCycles s.config.cyc.jumps.jpNn) := rfl

theorem exec_jpHl (s : State) : exec .jpHl s = .next ((s.setPc s.hl).setCycles s.config.cyc.jumps.jpHl) := rfl

theorem exec_jrE (e : Byte) (s : State) :
    exec (.jrE e) s = .next ((s.setPc (s.relativeTarget e)).setCycles s.config.cyc.jumps.jrE) := rfl

section Conditional
variable {cc : Cond} {s : State}

theorem exec_jpCcNn_of_taken (h : Taken cc s.flags) (nn : Word) :
    exec (.jpCcNn cc nn) s = .next ((s.setPc nn).setCycles s.config.cyc.jumps.jpCcNn.taken) :=
  if_pos (Flags.holds_eq_true_iff_taken.2 h)

theorem exec_jpCcNn_of_not_taken (h : ¬Taken cc s.flags) (nn : Word) :
    exec (.jpCcNn cc nn) s = .next (s.setCycles s.config.cyc.jumps.jpCcNn.notTaken) :=
  if_neg (mt Flags.holds_eq_true_iff_taken.1 h)

theorem exec_jrCcE_of_taken (h : Taken cc s.flags) (e : Byte) :
    exec (.jrCcE cc e) s = .next ((s.setPc (s.relativeTarget e)).setCycles s.config.cyc.jumps.jrCcE.taken) :=
  if_pos (Flags.holds_eq_true_iff_taken.2 h)

theorem exec_jrCcE_of_not_taken (h : ¬Taken cc s.flags) (e : Byte) :
    exec (.jrCcE cc e) s = .next (s.setCycles s.config.cyc.jumps.jrCcE.notTaken) :=
  if_neg (mt Flags.holds_eq_true_iff_taken.1 h)

theorem exec_callCcNn_of_taken (h : Taken cc s.flags) (nn : Word) :
    exec (.callCcNn cc nn) s = costing s.config.cyc.jumps.callCcNn.taken (callTo nn s) :=
  if_pos (Flags.holds_eq_true_iff_taken.2 h)

theorem exec_callCcNn_of_not_taken (h : ¬Taken cc s.flags) (nn : Word) :
    exec (.callCcNn cc nn) s = .next (s.setCycles s.config.cyc.jumps.callCcNn.notTaken) :=
  if_neg (mt Flags.holds_eq_true_iff_taken.1 h)

theorem exec_retCc_of_taken (h : Taken cc s.flags) :
    exec (.retCc cc) s = costing s.config.cyc.jumps.retCc.taken (popPc s) :=
  if_pos (Flags.holds_eq_true_iff_taken.2 h)

theorem exec_retCc_of_not_taken (h : ¬Taken cc s.flags) :
    exec (.retCc cc) s = .next (s.setCycles s.config.cyc.jumps.retCc.notTaken) :=
  if_neg (mt Flags.holds_eq_true_iff_taken.1 h)

end Conditional

/-- Settles O15: each jump writes `pc` and the cost, or the cost alone when its condition fails. -/
theorem absoluteJumps : Obligations.AbsoluteJumps := by
  refine ⟨fun lo hi => ⟨?jp, ?jpNz, ?jpZ, ?jpNc, ?jpC⟩, ?jpHl, ?costs, fun s cc nn => ⟨?always, ?taken, ?notTaken, ?toHl⟩⟩
  case jp => exact spelledBy_withWord rfl lo hi
  case jpNz => exact spelledBy_withWord (f := .jpCcNn .nz) rfl lo hi
  case jpZ => exact spelledBy_withWord (f := .jpCcNn .z) rfl lo hi
  case jpNc => exact spelledBy_withWord (f := .jpCcNn .nc) rfl lo hi
  case jpC => exact spelledBy_withWord (f := .jpCcNn .c) rfl lo hi
  case jpHl => exact spelledBy_implied rfl
  case costs => exact ⟨rfl, rfl, rfl⟩
  case always => exact exec_jpNn nn s
  case taken => exact fun h => exec_jpCcNn_of_taken h nn
  case notTaken => exact fun h => exec_jpCcNn_of_not_taken h nn
  case toHl => exact exec_jpHl s

/-- Settles O16: the target the meanings compute with a sign extension is the integer sum modulo 2^16. -/
theorem relativeJumps : Obligations.RelativeJumps := by
  refine ⟨fun e => ⟨?jr, ?jrNz, ?jrZ, ?jrNc, ?jrC⟩, ?costs, fun s cc e => ?_⟩
  case jr => exact spelledBy_withByte rfl e
  case jrNz => exact spelledBy_withByte (f := .jrCcE .nz) rfl e
  case jrZ => exact spelledBy_withByte (f := .jrCcE .z) rfl e
  case jrNc => exact spelledBy_withByte (f := .jrCcE .nc) rfl e
  case jrC => exact spelledBy_withByte (f := .jrCcE .c) rfl e
  case costs => exact ⟨rfl, rfl⟩
  rw [← State.relativeTarget_eq_ofInt]
  exact ⟨exec_jrE e s, fun h => exec_jrCcE_of_taken h e, fun h => exec_jrCcE_of_not_taken h e⟩

/-! ### Calls -/

/-- A call is the two stores of a push, then `sp` and `pc`. -/
theorem callTo_eq (target : Word) (s : State) :
    callTo target s =
      (memWrite s (s.sp - 1) (hiByte s.pc) >>= fun u => memWrite u (s.sp - 2) (loByte s.pc)).map
        fun u => (u.setSp (s.sp - 2)).setPc target := by
  rw [callTo, push16_eq]
  cases memWrite s (s.sp - 1) (hiByte s.pc) >>= fun u => memWrite u (s.sp - 2) (loByte s.pc) <;> rfl

theorem storesPair_of_callTo {i : Instr} {s : State} {target : Word} {c : Nat} (h : exec i s = costing c (callTo target s)) :
    StoresPair i s (s.sp - 1) (s.pc.extractLsb' 8 8) (s.sp - 2) (s.pc.extractLsb' 0 8) fun u =>
      { u with sp := s.sp - 2, pc := target, cycles := c } :=
  storesPair_of (h.trans (congrArg (costing c) (callTo_eq target s))) fun _ _ _ _ => rfl

/-- Settles O17: every taken call is `callTo` at its own cost. -/
theorem callsPushReturnAddress : Obligations.CallsPushReturnAddress := by
  refine ⟨fun lo hi => ⟨?call, ?callNz, ?callZ, ?callNc, ?callC⟩, ?rstByte, ?costs,
    fun s cc nn t => ⟨?always, ?taken, ?notTaken, ?rst⟩⟩
  case call => exact spelledBy_withWord rfl lo hi
  case callNz => exact spelledBy_withWord (f := .callCcNn .nz) rfl lo hi
  case callZ => exact spelledBy_withWord (f := .callCcNn .z) rfl lo hi
  case callNc => exact spelledBy_withWord (f := .callCcNn .nc) rfl lo hi
  case callC => exact spelledBy_withWord (f := .callCcNn .c) rfl lo hi
  case rstByte => exact fun t => spelledBy_implied (opForm_rst t)
  case costs => exact ⟨rfl, rfl, rfl⟩
  case always => exact storesPair_of_callTo rfl
  case taken => exact fun h => storesPair_of_callTo (exec_callCcNn_of_taken h nn)
  case notTaken => exact fun h => exec_callCcNn_of_not_taken h nn
  case rst =>
    rw [← rstTarget_eq]
    exact storesPair_of_callTo rfl

/-! ### Returns -/

/-- A return is the two reads of a pop, then `sp` and `pc`. -/
theorem popPc_eq (s : State) :
    popPc s = (memRead s s.sp >>= fun lo => memRead s (s.sp + 1) >>= fun hi =>
      pure ((s.setSp (s.sp + 2)).setPc (hi ++ lo))) := by
  rw [popPc, pop16_eq]
  cases memRead s s.sp with
  | error e => rfl
  | ok lo => cases memRead s (s.sp + 1) <;> rfl

theorem returnFromInterrupt_eq (s : State) :
    returnFromInterrupt s = (memRead s s.sp >>= fun lo => memRead s (s.sp + 1) >>= fun hi =>
      pure ((((s.setSp (s.sp + 2)).setPc (hi ++ lo)).setIme true).setEiPending false)) := by
  rw [returnFromInterrupt, popPc_eq]
  cases memRead s s.sp with
  | error e => rfl
  | ok lo => cases memRead s (s.sp + 1) <;> rfl

theorem loadsPair_of_popPc {i : Instr} {s : State} {c : Nat} (h : exec i s = costing c (popPc s)) :
    LoadsPair i s s.sp (s.sp + 1) fun lo hi => { s with sp := s.sp + 2, pc := hi ++ lo, cycles := c } :=
  loadsPair_of (h.trans (congrArg (costing c) (popPc_eq s))) fun _ _ => rfl

theorem loadsPair_of_returnFromInterrupt {i : Instr} {s : State} {c : Nat}
    (h : exec i s = costing c (returnFromInterrupt s)) :
    LoadsPair i s s.sp (s.sp + 1) fun lo hi =>
      { s with sp := s.sp + 2, pc := hi ++ lo, ime := true, eiPending := false, cycles := c } :=
  loadsPair_of (h.trans (congrArg (costing c) (returnFromInterrupt_eq s))) fun _ _ => rfl

/-- Settles O18: RET and a taken `RET cc` are `popPc` at their own cost, RETI the return from an interrupt. -/
theorem returnsPopAddress : Obligations.ReturnsPopAddress := by
  refine ⟨⟨?retByte, ?retiByte, ?retNz, ?retZ, ?retNc, ?retC⟩, ?costs, fun s cc => ⟨?ret, ?taken, ?notTaken, ?reti⟩⟩
  case retByte => exact spelledBy_implied rfl
  case retiByte => exact spelledBy_implied rfl
  case retNz => exact spelledBy_implied rfl
  case retZ => exact spelledBy_implied rfl
  case retNc => exact spelledBy_implied rfl
  case retC => exact spelledBy_implied rfl
  case costs => exact ⟨rfl, rfl, rfl⟩
  case ret => exact loadsPair_of_popPc rfl
  case taken => exact fun h => loadsPair_of_popPc (exec_retCc_of_taken h)
  case notTaken => exact exec_retCc_of_not_taken
  case reti => exact loadsPair_of_returnFromInterrupt rfl

end Sys2Proof.Machine
end

section
/-! 8-bit loads and stores (42_load8.md R180 to R199): the opcode bytes that carry a register selector, what each load or store makes
of the state, and the obligations on them. -/

namespace Sys2Proof.Machine

/-! ### Opcode bytes with a register selector -/

theorem opForm_ldRR (r r' : Reg8) :
    opForm (BitVec.ofNat 8 (0x40 + 8 * (reg8Code r).val + (reg8Code r').val)) = .implied (.ldRR r r') := by
  cases r <;> cases r' <;> rfl

theorem opForm_ldRN (r : Reg8) : opForm (BitVec.ofNat 8 (0x06 + 8 * (reg8Code r).val)) = .withByte (.ldRN r) := by
  cases r <;> rfl

theorem opForm_ldRHl (r : Reg8) : opForm (BitVec.ofNat 8 (0x46 + 8 * (reg8Code r).val)) = .implied (.ldRHl r) := by
  cases r <;> rfl

theorem opForm_ldHlR (r : Reg8) : opForm (BitVec.ofNat 8 (0x70 + (reg8Code r).val)) = .implied (.ldHlR r) := by
  cases r <;> rfl

/-! ### Register loads -/

theorem exec_ldRR (r r' : Reg8) (s : State) :
    exec (.ldRR r r') s = .next ((s.setReg r (s.reg r')).setCycles s.config.cyc.load8.rr) := rfl

theorem exec_ldRN (r : Reg8) (n : Byte) (s : State) :
    exec (.ldRN r n) s = .next ((s.setReg r n).setCycles s.config.cyc.load8.rn) := rfl

/-- Settles O20: each load writes one register and the cost. -/
theorem registerLoads : Obligations.RegisterLoads := by
  refine ⟨?rrBytes, ?rnBytes, ?costs, fun s r r' n => ⟨?rr, ?rn⟩⟩
  case rrBytes => exact fun r r' => spelledBy_implied (opForm_ldRR r r')
  case rnBytes => exact fun r n => spelledBy_withByte (opForm_ldRN r) n
  case costs => exact ⟨rfl, rfl⟩
  case rr => exact exec_ldRR r r' s
  case rn => exact exec_ldRN r n s

/-! ### Loads from memory -/

section Load
variable {i : Instr} {s : State} {c : Nat}

theorem loadsFrom_of_loadA {addr : Word} (h : exec i s = loadA addr c s) :
    LoadsFrom i s addr fun v => { s with regs := { s.regs with a := v }, cycles := c } :=
  loadsFrom_of h fun _ => rfl

theorem loadsFrom_highPage_of_loadA {n : Byte} (h : exec i s = loadA (highPage n) c s) :
    LoadsFrom i s (0xFF#8 ++ n) fun v => { s with regs := { s.regs with a := v }, cycles := c } :=
  loadsFrom_of_loadA (h.trans (congrArg (loadA · c s) (highPage_eq n)))

/-- A load of A at HL that leaves `w` in HL. -/
theorem loadsFrom_of_loadA_setHl {w : Word}
    (h : exec i s = costing c (memRead s s.hl >>= fun v => pure ((s.setReg .a v).setHl w))) :
    LoadsFrom i s (s.regs.h ++ s.regs.l) fun v => { s with regs := { s.regs with a := v }.setHl w, cycles := c } :=
  loadsFrom_of h fun _ => rfl

end Load

/-- Settles O21: seven of the loads are the load of A at their own address and cost, two of these with a step of HL after it. -/
theorem loadsFromMemory : Obligations.LoadsFromMemory := by
  refine ⟨⟨?rHlByte, ?hANBytes, ?aCByte, ?aBcByte, ?aDeByte, ?aHliByte, ?aHldByte, ?aNnBytes⟩, ?costs,
    fun s r n nn => ⟨?rHl, ?hAN, ?aC, ?aBc, ?aDe, ?aHli, ?aHld, ?aNn⟩⟩
  case rHlByte => exact fun r => spelledBy_implied (opForm_ldRHl r)
  case hANBytes => exact spelledBy_withByte rfl
  case aCByte | aBcByte | aDeByte | aHliByte | aHldByte => exact spelledBy_implied rfl
  case aNnBytes => exact spelledBy_withWord rfl
  case costs => exact ⟨rfl, rfl, rfl, rfl, rfl, rfl, rfl, rfl⟩
  case rHl => exact loadsFrom_of (g := s.setReg r) rfl fun _ => rfl
  case hAN | aC => exact loadsFrom_highPage_of_loadA rfl
  case aBc | aDe | aNn => exact loadsFrom_of_loadA rfl
  case aHli | aHld => exact loadsFrom_of_loadA_setHl rfl

/-! ### Stores to memory -/

section Store
variable {i : Instr} {s : State} {c : Nat}

theorem storesTo_of_memWrite {addr : Word} {v : Byte} (h : exec i s = costing c (memWrite s addr v)) :
    StoresTo i s addr v fun u => { u with cycles := c } :=
  storesTo_of (g := id) (h.trans (congrArg (costing c) (bind_pure _).symm)) fun _ _ => rfl

theorem storesTo_highPage_of_storeA {n : Byte} (h : exec i s = storeA (highPage n) c s) :
    StoresTo i s (0xFF#8 ++ n) s.regs.a fun u => { u with cycles := c } :=
  storesTo_of_memWrite (h.trans (congrArg (storeA · c s) (highPage_eq n)))

/-- A store of A at HL, then a move of HL by `f`: the store keeps the registers, so the HL that moves is the one before it. -/
theorem storesTo_of_storeA_moveHl {f : Word → Word}
    (h : exec i s = costing c (memWrite s s.hl s.regs.a >>= fun u => pure (u.setHl (f u.hl)))) :
    StoresTo i s (s.regs.h ++ s.regs.l) s.regs.a fun u =>
      { u with regs := s.regs.setHl (f (s.regs.h ++ s.regs.l)), cycles := c } := by
  refine storesTo_of h fun u hu => ?_
  have hregs : u.regs = s.regs := (memWrite_core hu).regs
  rw [State.setHl, State.hl, hregs]
  rfl

end Store

/-- Settles O22: each store is one `memWrite` at its own address and cost, two of them with a step of HL after it. -/
theorem storesToMemory : Obligations.StoresToMemory := by
  refine ⟨⟨?hlRByte, fun n => ⟨?hlNBytes, ?hNABytes⟩, ?cAByte, ?bcAByte, ?deAByte, ?hliAByte, ?hldAByte, ?nnABytes⟩, ?costs,
    fun s r n nn => ⟨?hlR, ?hlN, ?hNA, ?cA, ?bcA, ?deA, ?hliA, ?hldA, ?nnA⟩⟩
  case hlRByte => exact fun r => spelledBy_implied (opForm_ldHlR r)
  case hlNBytes | hNABytes => exact spelledBy_withByte rfl n
  case cAByte | bcAByte | deAByte | hliAByte | hldAByte => exact spelledBy_implied rfl
  case nnABytes => exact spelledBy_withWord rfl
  case costs => exact ⟨rfl, rfl, rfl, rfl, rfl, rfl, rfl, rfl, rfl⟩
  case hlR | hlN | bcA | deA | nnA => exact storesTo_of_memWrite rfl
  case hNA | cA => exact storesTo_highPage_of_storeA rfl
  case hliA => exact storesTo_of_storeA_moveHl (f := (· + 1)) rfl
  case hldA => exact storesTo_of_storeA_moveHl (f := (· - 1)) rfl

end Sys2Proof.Machine
end

section
/-! 16-bit loads and the stack (43_load16.md R210 to R216, 45_alu16.md R263): a pair written by its two bytes, the two stores of a push
and the two reads of a pop, the sum of `sp` and an offset, and the obligations on them. -/

namespace Sys2Proof.Machine

/-! ### A pair written by its two bytes -/

theorem Regs.setBc_append (g : Regs) (hi lo : Byte) : g.setBc (hi ++ lo) = { g with b := hi, c := lo } := by
  rw [Regs.setBc, ← joinBytes, hiByte_join, loByte_join]

theorem Regs.setDe_append (g : Regs) (hi lo : Byte) : g.setDe (hi ++ lo) = { g with d := hi, e := lo } := by
  rw [Regs.setDe, ← joinBytes, hiByte_join, loByte_join]

theorem Regs.setHl_append (g : Regs) (hi lo : Byte) : g.setHl (hi ++ lo) = { g with h := hi, l := lo } := by
  rw [Regs.setHl, ← joinBytes, hiByte_join, loByte_join]

/-! ### Pair loads -/

theorem exec_ldRrNn (p : Reg16) (nn : Word) (s : State) :
    exec (.ldRrNn p nn) s = .next ((s.setR16 p nn).setCycles s.config.cyc.load16.rrNn) := rfl

theorem exec_ldSpHl (s : State) : exec .ldSpHl s = .next ((s.setSp s.hl).setCycles s.config.cyc.load16.spHl) := rfl

/-- Settles O23: each load writes its pair, as two registers or as `sp`, and the cost. -/
theorem pairLoads : Obligations.PairLoads := by
  refine ⟨fun lo hi => ⟨?bcBytes, ?deBytes, ?hlBytes, ?spBytes⟩, ?spHlByte, ?costs, fun s lo hi => ⟨?bc, ?de, ?hl, ?sp, ?spHl⟩⟩
  case bcBytes => exact spelledBy_withWord (f := .ldRrNn .bc) rfl lo hi
  case deBytes => exact spelledBy_withWord (f := .ldRrNn .de) rfl lo hi
  case hlBytes => exact spelledBy_withWord (f := .ldRrNn .hl) rfl lo hi
  case spBytes => exact spelledBy_withWord (f := .ldRrNn .sp) rfl lo hi
  case spHlByte => exact spelledBy_implied rfl
  case costs => exact ⟨rfl, rfl⟩
  case bc => rw [exec_ldRrNn, State.setR16, Regs.setBc_append, State.setRegs, State.setCycles]
  case de => rw [exec_ldRrNn, State.setR16, Regs.setDe_append, State.setRegs, State.setCycles]
  case hl => rw [exec_ldRrNn, State.setR16, Regs.setHl_append, State.setRegs, State.setCycles]
  case sp => exact exec_ldRrNn .sp (hi ++ lo) s
  case spHl => exact exec_ldSpHl s

/-! ### The store of `sp` -/

theorem exec_ldNnSp (nn : Word) (s : State) :
    exec (.ldNnSp nn) s = costing s.config.cyc.load16.nnSp
      ((memWrite s nn (loByte s.sp) >>= fun u => memWrite u (nn + 1) (hiByte s.sp)).map id) := by
  rw [Except.map_id]
  rfl

/-- Settles O24: the two stores leave nothing to do but the cost. -/
theorem storeStackPointer : Obligations.StoreStackPointer := by
  refine ⟨?bytes, ?cost, fun s nn => ?stores⟩
  case bytes => exact spelledBy_withWord rfl
  case cost => rfl
  case stores => exact storesPair_of (exec_ldNnSp nn s) fun _ _ _ _ => rfl

/-! ### PUSH -/

theorem toNat_append_eq_add {m n : Nat} (x : BitVec m) (y : BitVec n) : (x ++ y).toNat = x.toNat * 2 ^ n + y.toNat := by
  rw [BitVec.toNat_append, Nat.shiftLeft_eq, Nat.mul_comm, Nat.two_pow_add_eq_or_of_lt y.isLt]

/-- Each flag counts with the weight of its bit, 7 to 4. -/
theorem State.flagByte_toNat (s : State) :
    s.flagByte.toNat = s.flags.z.toNat * 0x80 + s.flags.n.toNat * 0x40 + s.flags.h.toNat * 0x20 + s.flags.c.toNat * 0x10 +
      s.config.fLow.toNat := by
  simp only [State.flagByte, Flags.toByte, toNat_append_eq_add, BitVec.toNat_ofBool]
  omega

theorem storesPair_of_push16 {i : Instr} {s : State} {hi lo : Byte} {c : Nat}
    (h : exec i s = costing c (push16 (joinBytes hi lo) s)) :
    StoresPair i s (s.sp - 1) hi (s.sp - 2) lo fun u => { u with sp := s.sp - 2, cycles := c } := by
  rw [push16_eq, hiByte_join, loByte_join] at h
  exact storesPair_of h fun _ _ _ _ => rfl

/-- Settles O25: every PUSH is the push of its pair, and for AF the low byte of the pair is the flag byte. -/
theorem pushStoresPair : Obligations.PushStoresPair := by
  refine ⟨⟨?bcByte, ?deByte, ?hlByte, ?afByte⟩, ?cost, fun s => ⟨?bc, ?de, ?hl, ?af⟩⟩
  case bcByte | deByte | hlByte | afByte => exact spelledBy_implied rfl
  case cost => rfl
  case bc | de | hl => exact storesPair_of_push16 rfl
  case af =>
    rw [← State.flagByte_toNat, BitVec.ofNat_toNat, BitVec.setWidth_eq]
    exact storesPair_of_push16 rfl

/-! ### POP -/

theorem exec_popRr (p : Stk16) (s : State) :
    exec (.popRr p) s = costing s.config.cycPop (memRead s s.sp >>= fun lo => memRead s (s.sp + 1) >>= fun hi =>
      pure ((s.setSp (s.sp + 2)).setStk16 p (hi ++ lo))) := by
  change costing s.config.cycPop (pop16 s >>= fun x => pure (x.2.setStk16 p x.1)) = _
  rw [pop16_eq]
  cases memRead s s.sp with
  | error e => rfl
  | ok lo => cases memRead s (s.sp + 1) <;> rfl

/-- A pair popped into two registers, or into A and the flags. -/
theorem loadsPair_popRr {p : Stk16} {s : State} {regs : Byte → Byte → Regs} {flags : Byte → Flags}
    (h : ∀ lo hi, (s.setSp (s.sp + 2)).setStk16 p (hi ++ lo) =
      { s with regs := regs lo hi, flags := flags lo, sp := s.sp + 2 }) :
    LoadsPair (.popRr p) s s.sp (s.sp + 1) fun lo hi =>
      { s with regs := regs lo hi, flags := flags lo, sp := s.sp + 2, cycles := s.config.cycPop } :=
  loadsPair_of (exec_popRr p s) fun lo hi => congrArg (·.setCycles s.config.cycPop) (h lo hi)

/-- Settles O26: every POP is the two reads of a pop and a write of its pair. -/
theorem popLoadsPair : Obligations.PopLoadsPair := by
  refine ⟨⟨?bcByte, ?deByte, ?hlByte, ?afByte⟩, ?cost, fun s => ⟨?bc, ?de, ?hl, ?af⟩⟩
  case bcByte | deByte | hlByte | afByte => exact spelledBy_implied rfl
  case cost => rfl
  case bc => exact loadsPair_popRr fun lo hi => congrArg (s.setSp (s.sp + 2)).setRegs (s.regs.setBc_append hi lo)
  case de => exact loadsPair_popRr fun lo hi => congrArg (s.setSp (s.sp + 2)).setRegs (s.regs.setDe_append hi lo)
  case hl => exact loadsPair_popRr fun lo hi => congrArg (s.setSp (s.sp + 2)).setRegs (s.regs.setHl_append hi lo)
  case af =>
    refine loadsPair_popRr fun lo hi => ?_
    rw [← joinBytes, State.setStk16, hiByte_join, loByte_join]
    rfl

/-! ### `sp` plus a signed offset -/

/-- The sum is the target of a relative jump from `sp`; the carries are those of the numbers in the low four and eight bits. -/
theorem addSpOffset_eq (s : State) (e : Byte) :
    addSpOffset s.sp e =
      { value := BitVec.ofInt 16 ((s.sp.toNat : Int) + e.toInt)
        flags :=
          { z := false
            n := false
            h := decide (s.sp.toNat % 16 + e.toNat % 16 > 15)
            c := decide (s.sp.toNat % 256 + e.toNat > 255) } } := by
  have hsum : s.sp + e.signExtend 16 = BitVec.ofInt 16 ((s.sp.toNat : Int) + e.toInt) :=
    (s.setPc s.sp).relativeTarget_eq_ofInt e
  simp only [addSpOffset, hsum, BitVec.extractLsb'_toNat, Nat.shiftRight_zero, Nat.reducePow]

theorem exec_ldHlSpE (e : Byte) (s : State) :
    exec (.ldHlSpE e) s = .next (((s.setHl (addSpOffset s.sp e).value).setFlags (addSpOffset s.sp e).flags).setCycles
      s.config.cyc.load16.hlSpE) := rfl

theorem exec_addSpE (e : Byte) (s : State) :
    exec (.addSpE e) s = .next (((s.setSp (addSpOffset s.sp e).value).setFlags (addSpOffset s.sp e).flags).setCycles
      s.config.cyc.alu16.addSpE) := rfl

/-- Settles O27: both write the one sum and its flags, to HL and to `sp`. -/
theorem stackPointerPlusOffset : Obligations.StackPointerPlusOffset := by
  refine ⟨fun e => ⟨?hlSpEBytes, ?addSpEBytes⟩, ?costs, fun s e => ⟨?hlSpE, ?addSpE⟩⟩
  case hlSpEBytes | addSpEBytes => exact spelledBy_withByte rfl e
  case costs => exact ⟨rfl, rfl⟩
  case hlSpE =>
    rw [exec_ldHlSpE, addSpOffset_eq]
    rfl
  case addSpE =>
    rw [exec_addSpE, addSpOffset_eq]
    rfl

end Sys2Proof.Machine
end

section
/-! 8-bit arithmetic and logic (44_alu8.md R220 to R234): the opcode bytes of the operations on A and of INC and DEC, what an
operation with a known result makes of the state, the results in arithmetic, and the obligations on them. -/

namespace Sys2Proof.Machine

/-! ### Opcode bytes -/

/-- The register operands of the operation in row `y` of the block 0x80 to 0xBF. -/
theorem spelledBy_aluForm_reg {y : Fin 8} {r : Reg8} {i : Instr} (h : aluForm y (.reg r) = i) :
    SpelledBy i [BitVec.ofNat 8 (0x80 + 8 * y.val + (reg8Code r).val)] := by
  have hform : opForm (BitVec.ofNat 8 (0x80 + 8 * y.val + (reg8Code r).val)) = .implied (aluForm y (.reg r)) := by
    fin_cases y <;> cases r <;> rfl
  exact spelledBy_implied (hform.trans (congrArg OpForm.implied h))

theorem opForm_incR (r : Reg8) : opForm (BitVec.ofNat 8 (0x04 + 8 * (reg8Code r).val)) = .implied (.incR r) := by
  cases r <;> rfl

theorem opForm_decR (r : Reg8) : opForm (BitVec.ofNat 8 (0x05 + 8 * (reg8Code r).val)) = .implied (.decR r) := by
  cases r <;> rfl

/-! ### What an operation with a known result makes of the state -/

section Result
variable {i : Instr} {s : State} {c : Nat}

theorem exec_of_setA {r : AluOut} {x : Byte} {f : Flags} (h : exec i s = .next ((s.setA r).setCycles c)) (hr : r = ⟨x, f⟩) :
    exec i s = .next { s with regs := { s.regs with a := x }, flags := f, cycles := c } := by
  rw [h, hr]
  rfl

theorem loadsFrom_of_setA {r : Byte → AluOut} {x : Byte → Byte} {f : Byte → Flags}
    (h : exec i s = costing c (memRead s s.hl >>= fun v => pure (s.setA (r v)))) (hr : ∀ v, r v = ⟨x v, f v⟩) :
    LoadsFrom i s (s.regs.h ++ s.regs.l) fun v => { s with regs := { s.regs with a := x v }, flags := f v, cycles := c } :=
  loadsFrom_of h fun v => congrArg (fun r => (s.setA r).setCycles c) (hr v)

theorem stepOperand_reg (op : Byte → Flags → AluOut) (r : Reg8) (c : Nat) (s : State) :
    stepOperand op (.reg r) c s =
      .next (((s.setReg r (op (s.reg r) s.flags).value).setFlags (op (s.reg r) s.flags).flags).setCycles c) := rfl

theorem exec_of_stepOperand_reg {op : Byte → Flags → AluOut} {r : Reg8} {x : Byte} {f : Flags}
    (h : exec i s = stepOperand op (.reg r) c s) (hop : op (s.regs.get r) s.flags = ⟨x, f⟩) :
    exec i s = .next { s with regs := s.regs.set r x, flags := f, cycles := c } := by
  rw [h, stepOperand_reg, State.reg, hop]
  rfl

theorem rewrites_of_stepOperand_hlInd {op : Byte → Flags → AluOut} {x : Byte → Byte} {f : Byte → Flags}
    (h : exec i s = stepOperand op .hlInd c s) (hop : ∀ v, op v s.flags = ⟨x v, f v⟩) :
    Rewrites i s (s.regs.h ++ s.regs.l) x fun v u => { u with flags := f v, cycles := c } := by
  obtain rfl : x = fun v => (op v s.flags).value := funext fun v => congrArg AluOut.value (hop v).symm
  obtain rfl : f = fun v => (op v s.flags).flags := funext fun v => congrArg AluOut.flags (hop v).symm
  exact rewrites_of h fun _ _ _ => rfl

end Result

/-! ### Addition -/

/-- The sum narrows to the sum of the bytes, and it is a multiple of 256 at 0 and at 256 alone. -/
theorem add8_eq (a v : Byte) (cin : Bool) :
    add8 a v cin =
      { value := a + v + BitVec.ofNat 8 cin.toNat
        flags :=
          { z := decide (a.toNat + v.toNat + cin.toNat = 0 ∨ a.toNat + v.toNat + cin.toNat = 256)
            n := false
            h := decide (a.toNat % 16 + v.toNat % 16 + cin.toNat > 15)
            c := decide (a.toNat + v.toNat + cin.toNat > 255) } } := by
  have hvalue : BitVec.ofNat 8 (a.toNat + v.toNat + cin.toNat) = a + v + BitVec.ofNat 8 cin.toNat := by
    simp only [BitVec.ofNat_add, BitVec.ofNat_toNat, BitVec.setWidth_eq]
  have hzero : (a.toNat + v.toNat + cin.toNat) % 256 = 0 ↔
      a.toNat + v.toNat + cin.toNat = 0 ∨ a.toNat + v.toNat + cin.toNat = 256 := by
    have hc := cin.toNat_le
    omega
  simp only [add8, hvalue, hzero]

/-- Settles O29: all six are the addition of their operand, with no carry in for ADD and the Carry flag for ADC. -/
theorem additionFamily : Obligations.AdditionFamily := by
  refine ⟨fun r n => ⟨?addRByte, ?addHlByte, ?addNBytes, ?adcRByte, ?adcHlByte, ?adcNBytes⟩, ?costs,
    fun s r n => ⟨?addR, ?addHl, ?addN, ?adcR, ?adcHl, ?adcN⟩⟩
  case addRByte => exact spelledBy_aluForm_reg (y := 0) rfl
  case adcRByte => exact spelledBy_aluForm_reg (y := 1) rfl
  case addHlByte | adcHlByte => exact spelledBy_implied rfl
  case addNBytes | adcNBytes => exact spelledBy_withByte rfl n
  case costs => exact ⟨rfl, rfl⟩
  case addR | addN | adcR | adcN => exact exec_of_setA rfl (add8_eq _ _ _)
  case addHl | adcHl => exact loadsFrom_of_setA rfl fun v => add8_eq s.regs.a v _

/-! ### Subtraction -/

theorem ofInt_sub_eq (w : Nat) (x y : Int) : BitVec.ofInt w (x - y) = BitVec.ofInt w x - BitVec.ofInt w y := by
  rw [Int.sub_eq_add_neg, BitVec.ofInt_add, BitVec.ofInt_neg, BitVec.sub_eq_add_neg]

/-- The flags of a subtraction as comparisons: of the bytes modulo 256, of their low digits, and of their values. -/
def subFlags (a v : Byte) (cin : Bool) : Flags where
  z := decide (a = v + BitVec.ofNat 8 cin.toNat)
  n := true
  h := decide (a.toNat % 16 < v.toNat % 16 + cin.toNat)
  c := decide (a.toNat < v.toNat + cin.toNat)

theorem sub8_eq (a v : Byte) (cin : Bool) :
    sub8 a v cin = { value := a - v - BitVec.ofNat 8 cin.toNat, flags := subFlags a v cin } := by
  have hvalue : BitVec.ofInt 8 ((a.toNat : Int) - v.toNat - cin.toNat) = a - v - BitVec.ofNat 8 cin.toNat := by
    simp only [ofInt_sub_eq, BitVec.ofInt_natCast, BitVec.ofNat_toNat, BitVec.setWidth_eq]
  have hzero : ((a.toNat : Int) - v.toNat - cin.toNat) % 256 = 0 ↔ a = v + BitVec.ofNat 8 cin.toNat := by
    have hc := cin.toNat_le
    rw [← BitVec.toNat_inj, BitVec.toNat_add, BitVec.toNat_ofNat]
    omega
  have hhalf : ((a.toNat % 16 : Nat) : Int) - ((v.toNat % 16 : Nat) : Int) - cin.toNat < 0 ↔
      a.toNat % 16 < v.toNat % 16 + cin.toNat := by omega
  have hborrow : (a.toNat : Int) - v.toNat - cin.toNat < 0 ↔ a.toNat < v.toNat + cin.toNat := by omega
  simp only [sub8, subFlags, hvalue, hzero, hhalf, hborrow]

theorem aluCp_eq (a v : Byte) (f : Flags) : aluCp a v f = { value := a, flags := subFlags a v false } := by rw [aluCp, sub8_eq]

/-- Settles O30: all nine are the subtraction of their operand, with the Carry flag as borrow in for SBC; CP puts A back in A. -/
theorem subtractionFamily : Obligations.SubtractionFamily := by
  refine ⟨fun r n => ⟨?subRByte, ?subHlByte, ?subNBytes, ?sbcRByte, ?sbcHlByte, ?sbcNBytes, ?cpRByte, ?cpHlByte, ?cpNBytes⟩,
    ?costs, fun s r n => ⟨?subR, ?subHl, ?subN, ?sbcR, ?sbcHl, ?sbcN, ?cpR, ?cpHl, ?cpN⟩⟩
  case subRByte => exact spelledBy_aluForm_reg (y := 2) rfl
  case sbcRByte => exact spelledBy_aluForm_reg (y := 3) rfl
  case cpRByte => exact spelledBy_aluForm_reg (y := 7) rfl
  case subHlByte | sbcHlByte | cpHlByte => exact spelledBy_implied rfl
  case subNBytes | sbcNBytes | cpNBytes => exact spelledBy_withByte rfl n
  case costs => exact ⟨rfl, rfl, rfl⟩
  case subR | subN | sbcR | sbcN => exact exec_of_setA rfl (sub8_eq _ _ _)
  case subHl | sbcHl => exact loadsFrom_of_setA rfl fun v => sub8_eq s.regs.a v _
  case cpR | cpN => exact exec_of_setA rfl (aluCp_eq _ _ _)
  case cpHl => exact loadsFrom_of_setA rfl fun v => aluCp_eq s.regs.a v s.flags

/-! ### Logic -/

/-- Settles O31: each operation is `logicOut` of its bitwise result. -/
theorem logicFamily : Obligations.LogicFamily := by
  refine ⟨fun r n => ⟨?andRByte, ?andHlByte, ?andNBytes, ?xorRByte, ?xorHlByte, ?xorNBytes, ?orRByte, ?orHlByte, ?orNBytes⟩,
    ?costs, fun s r n => ⟨?andR, ?andHl, ?andN, ?xorR, ?xorHl, ?xorN, ?orR, ?orHl, ?orN⟩⟩
  case andRByte => exact spelledBy_aluForm_reg (y := 4) rfl
  case xorRByte => exact spelledBy_aluForm_reg (y := 5) rfl
  case orRByte => exact spelledBy_aluForm_reg (y := 6) rfl
  case andHlByte | xorHlByte | orHlByte => exact spelledBy_implied rfl
  case andNBytes | xorNBytes | orNBytes => exact spelledBy_withByte rfl n
  case costs => exact ⟨rfl, rfl, rfl⟩
  case andR | andN | xorR | xorN | orR | orN => exact exec_of_setA rfl rfl
  case andHl | xorHl | orHl => exact loadsFrom_of_setA rfl fun _ => rfl

/-! ### INC and DEC -/

theorem lowNibble_eq_ofNat_iff (v : Byte) {k : Nat} (hk : k < 16) :
    v.extractLsb' 0 4 = BitVec.ofNat 4 k ↔ v.toNat % 16 = k := by
  rw [extractLow_eq_ofNat]
  exact ofNat_mod_eq_iff hk

theorem inc8_eq (v : Byte) (f : Flags) :
    inc8 v f =
      { value := v + 1, flags := { f with z := decide (v = 0xFF), n := false, h := decide (v.toNat % 16 = 15) } } := by
  have hzero : v + 1 = 0 ↔ v = 0xFF := by bv_omega
  have hhalf : v.extractLsb' 0 4 = 0xF#4 ↔ v.toNat % 16 = 15 := lowNibble_eq_ofNat_iff v (by decide)
  simp only [inc8, hzero, hhalf]

theorem dec8_eq (v : Byte) (f : Flags) :
    dec8 v f = { value := v - 1, flags := { f with z := decide (v = 1), n := true, h := decide (v.toNat % 16 = 0) } } := by
  have hzero : v - 1 = 0 ↔ v = 1 := by bv_omega
  have hhalf : v.extractLsb' 0 4 = 0x0#4 ↔ v.toNat % 16 = 0 := lowNibble_eq_ofNat_iff v (by decide)
  simp only [dec8, hzero, hhalf]

/-- Settles O32: the one meaning `stepOperand` on a register and on the byte at HL, with the results `inc8_eq` and `dec8_eq`. -/
theorem incrementDecrement : Obligations.IncrementDecrement := by
  refine ⟨fun r => ⟨?incRByte, ?incHlByte, ?decRByte, ?decHlByte⟩, ?costs, fun s r => ⟨?incR, ?decR, ?incHl, ?decHl⟩⟩
  case incRByte => exact spelledBy_implied (opForm_incR r)
  case decRByte => exact spelledBy_implied (opForm_decR r)
  case incHlByte | decHlByte => exact spelledBy_implied rfl
  case costs => exact ⟨rfl, rfl⟩
  case incR => exact exec_of_stepOperand_reg rfl (inc8_eq _ _)
  case decR => exact exec_of_stepOperand_reg rfl (dec8_eq _ _)
  case incHl => exact rewrites_of_stepOperand_hlInd rfl fun v => inc8_eq v s.flags
  case decHl => exact rewrites_of_stepOperand_hlInd rfl fun v => dec8_eq v s.flags

/-! ### CPL, SCF and CCF -/

theorem complement_eq (a : Byte) (f : Flags) : complement a f = { value := ~~~a, flags := { f with n := true, h := true } } :=
  congrArg (AluOut.mk · _) BitVec.xor_allOnes

theorem exec_scf (s : State) : exec .scf s = .next ((s.setFlags (scfFlags s.flags)).setCycles s.config.cyc.alu8.scf) := rfl

theorem exec_ccf (s : State) : exec .ccf s = .next ((s.setFlags (ccfFlags s.flags)).setCycles s.config.cyc.alu8.ccf) := rfl

/-- Settles O33: CPL writes A and the flags that `complement_eq` gives, SCF and CCF the flags alone. -/
theorem complementAndCarryFlag : Obligations.ComplementAndCarryFlag := by
  refine ⟨⟨?cplByte, ?scfByte, ?ccfByte⟩, ?costs, fun s => ⟨?cpl, ?scf, ?ccf⟩⟩
  case cplByte | scfByte | ccfByte => exact spelledBy_implied rfl
  case costs => exact ⟨rfl, rfl, rfl⟩
  case cpl => exact exec_of_setA rfl (complement_eq _ _)
  case scf => rw [exec_scf, scfFlags, State.setFlags, State.setCycles]
  case ccf => rw [exec_ccf, ccfFlags, State.setFlags, State.setCycles]

/-! ### DAA -/

/-- DAA uses the correction of the low digit. -/
def daaLow (a : Byte) (f : Flags) : Bool := f.h || (!f.n && decide (a.toNat % 16 > 9))

/-- DAA uses the correction of the high digit. -/
def daaHigh (a : Byte) (f : Flags) : Bool := f.c || (!f.n && decide (a.toNat > 0x99))

/-- What DAA adds, or subtracts after a subtraction. -/
def daaAmount (a : Byte) (f : Flags) : Nat := 6 * (daaLow a f).toNat + 96 * (daaHigh a f).toNat

/-- The adjustment depends on A only through its two tests, so it is a table over truth values. -/
theorem daaAdjustment_eq (a : Byte) (f : Flags) : daaAdjustment a f = (BitVec.ofNat 8 (daaAmount a f), daaHigh a f) := by
  obtain ⟨z, n, h, c⟩ := f
  have hnibble : (a.extractLsb' 0 4).toNat = a.toNat % 16 := by simp
  simp only [daaAdjustment, daaAmount, daaLow, daaHigh, hnibble]
  generalize decide (a.toNat % 16 > 9) = low
  generalize decide (a.toNat > 0x99) = high
  revert z n h c low high
  decide

/-- The corrected byte, computed in integers. -/
def daaResult (a : Byte) (f : Flags) : Byte :=
  if f.n then BitVec.ofInt 8 ((a.toNat : Int) - daaAmount a f) else BitVec.ofNat 8 (a.toNat + daaAmount a f)

theorem daaResult_eq (a : Byte) (f : Flags) :
    daaResult a f = if f.n then a - BitVec.ofNat 8 (daaAmount a f) else a + BitVec.ofNat 8 (daaAmount a f) := by
  rw [daaResult, ofInt_sub_eq, BitVec.ofInt_natCast, BitVec.ofInt_natCast, BitVec.ofNat_add, BitVec.ofNat_toNat,
    BitVec.setWidth_eq]

theorem daa8_eq (a : Byte) (f : Flags) :
    daa8 a f =
      { value := daaResult a f, flags := { z := decide (daaResult a f = 0), n := f.n, h := false, c := daaHigh a f } } := by
  rw [daa8, daaAdjustment_eq, daaResult_eq]

/-- Settles O34: the correction and its carry are those of `daaAdjustment_eq`, the byte that of `daaResult_eq`. -/
theorem decimalAdjust : Obligations.DecimalAdjust := by
  refine ⟨?byte, ?cost, fun s => ?daa⟩
  case byte => exact spelledBy_implied rfl
  case cost => rfl
  case daa => exact exec_of_setA rfl (daa8_eq _ _)

end Sys2Proof.Machine
end

section
/-! 16-bit arithmetic (45_alu16.md R260 to R262): the opcode bytes that carry a pair selector, what INC, DEC and ADD HL make of the
state for each pair, and the obligation on them. -/

namespace Sys2Proof.Machine

/-! ### Opcode bytes with a pair selector -/

theorem opForm_incRr (p : Reg16) : opForm (BitVec.ofNat 8 (0x03 + 16 * (reg16Code p).val)) = .implied (.incRr p) := by
  cases p <;> rfl

theorem opForm_decRr (p : Reg16) : opForm (BitVec.ofNat 8 (0x0B + 16 * (reg16Code p).val)) = .implied (.decRr p) := by
  cases p <;> rfl

theorem opForm_addHlRr (p : Reg16) : opForm (BitVec.ofNat 8 (0x09 + 16 * (reg16Code p).val)) = .implied (.addHlRr p) := by
  cases p <;> rfl

/-! ### INC and DEC -/

theorem exec_incRr (p : Reg16) (s : State) :
    exec (.incRr p) s = .next ((s.setR16 p (s.r16 p + 1)).setCycles s.config.cyc.alu16.incRr) := rfl

theorem exec_decRr (p : Reg16) (s : State) :
    exec (.decRr p) s = .next ((s.setR16 p (s.r16 p - 1)).setCycles s.config.cyc.alu16.decRr) := rfl

/-! ### ADD HL -/

/-- The carries out of bits 11 and 15 (R262): the sums of the low twelve and of all sixteen bits reach the next power of two. -/
theorem addHl_eq (a v : Word) (f : Flags) :
    addHl a v f =
      { value := a + v
        flags :=
          { f with
            n := false
            h := decide (a.toNat % 4096 + v.toNat % 4096 ≥ 4096)
            c := decide (a.toNat + v.toNat ≥ 65536) } } := by
  have hhalf : a.toNat % 4096 + v.toNat % 4096 > 4095 ↔ a.toNat % 4096 + v.toNat % 4096 ≥ 4096 := Nat.lt_iff_add_one_le
  have hcarry : a.toNat + v.toNat > 65535 ↔ a.toNat + v.toNat ≥ 65536 := Nat.lt_iff_add_one_le
  simp only [addHl, hhalf, hcarry]

theorem exec_addHlRr (p : Reg16) (s : State) :
    exec (.addHlRr p) s = .next (((s.setHl (addHl s.hl (s.r16 p) s.flags).value).setFlags
      (addHl s.hl (s.r16 p) s.flags).flags).setCycles s.config.cyc.alu16.addHlRr) := rfl

theorem exec_addHlRr_of_r16 {p : Reg16} {s : State} {v : Word} (hv : s.r16 p = v) :
    exec (.addHlRr p) s = .next
      { s with
        regs := s.regs.setHl ((s.regs.h ++ s.regs.l) + v)
        flags :=
          { s.flags with
            n := false
            h := decide ((s.regs.h ++ s.regs.l).toNat % 4096 + v.toNat % 4096 ≥ 4096)
            c := decide ((s.regs.h ++ s.regs.l).toNat + v.toNat ≥ 65536) }
        cycles := s.config.cyc.alu16.addHlRr } := by
  rw [exec_addHlRr, hv, addHl_eq]
  rfl

/-- Settles O36: INC and DEC write one pair, as two registers or as `sp`; ADD HL is `exec_addHlRr_of_r16` at each pair. -/
theorem pairArithmetic : Obligations.PairArithmetic := by
  refine ⟨fun p => ⟨?incByte, ?decByte, ?addByte⟩, ?costs, fun s =>
    ⟨?incBc, ?incDe, ?incHl, ?incSp, ?decBc, ?decDe, ?decHl, ?decSp, ?addBc, ?addDe, ?addHl, ?addSp⟩⟩
  case incByte => exact spelledBy_implied (opForm_incRr p)
  case decByte => exact spelledBy_implied (opForm_decRr p)
  case addByte => exact spelledBy_implied (opForm_addHlRr p)
  case costs => exact ⟨rfl, rfl, rfl⟩
  case incBc => exact exec_incRr .bc s
  case incDe => exact exec_incRr .de s
  case incHl => exact exec_incRr .hl s
  case incSp => exact exec_incRr .sp s
  case decBc => exact exec_decRr .bc s
  case decDe => exact exec_decRr .de s
  case decHl => exact exec_decRr .hl s
  case decSp => exact exec_decRr .sp s
  case addBc | addDe | addHl | addSp => exact exec_addHlRr_of_r16 rfl

end Sys2Proof.Machine
end

section
/-! Rotates, shifts and bit operations (46_rotate_shift_bit.md R270 to R285): the words of the prefixed table, the results in shifts
and in arithmetic, what an operation with a known result makes of the state, and the obligations on them. -/

namespace Sys2Proof.Machine

/-! ### Sub-opcodes -/

theorem operand8OfCode_reg8Code (r : Reg8) : operand8OfCode (reg8Code r) = .reg r := by
  cases r <;> rfl

/-- A row of the prefixed table, on a register and on the byte at HL. -/
theorem spelledBy_cbForm {x : Fin 4} {y : Fin 8} {k : CbOp} {base : Nat} (hbase : 64 * x.val + 8 * y.val = base)
    (hk : ∀ z, decodeCb (packFields x y z) = cbForm k (operand8OfCode z)) (r : Reg8) :
    SpelledBy (cbForm k (.reg r)) [0xCB, BitVec.ofNat 8 (base + (reg8Code r).val)] ∧
      SpelledBy (cbForm k .hlInd) [0xCB, BitVec.ofNat 8 (base + 6)] := by
  have hrow (z : Fin 8) : SpelledBy (cbForm k (operand8OfCode z)) [0xCB, BitVec.ofNat 8 (base + z.val)] := by
    rw [← hbase, Nat.mul_comm 64, Nat.mul_comm 8, ← packFields, ← hk]
    exact decode_prefixed _
  exact ⟨operand8OfCode_reg8Code r ▸ hrow (reg8Code r), hrow 6⟩

/-! ### Results of the rotates and shifts -/

/-- A byte shifted left with `b` below it is known by its bits. -/
theorem shiftLeftIn_eq_of {v x : Byte} {b : Bool} (h : ∀ i < 8, x.getLsbD i = if i = 0 then b else v.getLsbD (i - 1)) :
    shiftLeftIn v b = { value := x, carry := v.msb } := by
  have hx : v.extractLsb' 0 7 ++ BitVec.ofBool b = x := by
    refine BitVec.eq_of_getLsbD_eq fun i hi => ?_
    rw [h i hi, BitVec.getLsbD_append, BitVec.getLsbD_extractLsb', BitVec.getLsbD_ofBool]
    grind
  rw [shiftLeftIn, hx]
  rfl

/-- A byte shifted right with `b` above it is known by its bits. -/
theorem shiftRightIn_eq_of {v x : Byte} {b : Bool} (h : ∀ i < 8, x.getLsbD i = if i = 7 then b else v.getLsbD (i + 1)) :
    shiftRightIn b v = { value := x, carry := v.getLsbD 0 } := by
  have hx : BitVec.ofBool b ++ v.extractLsb' 1 7 = x := by
    refine BitVec.eq_of_getLsbD_eq fun i hi => ?_
    rw [h i hi, BitVec.getLsbD_append, BitVec.getLsbD_extractLsb', BitVec.getLsbD_ofBool]
    obtain rfl | hlt : i = 7 ∨ i < 7 := by omega
    · rfl
    · grind
  rw [shiftRightIn, hx]

/-- A truth value in place `k` of a byte. -/
theorem getLsbD_ofNat_twoPow_mul_toNat (k : Nat) (b : Bool) {i : Nat} (hi : i < 8) :
    (BitVec.ofNat 8 (2 ^ k * b.toNat)).getLsbD i = (decide (i = k) && b) := by
  rw [BitVec.getLsbD_ofNat]
  cases b <;> simp [Nat.testBit_two_pow, hi, eq_comm]

theorem rotRlc_eq (v : Byte) (c : Bool) : rotRlc v c = { value := v.rotateLeft 1, carry := v.msb } :=
  shiftLeftIn_eq_of fun i hi => by
    rw [BitVec.getLsbD_rotateLeft]
    grind

theorem rotRrc_eq (v : Byte) (c : Bool) : rotRrc v c = { value := v.rotateRight 1, carry := v.getLsbD 0 } :=
  shiftRightIn_eq_of fun i hi => by
    rw [BitVec.getLsbD_rotateRight]
    grind

theorem rotRl_eq (v : Byte) (c : Bool) : rotRl v c = { value := (v <<< 1) ||| BitVec.ofNat 8 c.toNat, carry := v.msb } :=
  shiftLeftIn_eq_of fun i hi => by
    have hc := getLsbD_ofNat_twoPow_mul_toNat 0 c hi
    rw [BitVec.getLsbD_or, BitVec.getLsbD_shiftLeft]
    grind

theorem rotRr_eq (v : Byte) (c : Bool) :
    rotRr v c = { value := (v >>> 1) ||| BitVec.ofNat 8 (128 * c.toNat), carry := v.getLsbD 0 } :=
  shiftRightIn_eq_of fun i hi => by
    have hc := getLsbD_ofNat_twoPow_mul_toNat 7 c hi
    rw [BitVec.getLsbD_or, BitVec.getLsbD_ushiftRight]
    grind

theorem shiftSla_eq (v : Byte) (c : Bool) : shiftSla v c = { value := v <<< 1, carry := v.msb } :=
  shiftLeftIn_eq_of fun i hi => by
    rw [BitVec.getLsbD_shiftLeft]
    grind

theorem shiftSra_eq (v : Byte) (c : Bool) : shiftSra v c = { value := v.sshiftRight 1, carry := v.getLsbD 0 } :=
  shiftRightIn_eq_of fun i hi => by
    rw [BitVec.getLsbD_sshiftRight]
    grind

theorem shiftSrl_eq (v : Byte) (c : Bool) : shiftSrl v c = { value := v >>> 1, carry := v.getLsbD 0 } :=
  shiftRightIn_eq_of fun i hi => by
    rw [BitVec.getLsbD_ushiftRight]
    grind

theorem swapNibbles_eq (v : Byte) (c : Bool) : swapNibbles v c = { value := v.rotateLeft 4, carry := false } := by
  have hx : v.extractLsb' 0 4 ++ v.extractLsb' 4 4 = v.rotateLeft 4 := by
    refine BitVec.eq_of_getLsbD_eq fun i hi => ?_
    rw [BitVec.getLsbD_append, BitVec.getLsbD_rotateLeft, BitVec.getLsbD_extractLsb', BitVec.getLsbD_extractLsb']
    grind
  rw [swapNibbles, hx]

/-! ### The prefixed rotates and shifts -/

/-- The result and the flags of a prefixed rotate, as an operation of the kind of INC and DEC. -/
def cbRotateOut (op : Byte → Bool → ShiftOut) (v : Byte) (f : Flags) : AluOut where
  value := (op v f.c).value
  flags := cbRotateFlags (op v f.c)

theorem rotateOperand_eq_stepOperand (op : Byte → Bool → ShiftOut) (v : Operand8) (c : Nat) (s : State) :
    rotateOperand op v c s = stepOperand (cbRotateOut op) v c s := rfl

/-- Row `y` of the rotates and shifts: its words, and its meaning once the result and the bit shifted out are known. -/
theorem cbForm_rotates {k : CbOp} {y : Fin 8} {op : Byte → Bool → ShiftOut} {result : Byte → Byte} {out : Byte → Bool}
    {cost : PlaceCosts} {s : State} {r : Reg8} (hk : cbOp (packFields 0 y 0) = k)
    (hreg : exec (cbForm k (.reg r)) s = rotateOperand op (.reg r) cost.r s)
    (hhl : exec (cbForm k .hlInd) s = rotateOperand op .hlInd cost.hl s) (hop : ∀ v, op v s.flags.c = ⟨result v, out v⟩) :
    SpelledBy (cbForm k (.reg r)) [0xCB, BitVec.ofNat 8 (8 * y.val + (reg8Code r).val)] ∧
      SpelledBy (cbForm k .hlInd) [0xCB, BitVec.ofNat 8 (8 * y.val + 6)] ∧
      exec (cbForm k (.reg r)) s = .next
        { s with
          regs := s.regs.set r (result (s.regs.get r))
          flags := cbRotateFlags ⟨result (s.regs.get r), out (s.regs.get r)⟩
          cycles := cost.r } ∧
      Rewrites (cbForm k .hlInd) s (s.regs.h ++ s.regs.l) result fun v u =>
        { u with flags := cbRotateFlags ⟨result v, out v⟩, cycles := cost.hl } := by
  obtain rfl := hk
  obtain ⟨hregBytes, hhlBytes⟩ := spelledBy_cbForm (base := 8 * y.val) (Nat.zero_add _) (decodeCb_pack 0 y) r
  have hout (v : Byte) : cbRotateOut op v s.flags = ⟨result v, cbRotateFlags ⟨result v, out v⟩⟩ := by rw [cbRotateOut, hop]
  rw [rotateOperand_eq_stepOperand] at hreg hhl
  exact ⟨hregBytes, hhlBytes, exec_of_stepOperand_reg hreg (hout _), rewrites_of_stepOperand_hlInd hhl hout⟩

/-- Settles O38: each operation is its row of the prefixed table with its result in shifts. -/
theorem prefixedRotates : Obligations.PrefixedRotates := by
  refine ⟨?costs, fun s r => ⟨?rlc, ?rrc, ?rl, ?rr, ?sla, ?sra, ?swap, ?srl⟩⟩
  case costs => exact ⟨rfl, rfl, rfl, rfl, rfl, rfl, rfl, rfl⟩
  case rlc => exact cbForm_rotates (k := .rlc) (y := 0) rfl rfl rfl fun v => rotRlc_eq v _
  case rrc => exact cbForm_rotates (k := .rrc) (y := 1) rfl rfl rfl fun v => rotRrc_eq v _
  case rl => exact cbForm_rotates (k := .rl) (y := 2) rfl rfl rfl fun v => rotRl_eq v _
  case rr => exact cbForm_rotates (k := .rr) (y := 3) rfl rfl rfl fun v => rotRr_eq v _
  case sla => exact cbForm_rotates (k := .sla) (y := 4) rfl rfl rfl fun v => shiftSla_eq v _
  case sra => exact cbForm_rotates (k := .sra) (y := 5) rfl rfl rfl fun v => shiftSra_eq v _
  case swap => exact cbForm_rotates (k := .swap) (y := 6) rfl rfl rfl fun v => swapNibbles_eq v _
  case srl => exact cbForm_rotates (k := .srl) (y := 7) rfl rfl rfl fun v => shiftSrl_eq v _

/-! ### The rotates of A -/

theorem exec_of_rotateA {i : Instr} {s : State} {c : Nat} {op : Byte → Bool → ShiftOut} {x : Byte} {out : Bool}
    (h : exec i s = rotateA op c s) (hop : op s.regs.a s.flags.c = ⟨x, out⟩) :
    exec i s = .next
      { s with regs := { s.regs with a := x }, flags := { z := false, n := false, h := false, c := out }, cycles := c } := by
  rw [h, rotateA, hop]
  rfl

/-- Settles O37: the results are those of the prefixed rotates; the flags do not depend on them. -/
theorem accumulatorRotates : Obligations.AccumulatorRotates := by
  refine ⟨⟨?rlcaByte, ?rlaByte, ?rrcaByte, ?rraByte⟩, ?costs, fun s => ⟨?rlca, ?rla, ?rrca, ?rra⟩⟩
  case rlcaByte | rlaByte | rrcaByte | rraByte => exact spelledBy_implied rfl
  case costs => exact ⟨rfl, rfl, rfl, rfl⟩
  case rlca => exact exec_of_rotateA rfl (rotRlc_eq _ _)
  case rla => exact exec_of_rotateA rfl (rotRl_eq _ _)
  case rrca => exact exec_of_rotateA rfl (rotRrc_eq _ _)
  case rra => exact exec_of_rotateA rfl (rotRr_eq _ _)

/-! ### Results of the bit operations -/

theorem bitFlags_eq (b : U3) (v : Byte) (f : Flags) :
    bitFlags b v f = { f with z := decide (v.toNat / 2 ^ b.val % 2 = 0), n := false, h := true } := by
  have hz : (!v.getLsbD b.val) = decide (v.toNat / 2 ^ b.val % 2 = 0) := by
    rw [BitVec.getLsbD, Nat.testBit_eq_decide_div_mod_eq, ← decide_not, decide_eq_decide, Nat.mod_two_not_eq_one]
  rw [bitFlags, hz]

theorem oneShift_eq_ofNat (b : U3) : 1#8 <<< b.val = BitVec.ofNat 8 (2 ^ b.val) := by
  fin_cases b <;> rfl

/-- Bit `b` of a byte, in its place, as a number. -/
theorem and_ofNat_twoPow (b : Nat) (v : Byte) :
    v &&& BitVec.ofNat 8 (2 ^ b) = BitVec.ofNat 8 (2 ^ b * (v.toNat / 2 ^ b % 2)) := by
  rw [← Nat.toNat_testBit, Nat.mul_comm, ← Nat.and_two_pow, BitVec.ofNat_and, BitVec.ofNat_toNat, BitVec.setWidth_eq]

theorem and_not_add_and {w : Nat} (v m : BitVec w) : (v &&& ~~~m) + (v &&& m) = v := by
  rw [BitVec.add_eq_or_of_and_eq_zero] <;> ext i hi <;> cases h : m[i] <;> simp [h]

theorem and_not_add {w : Nat} (v m : BitVec w) : (v &&& ~~~m) + m = v ||| m := by
  rw [BitVec.add_eq_or_of_and_eq_zero] <;> ext i hi <;> cases h : m[i] <;> simp [h]

theorem twoPow_mul_bit_le (b n : Nat) : 2 ^ b * (n / 2 ^ b % 2) ≤ n :=
  (Nat.mul_le_mul_left _ (Nat.mod_le _ _)).trans (Nat.mul_div_le _ _)

/-- RES subtracts the bit in its place. -/
theorem resBit_eq (b : U3) (v : Byte) :
    resBit b v = BitVec.ofNat 8 (v.toNat - 2 ^ b.val * (v.toNat / 2 ^ b.val % 2)) := by
  have hle := twoPow_mul_bit_le b.val v.toNat
  rw [← BitVec.ofNat_sub_ofNat_of_le _ _ (by omega) hle, ← and_ofNat_twoPow, BitVec.ofNat_toNat, BitVec.setWidth_eq, resBit,
    oneShift_eq_ofNat]
  exact eq_sub_of_add_eq (and_not_add_and v _)

/-- SET is RES, then the sum with the bit's place. -/
theorem setBit_eq (b : U3) (v : Byte) :
    setBit b v = BitVec.ofNat 8 (v.toNat + 2 ^ b.val * (1 - v.toNat / 2 ^ b.val % 2)) := by
  have hsum : v.toNat - 2 ^ b.val * (v.toNat / 2 ^ b.val % 2) + 2 ^ b.val =
      v.toNat + 2 ^ b.val * (1 - v.toNat / 2 ^ b.val % 2) := by
    have hle := twoPow_mul_bit_le b.val v.toNat
    obtain h | h := Nat.mod_two_eq_zero_or_one (v.toNat / 2 ^ b.val) <;> rw [h] at hle ⊢ <;> omega
  rw [← hsum, BitVec.ofNat_add, ← resBit_eq, ← oneShift_eq_ofNat]
  exact (and_not_add v _).symm

/-! ### The bit operations -/

section Bits
variable {i : Instr} {s : State} {c : Nat}

theorem exec_of_testBit_reg {b : U3} {r : Reg8} {f : Flags} (h : exec i s = testBit b (.reg r) c s)
    (hf : bitFlags b (s.regs.get r) s.flags = f) : exec i s = .next { s with flags := f, cycles := c } := by
  rw [h, ← hf]
  rfl

theorem loadsFrom_of_testBit_hlInd {b : U3} {f : Byte → Flags} (h : exec i s = testBit b .hlInd c s)
    (hf : ∀ v, bitFlags b v s.flags = f v) :
    LoadsFrom i s (s.regs.h ++ s.regs.l) fun v => { s with flags := f v, cycles := c } :=
  loadsFrom_of h fun v => congrArg (fun f => (s.setFlags f).setCycles c) (hf v)

theorem exec_of_changeBit_reg {op : Byte → Byte} {r : Reg8} {x : Byte} (h : exec i s = changeBit op (.reg r) c s)
    (hop : op (s.regs.get r) = x) : exec i s = .next { s with regs := s.regs.set r x, cycles := c } := by
  rw [h, ← hop]
  rfl

theorem changeBit_hlInd (op : Byte → Byte) (c : Nat) (s : State) :
    changeBit op .hlInd c s = costing c (memRead s s.hl >>= fun v => memWrite s s.hl (op v) >>= pure) := by
  simp only [bind_pure]
  rfl

theorem rewrites_of_changeBit_hlInd {op x : Byte → Byte} (h : exec i s = changeBit op .hlInd c s) (hop : ∀ v, op v = x v) :
    Rewrites i s (s.regs.h ++ s.regs.l) x fun _ u => { u with cycles := c } := by
  obtain rfl : op = x := funext hop
  exact rewrites_of (h.trans (changeBit_hlInd op c s)) fun _ _ _ => rfl

end Bits

/-- Settles O39: BIT writes the flags of `bitFlags_eq` alone, RES and SET the byte of `resBit_eq` and of `setBit_eq`. -/
theorem bitOperations : Obligations.BitOperations := by
  refine ⟨?costs, fun s b r => ⟨?bitBytes, ?resBytes, ?setBytes, ?bitR, ?bitHl, ?resR, ?resHl, ?setR, ?setHl⟩⟩
  case costs => exact ⟨rfl, rfl, rfl, rfl⟩
  case bitBytes => exact spelledBy_cbForm (k := .bit b) rfl (decodeCb_pack 1 b) r
  case resBytes => exact spelledBy_cbForm (k := .res b) rfl (decodeCb_pack 2 b) r
  case setBytes => exact spelledBy_cbForm (k := .set b) rfl (decodeCb_pack 3 b) r
  case bitR => exact exec_of_testBit_reg rfl (bitFlags_eq b _ _)
  case bitHl => exact loadsFrom_of_testBit_hlInd rfl fun v => bitFlags_eq b v _
  case resR => exact exec_of_changeBit_reg rfl (resBit_eq b _)
  case resHl => exact rewrites_of_changeBit_hlInd rfl (resBit_eq b)
  case setR => exact exec_of_changeBit_reg rfl (setBit_eq b _)
  case setHl => exact rewrites_of_changeBit_hlInd rfl (setBit_eq b)

end Sys2Proof.Machine
end

section
/-! Interrupt dispatch (60_exceptions.md R307, R308): which kind is taken, the two stores that push `pc`, and the obligation on the
step. -/

namespace Sys2Proof.Machine

/-- The bit numbers below 5 are those of the five kinds (R305). -/
theorem IrqKind.exists_index_eq {n : Nat} (h : n < 5) : ∃ k : IrqKind, k.index = n := by
  match n, h with
  | 0, _ => exact ⟨.verticalBlank, rfl⟩
  | 1, _ => exact ⟨.displayStatus, rfl⟩
  | 2, _ => exact ⟨.timer, rfl⟩
  | 3, _ => exact ⟨.serial, rfl⟩
  | 4, _ => exact ⟨.joypad, rfl⟩

theorem State.dispatches_of_lowest {s : State} {k : IrqKind} (hime : s.ime = true) (hk : s.pending.getLsbD k.index = true)
    (hlow : ∀ j, j < k.index → s.pending.getLsbD j = false) : s.dispatches = some k := by
  rw [State.dispatches, if_pos hime]
  exact firstPending_eq_some.2 ⟨hk, hlow⟩

/-- The two stores of a push may as well be made with `sp` already moved, since a store does not look at `sp`. -/
theorem push16_eq_setSp (v : Word) (s : State) :
    push16 v s = (memWrite (s.setSp (s.sp - 2)) (s.sp - 1) (hiByte v) >>= fun u => memWrite u (s.sp - 2) (loByte v)) := by
  rw [push16_eq, memWrite_setSp]
  cases memWrite s (s.sp - 1) (hiByte v) with
  | error e => rfl
  | ok u => exact (memWrite_setSp u _ _ _).symm

/-- The state in which a dispatch of kind `k` pushes: acknowledged, with `sp` already moved (R308). -/
def dispatchStart (k : IrqKind) (s : State) : State := (acknowledge k s).setSp (s.sp - 2)

section Dispatch
variable {s : State} {k : IrqKind} (h : s.dispatches = some k)
include h

/-- The step is the two stores of the push, the high byte of `pc` first, then the vector and the cost. -/
theorem step_of_dispatches_eq_stores :
    step s = closeStep false (toOutcome do
      let u1 ← memWrite (dispatchStart k s) (s.sp - 1) (hiByte s.pc)
      let u2 ← memWrite u1 (s.sp - 2) (loByte s.pc)
      pure ((u2.setPc k.vector).setCycles u2.config.cycDispatch)) := by
  rw [step_of_dispatches h, dispatchInterrupt, push16_eq_setSp, bind_assoc]
  rfl

theorem step_of_dispatches_of_stored {u1 u2 : State} (h1 : memWrite (dispatchStart k s) (s.sp - 1) (hiByte s.pc) = .ok u1)
    (h2 : memWrite u1 (s.sp - 2) (loByte s.pc) = .ok u2) :
    step s = .next (advance ((u2.setPc k.vector).setCycles s.config.cycDispatch)) := by
  have hconfig : u2.config = s.config := ((memWrite_core h1).trans (memWrite_core h2)).config
  rw [step_of_dispatches_eq_stores h, h1, Access.ok_bind, h2, Access.ok_bind, ← hconfig]
  rfl

theorem step_of_dispatches_of_not_mapped_hi (hhi : ¬Mapped s (s.sp - 1)) :
    step s = .fault (.unmappedAddress (s.sp - 1) .write) := by
  rw [step_of_dispatches_eq_stores h, memWrite_of_not_mapped (s := dispatchStart k s) hhi]
  rfl

theorem step_of_dispatches_of_not_mapped_lo (hhi : Mapped s (s.sp - 1)) (hlo : ¬Mapped s (s.sp - 2)) :
    step s = .fault (.unmappedAddress (s.sp - 2) .write) := by
  obtain ⟨u1, h1⟩ := memWrite_of_mapped (s := dispatchStart k s) hhi (hiByte s.pc)
  have hlo1 : ¬Mapped u1 (s.sp - 2) := fun hm => hlo ((mapped_after_memWrite h1 _).1 hm)
  rw [step_of_dispatches_eq_stores h, h1, Access.ok_bind, memWrite_of_not_mapped hlo1]
  rfl

end Dispatch

/-- Settles O8: the lowest pending kind is the one that `dispatches` names, and its step is the two stores of the push. -/
theorem dispatchTakesLowestPendingKind : Obligations.DispatchTakesLowestPendingKind := by
  refine ⟨rfl, fun s n hime hn hpend hlow => ?_⟩
  obtain ⟨k, rfl⟩ := IrqKind.exists_index_eq hn
  have hd : s.dispatches = some k := State.dispatches_of_lowest hime hpend hlow
  refine ⟨fun hhi hlo => ?stored, step_of_dispatches_of_not_mapped_hi hd, step_of_dispatches_of_not_mapped_lo hd⟩
  case stored =>
    obtain ⟨u1, h1⟩ := memWrite_of_mapped (s := dispatchStart k s) hhi (hiByte s.pc)
    obtain ⟨u2, h2⟩ := memWrite_of_mapped ((mapped_after_memWrite h1 _).2 hlo) (loByte s.pc)
    exact ⟨u1, u2, h1, h2, memWrite_onlyStored h1, memWrite_onlyStored h2, step_of_dispatches_of_stored hd h1 h2⟩

end Sys2Proof.Machine
end

section
/-! The display-timing controller (61_display_timing.md R342 to R351): scanline and mode by the place of a dot in its line, the display
registers on the bus, and the obligations on them. -/

namespace Sys2Proof.Machine

/-! ### Scanline and mode -/

theorem scanline_eq (dot : Nat) : scanline dot = dot / 456 := rfl

theorem lcdMode_eq (dot : Nat) :
    lcdMode dot =
      if 65664 ≤ dot then .verticalBlank
      else if dot % 456 ≤ 79 then .oamScan
      else if dot % 456 ≤ 251 then .drawingPixels
      else .horizontalBlank := rfl

theorem scanline_of_line (n : Nat) {x : Nat} (hx : x ≤ 455) : scanline (456 * n + x) = n := by
  rw [scanline_eq]
  omega

/-- On a visible line the mode depends on the place in the line alone. -/
theorem lcdMode_of_line {n x : Nat} (hn : n ≤ 143) (hx : x ≤ 455) :
    lcdMode (456 * n + x) = if x ≤ 79 then .oamScan else if x ≤ 251 then .drawingPixels else .horizontalBlank := by
  have hplace : (456 * n + x) % 456 = x := by omega
  rw [lcdMode_eq, if_neg (by omega), hplace]

/-- Settles O49: on a visible line by the dot's place in it, and from dot 65664 by the bounds of vertical blank. -/
theorem frameTimeline : Obligations.FrameTimeline := by
  refine ⟨fun n x hn hx => ?visible, fun d hlo hhi => ?vblank⟩
  case visible =>
    rw [lcdMode_of_line hn hx]
    refine ⟨scanline_of_line n hx, fun hscan => if_pos hscan, fun hlo hhi => ?draw, fun hlo => ?hblank⟩
    case draw => rw [if_neg (by omega), if_pos hhi]
    case hblank => rw [if_neg (by omega), if_neg (by omega)]
  case vblank =>
    rw [scanline_eq, lcdMode_eq]
    exact ⟨if_pos hlo, rfl, by omega, by omega⟩

/-! ### The display registers on the bus -/

theorem owner_lcd {a : Word} (h1 : 0xFF40 ≤ a.toNat) (h2 : a.toNat ≤ 0xFF7F) : owner a = lcdOwner (a.toNat - 0xFF40) := by
  unfold owner ownerAt
  repeat rw [if_neg (by omega)]
  rw [if_pos (by omega)]

/-- The register `k` bytes into the window answers reads and writes at its address (R348). -/
theorem memReadWrite_lcd {k : Nat} {r : LcdReg} (hk : k ≤ 11) (hr : lcdOwner k = .lcd r) (s : State) (v : Byte) :
    memRead s (BitVec.ofNat 16 (0xFF40 + k)) = .ok (s.readLcd r) ∧
      memWrite s (BitVec.ofNat 16 (0xFF40 + k)) v = .ok (s.writeLcd r v) := by
  have haddr : (BitVec.ofNat 16 (0xFF40 + k)).toNat = 0xFF40 + k := by
    rw [BitVec.toNat_ofNat]
    omega
  have howner : owner (BitVec.ofNat 16 (0xFF40 + k)) = .lcd r := by
    rw [owner_lcd (by omega) (by omega), haddr, Nat.add_sub_cancel_left, hr]
  exact ⟨memRead_of_owner howner rfl, memWrite_of_owner howner rfl⟩

/-! ### STAT -/

theorem lcdMode_code_toNat (dot : Nat) :
    (lcdMode dot).code.toNat =
      if 65664 ≤ dot then 1 else if dot % 456 < 80 then 2 else if dot % 456 < 252 then 3 else 0 := by
  simp only [lcdMode_eq, Nat.lt_succ_iff]
  split_ifs <;> rfl

/-- The stored bits count from bit 3, the coincidence bit is bit 2, and the mode code stands below it (R350). -/
theorem State.readLcd_stat_toNat (s : State) :
    (s.readLcd .stat).toNat =
      8 * s.lcd.stat.toNat + (if s.dot / 456 = s.lcd.lyc.toNat then 4 else 0) +
        (if 65664 ≤ s.dot then 1 else if s.dot % 456 < 80 then 2 else if s.dot % 456 < 252 then 3 else 0) := by
  have hlyc : (decide (s.dot / 456 = s.lcd.lyc.toNat)).toNat * 4 = if s.dot / 456 = s.lcd.lyc.toNat then 4 else 0 := by
    rw [Bool.toNat, Bool.cond_decide, ite_mul, Nat.one_mul, Nat.zero_mul]
  rw [State.readLcd, toNat_append_eq_add, toNat_append_eq_add, BitVec.toNat_ofBool, lcdMode_code_toNat, scanline_eq, ← hlyc]
  omega

/-- A write of STAT keeps bits 7:3 alone (R350). -/
theorem State.writeLcd_stat (s : State) (v : Byte) :
    s.writeLcd .stat v = { s with lcd := { s.lcd with stat := BitVec.ofNat 5 (v.toNat / 8) } } := by
  have hbits : v.extractLsb' 3 5 = BitVec.ofNat 5 (v.toNat / 8) := by
    rw [BitVec.extractLsb', Nat.shiftRight_eq_div_pow]
  rw [State.writeLcd, hbits]
  rfl

/-- Settles O48: every register answers at its address, and what `STAT` shows and keeps is that of `readLcd_stat_toNat` and
`writeLcd_stat`. -/
theorem displayRegisters : Obligations.DisplayRegisters := by
  intro s v
  obtain ⟨lyRead, lyWrite⟩ := memReadWrite_lcd (k := 4) (r := .ly) (by decide) rfl s v
  obtain ⟨statRead, statWrite⟩ := memReadWrite_lcd (k := 1) (r := .stat) (by decide) rfl s v
  refine ⟨?lcdc, ?scy, ?scx, ?lyc, ?bgp, ?obp0, ?obp1, ?wy, ?wx, lyRead, lyWrite, ?statWrite, ?statRead⟩
  case lcdc => exact memReadWrite_lcd (k := 0) (r := .lcdc) (by decide) rfl s v
  case scy => exact memReadWrite_lcd (k := 2) (r := .scy) (by decide) rfl s v
  case scx => exact memReadWrite_lcd (k := 3) (r := .scx) (by decide) rfl s v
  case lyc => exact memReadWrite_lcd (k := 5) (r := .lyc) (by decide) rfl s v
  case bgp => exact memReadWrite_lcd (k := 7) (r := .bgp) (by decide) rfl s v
  case obp0 => exact memReadWrite_lcd (k := 8) (r := .obp0) (by decide) rfl s v
  case obp1 => exact memReadWrite_lcd (k := 9) (r := .obp1) (by decide) rfl s v
  case wy => exact memReadWrite_lcd (k := 10) (r := .wy) (by decide) rfl s v
  case wx => exact memReadWrite_lcd (k := 11) (r := .wx) (by decide) rfl s v
  case statWrite => exact State.writeLcd_stat s v ▸ statWrite
  case statRead =>
    rw [← State.readLcd_stat_toNat, BitVec.ofNat_toNat, BitVec.setWidth_eq]
    exact statRead

end Sys2Proof.Machine
end

section
/-! Registers and pairs (30_encoding.md R122, R123, 10_state.md R22): what a read gives after a write, and the obligation on them. -/

namespace Sys2Proof.Machine

theorem Regs.get_set (g : Regs) (r r' : Reg8) (v : Byte) : (g.set r v).get r' = if r' = r then v else g.get r' := by
  cases r <;> cases r' <;> rfl

theorem Regs.get_setBc {r : Reg8} (hb : r ≠ .b) (hc : r ≠ .c) (g : Regs) (v : Word) : (g.setBc v).get r = g.get r := by
  cases r
  case b => exact absurd rfl hb
  case c => exact absurd rfl hc
  all_goals rfl

theorem Regs.get_setDe {r : Reg8} (hd : r ≠ .d) (he : r ≠ .e) (g : Regs) (v : Word) : (g.setDe v).get r = g.get r := by
  cases r
  case d => exact absurd rfl hd
  case e => exact absurd rfl he
  all_goals rfl

theorem Regs.get_setHl {r : Reg8} (hh : r ≠ .h) (hl : r ≠ .l) (g : Regs) (v : Word) : (g.setHl v).get r = g.get r := by
  cases r
  case h => exact absurd rfl hh
  case l => exact absurd rfl hl
  all_goals rfl

/-- Settles O19: a pair is its two registers joined, and the two halves of a word join to it again. -/
theorem registersAndPairs : Obligations.RegistersAndPairs := by
  intro g r r' v w
  refine ⟨Regs.get_set g r r' v, rfl, rfl, rfl, rfl, rfl, rfl, rfl, joinBytes_toNat _ _, joinBytes_toNat _ _, joinBytes_toNat _ _,
    joinBytes_hi_lo w, joinBytes_hi_lo w, joinBytes_hi_lo w, ?bc, ?de, ?hl⟩
  case bc => exact fun _ hb hc => Regs.get_setBc hb hc g w
  case de => exact fun _ hd he => Regs.get_setDe hd he g w
  case hl => exact fun _ hh hl => Regs.get_setHl hh hl g w

end Sys2Proof.Machine
end
section
/-! What an instruction can do, said once for all of them: the fields outside the bus that its footprint leaves alone, what it costs
with the costs of the cycle table, and which faults end it. The obligation on footprints is settled here. -/

namespace Sys2Proof.Machine

/-! ### The fields outside the bus -/

/-- Outside the bus, `t` differs from `s` at most where the footprint says. -/
structure Keeps (w : Footprint) (s t : State) : Prop where
  regs : ∀ r, r ∉ w.regs → t.regs.get r = s.regs.get r
  flags : ∀ k, k ∉ w.flags → t.flags.value k = s.flags.value k
  sp : w.sp = false → t.sp = s.sp
  pc : w.pc = false → t.pc = s.pc
  irq : w.irq = false → t.ime = s.ime ∧ t.eiPending = s.eiPending
  halted : w.halt = false → t.halted = s.halted
  config : t.config = s.config

/-- Two flag files agree on every flag that is not listed, where each flag is listed or the same in both. -/
theorem Flags.value_eq_of_not_mem {l : List FlagName} {f g : Flags} (hz : .z ∈ l ∨ f.z = g.z) (hn : .n ∈ l ∨ f.n = g.n)
    (hh : .h ∈ l ∨ f.h = g.h) (hc : .c ∈ l ∨ f.c = g.c) : ∀ k, k ∉ l → f.value k = g.value k
  | .z, hk => hz.resolve_left hk
  | .n, hk => hn.resolve_left hk
  | .h, hk => hh.resolve_left hk
  | .c, hk => hc.resolve_left hk

theorem Flags.value_eq_of_znh {f g : Flags} (hc : f.c = g.c) : ∀ k, k ∉ [FlagName.z, .n, .h] → f.value k = g.value k :=
  Flags.value_eq_of_not_mem (.inl (by decide)) (.inl (by decide)) (.inl (by decide)) (.inr hc)

theorem Flags.value_eq_of_nhc {f g : Flags} (hz : f.z = g.z) : ∀ k, k ∉ [FlagName.n, .h, .c] → f.value k = g.value k :=
  Flags.value_eq_of_not_mem (.inr hz) (.inl (by decide)) (.inl (by decide)) (.inl (by decide))

theorem mem_allFlags (k : FlagName) : k ∈ allFlags := by
  cases k <;> decide

theorem mem_footprint_prefixCb_regs (r : Reg8) (sub : Byte) : r ∈ (footprint (.prefixCb sub)).regs := by
  change r ∈ [Reg8.b, .c, .d, .e, .h, .l, .a]
  cases r <;> decide

namespace Keeps

variable {w : Footprint} {s t : State}

theorem refl (w : Footprint) (s : State) : Keeps w s s :=
  ⟨fun _ _ => rfl, fun _ _ => rfl, fun _ => rfl, fun _ => rfl, fun _ => ⟨rfl, rfl⟩, fun _ => rfl, rfl⟩

variable (h : Keeps w s t)
include h

theorem store {u : State} {a : Word} {v : Byte} (hu : memWrite t a v = .ok u) : Keeps w s u := by
  have hc := memWrite_core hu
  exact
    { regs := fun r hr => hc.regs ▸ h.regs r hr
      flags := fun k hk => hc.flags ▸ h.flags k hk
      sp := fun hw => hc.sp.trans (h.sp hw)
      pc := fun hw => hc.pc.trans (h.pc hw)
      irq := fun hw => ⟨hc.ime.trans (h.irq hw).1, hc.eiPending.trans (h.irq hw).2⟩
      halted := fun hw => hc.halted.trans (h.halted hw)
      config := hc.config.trans h.config }

theorem setRegs {g : Regs} (hg : ∀ r, r ∉ w.regs → g.get r = t.regs.get r) : Keeps w s (t.setRegs g) :=
  { h with regs := fun r hr => (hg r hr).trans (h.regs r hr) }

theorem setReg {r : Reg8} (hr : r ∈ w.regs) (v : Byte) : Keeps w s (t.setReg r v) :=
  h.setRegs fun _ hk => (Regs.get_set ..).trans (if_neg (ne_of_mem_of_not_mem hr hk).symm)

theorem setHl (hh : .h ∈ w.regs) (hl : .l ∈ w.regs) (v : Word) : Keeps w s (t.setHl v) :=
  h.setRegs fun _ hk => Regs.get_setHl (ne_of_mem_of_not_mem hh hk).symm (ne_of_mem_of_not_mem hl hk).symm _ v

theorem setFlags {f : Flags} (hf : ∀ k, k ∉ w.flags → f.value k = s.flags.value k) : Keeps w s (t.setFlags f) :=
  { h with flags := hf }

theorem setAllFlags (hf : w.flags = allFlags) (f : Flags) : Keeps w s (t.setFlags f) :=
  h.setFlags fun k hk => absurd (hf ▸ mem_allFlags k) hk

theorem setSp (hw : w.sp = true) (v : Word) : Keeps w s (t.setSp v) :=
  { h with sp := fun hf => absurd (hw.symm.trans hf) (by decide) }

theorem setPc (hw : w.pc = true) (v : Word) : Keeps w s (t.setPc v) :=
  { h with pc := fun hf => absurd (hw.symm.trans hf) (by decide) }

theorem setIme (hw : w.irq = true) (v : Bool) : Keeps w s (t.setIme v) :=
  { h with irq := fun hf => absurd (hw.symm.trans hf) (by decide) }

theorem setEiPending (hw : w.irq = true) (v : Bool) : Keeps w s (t.setEiPending v) :=
  { h with irq := fun hf => absurd (hw.symm.trans hf) (by decide) }

theorem setHalted (hw : w.halt = true) (v : Bool) : Keeps w s (t.setHalted v) :=
  { h with halted := fun hf => absurd (hw.symm.trans hf) (by decide) }

theorem setCycles (c : Nat) : Keeps w s (t.setCycles c) := { h with }

theorem setR16 {p : Reg16} (hr : ∀ r ∈ reg16Regs p, r ∈ w.regs) (hsp : p = .sp → w.sp = true) (v : Word) :
    Keeps w s (t.setR16 p v) := by
  have out {k r : Reg8} (hk : k ∈ reg16Regs p) (hr' : r ∉ w.regs) : r ≠ k := (ne_of_mem_of_not_mem (hr k hk) hr').symm
  cases p with
  | bc => exact h.setRegs fun _ hk => Regs.get_setBc (out (.head _) hk) (out (.tail _ (.head _)) hk) _ v
  | de => exact h.setRegs fun _ hk => Regs.get_setDe (out (.head _) hk) (out (.tail _ (.head _)) hk) _ v
  | hl => exact h.setHl (hr .h (.head _)) (hr .l (.tail _ (.head _))) v
  | sp => exact h.setSp (hsp rfl) v

theorem setStk16 {p : Stk16} (hr : ∀ r ∈ stk16Regs p, r ∈ w.regs) (hf : p = .af → ∀ k, k ∈ w.flags) (v : Word) :
    Keeps w s (t.setStk16 p v) := by
  cases p with
  | bc => exact h.setR16 (p := .bc) hr nofun v
  | de => exact h.setR16 (p := .de) hr nofun v
  | hl => exact h.setR16 (p := .hl) hr nofun v
  | af => exact (h.setReg (hr .a (.head _)) _).setFlags fun k hk => absurd (hf rfl k) hk

end Keeps

/-! ### Sequences of accesses -/

/-- The fatal kinds of a running machine (R301): an opcode, or an access at an address that is not mapped. -/
def Fatal (s : State) (f : Fault) : Prop :=
  (∃ op, f = .unimplementedOpcode op) ∨ ∃ a k, f = .unmappedAddress a k ∧ ¬Mapped s a

/-- A sequence of accesses that, run from `s`, changes outside the bus only what the footprint says, and fails only fatally. -/
structure Does (w : Footprint) (s : State) (r : Access State) : Prop where
  ok : ∀ t, r = .ok t → Keeps w s t
  error : ∀ f, r = .error f → Fatal s f

theorem Fatal.of_config {s u : State} {f : Fault} (hc : u.config = s.config) (h : Fatal u f) : Fatal s f := by
  unfold Fatal Mapped at *
  rwa [hc] at h

theorem fatal_of_memRead {s : State} {a : Word} {f : Fault} (h : memRead s a = .error f) : Fatal s f := by
  refine .inr ⟨a, .read, (memRead_eq_error.1 h).2, fun hm => ?_⟩
  obtain ⟨v, hv⟩ := memRead_of_mapped hm
  rw [hv] at h
  cases h

theorem fatal_of_memWrite {s : State} {a : Word} {v : Byte} {f : Fault} (h : memWrite s a v = .error f) : Fatal s f := by
  refine .inr ⟨a, .write, (memWrite_eq_error.1 h).2, fun hm => ?_⟩
  obtain ⟨t, ht⟩ := memWrite_of_mapped hm v
  rw [ht] at h
  cases h

namespace Does

variable {w : Footprint} {s u : State} {a : Word} {v : Byte}

theorem pure (h : Keeps w s u) : Does w s (.ok u) := ⟨fun _ e => Except.ok.inj e ▸ h, (fun _ e => nomatch e)⟩

theorem bind {r : Access State} {g : State → Access State} (h : Does w s r) (hg : ∀ t, Keeps w s t → Does w s (g t)) :
    Does w s (r >>= g) := by
  cases r with
  | ok t => exact hg t (h.ok t rfl)
  | error e => exact ⟨(fun _ e => nomatch e), fun f hf => h.error f (congrArg Except.error (Except.error.inj hf))⟩

theorem store (h : Keeps w s u) (a : Word) (v : Byte) : Does w s (memWrite u a v) :=
  ⟨fun _ ht => h.store ht, fun _ hf => (fatal_of_memWrite hf).of_config h.config⟩

theorem read {g : Byte → Access State} (h : ∀ v, Does w s (g v)) (a : Word) : Does w s (memRead s a >>= g) := by
  cases hr : memRead s a with
  | ok v => exact h v
  | error e => exact ⟨(fun _ e => nomatch e), fun f hf => fatal_of_memRead (hr.trans (congrArg Except.error (Except.error.inj hf)))⟩

theorem push16 (hsp : w.sp = true) (v : Word) : Does w s (push16 v s) := by
  rw [push16_eq_setSp]
  exact (store ((Keeps.refl w s).setSp hsp _) _ _).bind fun t ht => store ht _ _

theorem callTo (hsp : w.sp = true) (hpc : w.pc = true) (target : Word) : Does w s (callTo target s) :=
  (push16 hsp s.pc).bind fun _ ht => pure (ht.setPc hpc target)

theorem popPc (hsp : w.sp = true) (hpc : w.pc = true) : Does w s (popPc s) := by
  rw [popPc_eq]
  exact read (fun lo => read (fun hi => pure (((Keeps.refl w s).setSp hsp _).setPc hpc _)) _) _

/-- A read and a write at one address, then flags. -/
theorem rewrite {a : Word} {f : Byte → Byte} {g : Byte → Flags} (hg : ∀ x k, k ∉ w.flags → (g x).value k = s.flags.value k) :
    Does w s (memRead s a >>= fun x => memWrite s a (f x) >>= fun t => .ok (t.setFlags (g x))) :=
  read (fun x => (store (.refl w s) a _).bind fun _ ht => pure (ht.setFlags (hg x))) a

end Does

/-! ### Results -/

/-- What a step costs with the cycle table: whole machine cycles, from one to six. -/
abbrev TableCost (n : Nat) : Prop := n % 4 = 0 ∧ 4 ≤ n ∧ n ≤ 24

/-- A result that changes outside the bus only what the footprint says, fails only fatally, and costs what a step may cost. -/
structure Runs (w : Footprint) (s : State) (r : Result) : Prop where
  keeps : ∀ t, r = .next t → Keeps w s t
  fatal : ∀ f, r = .fault f → Fatal s f
  cost : TableCosts s.config → ∀ t, r = .next t → TableCost t.cycles

namespace Runs

variable {w : Footprint} {s t : State} {c : Nat}

theorem next (h : Keeps w s t) (hc : TableCosts s.config → TableCost c := by exact fun h => by rw [h.table]; decide) :
    Runs w s (.next (t.setCycles c)) where
  keeps _ e := Host.Outcome.next.inj e ▸ h.setCycles c
  fatal _ e := nomatch e
  cost hs _ e := Host.Outcome.next.inj e ▸ hc hs

theorem costing {r : Access State} (h : Does w s r)
    (hc : TableCosts s.config → TableCost c := by exact fun h => by rw [h.table]; decide) : Runs w s (costing c r) := by
  cases r with
  | ok t => exact next (h.ok t rfl) hc
  | error e =>
    exact ⟨(fun _ e => nomatch e),
      fun f hf => h.error f (congrArg Except.error (Host.Outcome.fault.inj hf)),
      (fun _ _ e => nomatch e)⟩

theorem stops (op : Byte) : Runs w s (.fault (.unimplementedOpcode op)) :=
  ⟨(fun _ e => nomatch e), fun _ e => .inl ⟨op, (Host.Outcome.fault.inj e).symm⟩, (fun _ _ e => nomatch e)⟩

theorem ite {p : Prop} [Decidable p] {r r' : Result} (h : Runs w s r) (h' : Runs w s r') : Runs w s (if p then r else r') := by
  split
  · exact h
  · exact h'

end Runs

/-! ### Every instruction -/

/-- An instruction that the opcode maps spell does what its footprint, the cycle table and the fatal kinds allow. -/
theorem exec_runs_of_wellFormed {i : Instr} (hi : i.wellFormed = true) (s : State) : Runs (footprint i) s (exec i s) := by
  have same (w : Footprint) : Keeps w s s := .refl w s
  cases i
  case prefixCb sub => exact nomatch hi
  case stop | illegalD3 | illegalDB | illegalDD | illegalE3 | illegalE4 | illegalEB | illegalEC | illegalED | illegalF4 |
    illegalFC | illegalFD => exact .stops _
  -- Control and jumps
  case nop => exact .next (same _)
  case halt => exact .ite (.stops _) (.next ((same _).setHalted rfl _))
  case di => exact .next (((same _).setIme rfl _).setEiPending rfl _)
  case ei => exact .next ((same _).setEiPending rfl _)
  case jpNn | jpHl | jrE => exact .next ((same _).setPc rfl _)
  case jpCcNn | jrCcE => exact .ite (.next ((same _).setPc rfl _)) (.next (same _))
  case callNn | rst => exact .costing (.callTo rfl rfl _)
  case callCcNn => exact .ite (.costing (.callTo rfl rfl _)) (.next (same _))
  case ret => exact .costing (.popPc rfl rfl)
  case retCc => exact .ite (.costing (.popPc rfl rfl)) (.next (same _))
  case reti => exact .costing ((Does.popPc rfl rfl).bind fun _ ht => .pure ((ht.setIme rfl _).setEiPending rfl _))
  -- Loads and stores
  case ldRR | ldRN => exact .next ((same _).setReg (.head _) _)
  case ldRHl | ldhAN | ldAC | ldABc | ldADe | ldANn => exact .costing (.read (fun v => .pure ((same _).setReg (.head _) v)) _)
  case ldHlR | ldHlN | ldhNA | ldCA | ldBcA | ldDeA | ldNnA => exact .costing (.store (same _) _ _)
  case ldHliA | ldHldA =>
    exact .costing ((Does.store (same _) _ _).bind fun _ ht => .pure (ht.setHl (.head _) (.tail _ (.head _)) _))
  case ldAHli | ldAHld =>
    exact .costing (.read (fun v => .pure (((same _).setReg (.head _) v).setHl
      (.tail _ (.head _)) (.tail _ (.tail _ (.head _))) _)) _)
  case ldRrNn | incRr | decRr => exact .next ((same _).setR16 (fun _ h => h) decide_eq_true _)
  case ldNnSp => exact .costing ((Does.store (same _) _ _).bind fun _ ht => .store ht _ _)
  case ldSpHl => exact .next ((same _).setSp rfl _)
  case pushRr => exact .costing (.push16 rfl _) fun h => by rw [h.push]; decide
  case popRr p =>
    rw [exec_popRr]
    exact .costing (.read (fun lo => .read (fun hi => .pure (((same _).setSp rfl _).setStk16 (fun _ h => h)
      (fun hp => hp ▸ mem_allFlags) _)) _) _) fun h => by rw [h.pop]; decide
  -- All four flags
  case addAR | addAN | adcAR | adcAN | subAR | subAN | sbcAR | sbcAN | andAR | andAN | xorAR | xorAN | orAR | orAN | rlca | rrca |
    rla | rra | rlcR | rrcR | rlR | rrR | slaR | sraR | swapR | srlR =>
    exact .next (((same _).setReg (.head _) _).setAllFlags rfl _)
  case addAHl | adcAHl | subAHl | sbcAHl | andAHl | xorAHl | orAHl =>
    exact .costing (.read (fun _ => .pure (((same _).setReg (.head _) _).setAllFlags rfl _)) _)
  case cpAR | cpAN => exact .next ((same _).setAllFlags rfl _)
  case cpAHl => exact .costing (.read (fun _ => .pure ((same _).setAllFlags rfl _)) _)
  case ldHlSpE => exact .next (((same _).setHl (.head _) (.tail _ (.head _)) _).setAllFlags rfl _)
  case addSpE => exact .next (((same _).setSp rfl _).setAllFlags rfl _)
  case rlcHl | rrcHl | rlHl | rrHl | slaHl | sraHl | swapHl | srlHl =>
    exact .costing (.rewrite fun _ k hk => absurd (mem_allFlags k) hk)
  -- Some of the flags
  case incR | decR => exact .next (((same _).setReg (.head _) _).setFlags (Flags.value_eq_of_znh rfl))
  case incHl | decHl => exact .costing (.rewrite fun _ => Flags.value_eq_of_znh rfl)
  case bitR => exact .next ((same _).setFlags (Flags.value_eq_of_znh rfl))
  case bitHl =>
    exact .costing
      (.read (fun _ => .pure ((same _).setFlags
        (Flags.value_eq_of_znh (f := bitFlags _ _ s.flags) (g := s.flags) rfl))) _)
      fun h => by rw [h.bitHl]; decide
  case scf | ccf => exact .next ((same _).setFlags (Flags.value_eq_of_nhc rfl))
  case addHlRr => exact .next (((same _).setHl (.head _) (.tail _ (.head _)) _).setFlags (Flags.value_eq_of_nhc rfl))
  case cpl =>
    exact .next (((same _).setReg (.head _) _).setFlags
      (Flags.value_eq_of_not_mem (.inr rfl) (.inl (.head _)) (.inl (.tail _ (.head _))) (.inr rfl)))
  case daa =>
    exact .next (((same _).setReg (.head _) _).setFlags
      (Flags.value_eq_of_not_mem (.inl (.head _)) (.inr rfl) (.inl (.tail _ (.head _))) (.inl (.tail _ (.tail _ (.head _))))))
  -- No flag
  case resR | setR => exact .next ((same _).setReg (.head _) _)
  case resHl | setHl => exact .costing (.read (fun _ => .store (same _) _ _) _)

/-- The 0xCB byte's footprint covers that of every instruction of its table. -/
theorem Keeps.prefixCb {sub : Byte} {s t : State} (h : Keeps (footprint (decodeCb sub)) s t) :
    Keeps (footprint (.prefixCb sub)) s t := by
  have hw : ∀ op v, (footprint (cbForm op v)).sp = false ∧ (footprint (cbForm op v)).pc = false ∧
      (footprint (cbForm op v)).irq = false ∧ (footprint (cbForm op v)).halt = false := by
    intro op v
    cases op <;> cases v <;> exact ⟨rfl, rfl, rfl, rfl⟩
  obtain ⟨hsp, hpc, hirq, hhalt⟩ := hw (cbOp sub) (cbOperand sub)
  exact
    { regs := fun r hr => absurd (mem_footprint_prefixCb_regs r sub) hr
      flags := fun k hk => absurd (mem_allFlags k) hk
      sp := fun _ => h.sp hsp
      pc := fun _ => h.pc hpc
      irq := fun _ => h.irq hirq
      halted := fun _ => h.halted hhalt
      config := h.config }

theorem exec_runs (i : Instr) (s : State) : Runs (footprint i) s (exec i s) := by
  by_cases hi : i.wellFormed = true
  · exact exec_runs_of_wellFormed hi s
  · cases i
    case prefixCb sub =>
      have h := exec_runs_of_wellFormed (decodeCb_wellFormed sub) s
      rw [exec_prefixCb]
      exact { h with keeps := fun t ht => (h.keeps t ht).prefixCb }
    all_goals exact absurd rfl hi

/-! ### The obligation -/

theorem BusSteps.sameBus_of_nil {s t : State} (h : BusSteps [] s t) : SameBus s t := by
  induction h with
  | cpu h => exact h
  | store _ ha => cases ha
  | trans _ _ h h' => exact h.trans h'

theorem exec_sameBus {i : Instr} {s t : State} (hw : (footprint i).stores = []) (h : exec i s = .next t) : SameBus s t := by
  have hsteps := exec_busSteps h
  rw [hw] at hsteps
  exact hsteps.sameBus_of_nil

/-- Settles O60: outside the bus by `exec_runs`, on the bus by the frame of the stores. -/
theorem instructionsKeepTheirFootprint : Obligations.InstructionsKeepTheirFootprint := by
  intro i s t h w
  have hcore := (exec_runs i s).keeps t h
  obtain ⟨helsewhere, hreads⟩ := exec_frame h
  refine ⟨hcore.regs, hcore.flags, hcore.sp, hcore.pc, fun hw => ?noStore, hreads, helsewhere, hcore.irq, hcore.halted,
    hcore.config, (exec_busSteps h).image.rom⟩
  case noStore =>
    have hbus := exec_sameBus hw h
    exact ⟨hbus.memRead, hbus.ram, hbus.cart, hbus.lcd, hbus.dot, hbus.ie, hbus.irq⟩

end Sys2Proof.Machine
end

section
/-! The whole machine (10_state.md R33 to R35, 70_reset_and_hazards.md R380): what every completed step keeps and costs, how a step can
fail, and the obligations on them. -/

namespace Sys2Proof.Machine

/-! ### What a step keeps -/

theorem step_config {s t : State} (h : step s = .next t) : t.config = s.config := by
  obtain ⟨q, u, hu, rfl⟩ := step_bus h
  rw [advance_config]
  exact hu.config

theorem step_image {s t : State} (h : step s = .next t) : SameImage s t := by
  obtain ⟨q, u, hu, rfl⟩ := step_bus h
  have hi := hu.image
  exact ⟨(advance_cart u).symm ▸ hi.variant, (advance_cart u).symm ▸ hi.rom, (advance_cart u).symm ▸ hi.banks,
    (advance_cart u).symm ▸ hi.ramSize⟩

/-- Settles O57: bus steps keep the image and the parameters, and so does `Advance`. -/
theorem stepKeepsImageAndParameters : Obligations.StepKeepsImageAndParameters := by
  intro s t h
  obtain ⟨hvariant, hrom, hbanks, hsize⟩ := step_image h
  exact ⟨step_config h, hrom, hbanks, hvariant, hsize⟩

/-! ### The invariant -/

/-- A latch write never leaves 0 in `bank_lo` (R95). -/
theorem Cart.writeRom_bankLo {c : Cart} (h : c.bankLo ≠ 0) (n : Nat) (v : Byte) : (c.writeRom n v).bankLo ≠ 0 := by
  have hlo : (c.writeBankLo v).bankLo ≠ 0 := by
    unfold Cart.writeBankLo
    split
    · exact (by decide : (1#5 : BitVec 5) ≠ 0)
    · assumption
  unfold Cart.writeRom
  split
  · exact h
  · split_ifs
    · exact h
    · exact hlo
    · exact h
    · exact h

/-- What a write to the cartridge must keep for the invariant: the construction, and the form of what can change. -/
theorem Cart.Inv.of_image {cfg : Config} {c d : Cart} (h : c.Inv cfg) (hvariant : d.variant = c.variant) (hrom : d.rom = c.rom)
    (hbanks : d.banks = c.banks) (hsize : d.ramSize = c.ramSize) (hram : d.ram.fits d.ramSize) (hlo : d.bankLo ≠ 0) :
    d.Inv cfg where
  banks := hbanks ▸ h.banks
  rom := by rw [hrom, hbanks]; exact h.rom
  ram := hram
  bankLo := hlo
  variant := by rw [hrom, hvariant]; exact h.variant
  noRam hv := hsize.trans (h.noRam (hvariant ▸ hv))
  ramSize hv := by rw [hrom, hsize]; exact h.ramSize (hvariant ▸ hv)

theorem Cart.writeRom_inv {cfg : Config} {c : Cart} (h : c.Inv cfg) (n : Nat) (v : Byte) : (c.writeRom n v).Inv cfg := by
  obtain ⟨hvariant, hrom, hbanks, hsize, hram⟩ := c.writeRom_image n v
  exact h.of_image hvariant hrom hbanks hsize (by rw [hram, hsize]; exact h.ram) (Cart.writeRom_bankLo h.bankLo n v)

theorem Cart.writeRam_inv {cfg : Config} {c : Cart} (h : c.Inv cfg) (bankSize k : Nat) (v : Byte) :
    (c.writeRam bankSize k v).Inv cfg := by
  obtain ⟨hvariant, hrom, hbanks, hsize, hlo⟩ := c.writeRam_image bankSize k v
  exact h.of_image hvariant hrom hbanks hsize (hsize.symm ▸ Cart.writeRam_fits h.ram bankSize k v) (hlo.symm ▸ h.bankLo)

/-- The invariant but for `dot`, which a step leaves to `Advance`. -/
structure State.MemoryInv (s : State) : Prop where
  ram : s.ram.Inv s.config
  cart : s.cart.Inv s.config

/-- All that a store can make of the cartridge. -/
theorem memWrite_cart {s t : State} {a : Word} {v : Byte} (h : memWrite s a v = .ok t) :
    t.cart = s.cart ∨ (∃ n, t.cart = s.cart.writeRom n v) ∨ ∃ k, t.cart = s.cart.writeRam s.config.ramBankSize k v := by
  have h := memWrite_eq_ok.1 h
  generalize owner a = o at h
  cases o <;> simp only [State.ownerWrite] at h <;> try split at h
  all_goals cases h
  case cartRom n => exact .inr (.inl ⟨n, rfl⟩)
  case cartRam k => exact .inr (.inr ⟨k, rfl⟩)
  case lcd r => exact .inl (s.writeLcd_core r v).2.1
  all_goals exact .inl rfl

theorem memWrite_cart_inv {s t : State} {a : Word} {v : Byte} (h : memWrite s a v = .ok t) (hs : s.cart.Inv s.config) :
    t.cart.Inv t.config := by
  rw [(memWrite_core h).config]
  rcases memWrite_cart h with hc | ⟨n, hc⟩ | ⟨k, hc⟩ <;> rw [hc]
  · exact hs
  · exact Cart.writeRom_inv hs n v
  · exact Cart.writeRam_inv hs s.config.ramBankSize k v

theorem BusSteps.memoryInv {s t : State} {places : List Word} (h : BusSteps places s t) (hs : s.MemoryInv) : t.MemoryInv := by
  induction h with
  | cpu h => exact ⟨by rw [h.ram, h.config]; exact hs.ram, by rw [h.cart, h.config]; exact hs.cart⟩
  | store h _ => exact ⟨memWrite_ram h hs.ram, memWrite_cart_inv h hs.cart⟩
  | trans _ _ h h' => exact h' (h hs)

theorem nextDot_lt (dot cycles : Nat) : nextDot dot cycles < dotsPerFrame := Nat.mod_lt _ (by decide)

/-- Settles O56: bus steps keep the memories' and the cartridge's part, `Advance` brings `dot` below one frame. -/
theorem stepKeepsInvariant : Obligations.StepKeepsInvariant := by
  intro s t hs h
  obtain ⟨q, u, hu, rfl⟩ := step_bus h
  obtain ⟨hram, hcart⟩ := hu.memoryInv ⟨hs.ram, hs.cart⟩
  refine ⟨?dot, ?ram, ?cart⟩
  case dot => rw [advance_dot]; exact nextDot_lt _ _
  case ram => rw [advance_ram, advance_config]; exact hram
  case cart => rw [advance_cart, advance_config]; exact hcart

/-! ### Costs -/

theorem step_cost {s t : State} (hc : TableCosts s.config) (h : step s = .next t) : TableCost t.cycles := by
  rcases step_next h with ⟨-, rfl⟩ | ⟨k, u, -, hu, rfl⟩ | ⟨i, u, v, -, hu, hv, rfl⟩ <;> rw [advance_cycles]
  · rw [State.setCycles_cycles, hc.haltIdle]
    decide
  · have hconfig : u.config = s.config := (push16_core hu).config
    rw [State.setCycles_cycles, hconfig, hc.dispatch]
    decide
  · rw [completeEi_cycles]
    refine (exec_runs i u).cost ?_ v hv
    rw [fetchInstr_ok hu]
    exact hc

/-- Settles O58: only a store to LY moves `dot` before `Advance`, to 0; the cost is below one frame. -/
theorem stepCostMovesDot : Obligations.StepCostMovesDot := by
  intro s t hc h
  obtain ⟨hmod, hlow, hhigh⟩ := step_cost hc h
  obtain ⟨q, u, hu, rfl⟩ := step_bus h
  rw [advance_cycles] at hmod hlow hhigh ⊢
  rw [advance_dot, nextDot, dotsPerFrame]
  refine ⟨hmod, hlow, hhigh, ?_⟩
  rcases hu.dot with hdot | ⟨hly, hdot⟩ <;> rw [hdot]
  · exact .inl rfl
  · exact .inr ⟨hly, by omega⟩

/-! ### Faults -/

theorem cpuStep_fatal {s : State} {f : Fault} (h : cpuStep s = .fault f) : Fatal s f := by
  unfold cpuStep at h
  split at h
  · next i t ht =>
    refine ((exec_runs i t).fatal f h).of_config ?_
    rw [fetchInstr_ok ht]
    rfl
  · next e he =>
    cases h
    exact (fetchInstr_error he).imp_right fun ⟨a, ha⟩ => ⟨a, .read, ha⟩

theorem dispatchInterrupt_fatal {k : IrqKind} {s : State} {f : Fault} (h : dispatchInterrupt k s = .error f) : Fatal s f := by
  rcases Access.bind_eq_error.1 h with h | ⟨u, -, h⟩
  · exact ((Does.push16 (w := { sp := true }) rfl s.pc).error f h).of_config rfl
  · cases h

theorem closeStep_eq_fault {was : Bool} {r : Result} {f : Fault} : closeStep was r = .fault f ↔ r = .fault f := by
  cases r <;> simp [closeStep]

theorem closeStep_eq_refused {was : Bool} {r : Result} {q : Refusal} : closeStep was r = .refused q ↔ r = .refused q := by
  cases r <;> simp [closeStep]

theorem toOutcome_eq_fault {r : Access State} {f : Fault} : toOutcome r = .fault f ↔ r = .error f := by
  cases r <;> simp

theorem cpuStep_ne_refused (s : State) (q : Refusal) : cpuStep s ≠ .refused q := by
  unfold cpuStep
  split
  · exact exec_ne_refused _ _ q
  · simp

/-- Settles O59: by the kind of the step. -/
theorem stepFaultsAreFatalKinds : Obligations.StepFaultsAreFatalKinds := by
  intro s
  rcases step_kinds s with hi | ⟨k, hk⟩ | hf
  · rw [step_of_idles hi]
    exact ⟨nofun, nofun⟩
  · rw [step_of_dispatches hk]
    refine ⟨fun q hq => toOutcome_ne_refused _ q (closeStep_eq_refused.1 hq), fun f hf => ?_⟩
    exact dispatchInterrupt_fatal (toOutcome_eq_fault.1 (closeStep_eq_fault.1 hf))
  · rw [step_of_fetchesNext hf]
    refine ⟨fun q hq => cpuStep_ne_refused _ q (closeStep_eq_refused.1 hq), fun f hf => ?_⟩
    exact cpuStep_fatal (s := s.setHalted false) (closeStep_eq_fault.1 hf)

end Sys2Proof.Machine
end

section
/-! Decoding and encoding (30_encoding.md R120 to R133): the encoder writes each instruction as its opcode byte's form reads it, and the
obligations on them. -/

namespace Sys2Proof.Machine

/-! ### From an instruction to its bytes and back -/

/-- A row of the prefixed table, on a register and on the byte at HL. -/
theorem decode_encodeCb {x : Fin 4} {y : Fin 8} {k : CbOp}
    (hk : ∀ z, decodeCb (packFields x y z) = cbForm k (operand8OfCode z)) (r : Reg8) (rest : List Byte) :
    decode (encodeCb x y (reg8Code r) ++ rest) = .ok (cbForm k (.reg r), rest) ∧
      decode (encodeCb x y 6 ++ rest) = .ok (cbForm k .hlInd, rest) := by
  have hrow (z : Fin 8) : decode (encodeCb x y z ++ rest) = .ok (cbForm k (operand8OfCode z), rest) := by
    rw [← hk]
    exact decode_prefixed _ rest
  exact ⟨operand8OfCode_reg8Code r ▸ hrow (reg8Code r), hrow 6⟩

/-- Settles O1: by the form of the opcode byte that the encoder writes; a selector is taken apart into its values. -/
theorem decodeInvertsEncode : Obligations.DecodeInvertsEncode := by
  intro i rest hi
  cases i
  case prefixCb => exact nomatch hi
  case stop => rfl
  -- The opcode byte alone
  case nop | halt | di | ei | jpHl | ret | reti | ldCA | ldAC | ldBcA | ldDeA | ldABc | ldADe | ldHliA | ldHldA | ldAHli | ldAHld |
    ldSpHl | addAHl | adcAHl | subAHl | sbcAHl | andAHl | xorAHl | orAHl | cpAHl | incHl | decHl | cpl | daa | scf | ccf | rlca |
    rrca | rla | rra | illegalD3 | illegalDB | illegalDD | illegalE3 | illegalE4 | illegalEB | illegalEC | illegalED | illegalF4 |
    illegalFC | illegalFD => exact decode_implied rfl rest
  case retCc cc => cases cc <;> exact decode_implied rfl rest
  case rst t => fin_cases t <;> exact decode_implied rfl rest
  case ldRR dst src => cases dst <;> cases src <;> exact decode_implied rfl rest
  case ldRHl r | ldHlR r | addAR r | adcAR r | subAR r | sbcAR r | andAR r | xorAR r | orAR r | cpAR r | incR r | decR r =>
    cases r <;> exact decode_implied rfl rest
  case pushRr p | popRr p | incRr p | decRr p | addHlRr p => cases p <;> exact decode_implied rfl rest
  -- One operand byte
  case jrE n | ldHlN n | ldhNA n | ldhAN n | ldHlSpE n | addAN n | adcAN n | subAN n | sbcAN n | andAN n | xorAN n | orAN n |
    cpAN n | addSpE n => exact decode_withByte rfl n rest
  case jrCcE cc n => cases cc <;> exact decode_withByte rfl n rest
  case ldRN r n => cases r <;> exact decode_withByte rfl n rest
  -- Two operand bytes
  case jpNn nn | callNn nn | ldNnA nn | ldANn nn | ldNnSp nn => exact decode_encodeWord rfl nn rest
  case jpCcNn cc nn | callCcNn cc nn => cases cc <;> exact decode_encodeWord rfl nn rest
  case ldRrNn p nn => cases p <;> exact decode_encodeWord rfl nn rest
  -- The 0xCB byte and a sub-opcode
  case rlcHl | rrcHl | rlHl | rrHl | slaHl | sraHl | swapHl | srlHl => exact decode_prefixed _ rest
  case rlcR r | rrcR r | rlR r | rrR r | slaR r | sraR r | swapR r | srlR r => cases r <;> exact decode_prefixed _ rest
  case bitR b r => exact (decode_encodeCb (k := .bit b) (decodeCb_pack 1 b) r rest).1
  case bitHl b => exact (decode_encodeCb (k := .bit b) (decodeCb_pack 1 b) .a rest).2
  case resR b r => exact (decode_encodeCb (k := .res b) (decodeCb_pack 2 b) r rest).1
  case resHl b => exact (decode_encodeCb (k := .res b) (decodeCb_pack 2 b) .a rest).2
  case setR b r => exact (decode_encodeCb (k := .set b) (decodeCb_pack 3 b) r rest).1
  case setHl b => exact (decode_encodeCb (k := .set b) (decodeCb_pack 3 b) .a rest).2

/-! ### From bytes to an instruction and back -/

/-- The encoder writes back the opcode byte and the operand bytes from which the form makes an instruction; for the unread byte it
writes 0x00 (log 7). -/
def FormEncodes (op : Byte) (f : OpForm) : Prop :=
  match f with
  | .implied i => encode i = [op]
  | .unreadByte i => encode i = [op, 0x00]
  | .prefixed => op = 0xCB
  | .withByte g => (fun n => encode (g n)) = fun n => [op, n]
  | .withWord g => (fun nn => encode (g nn)) = encodeWord op

theorem formX0_encodes (y z : Fin 8) : FormEncodes (packFields 0 y z) (formX0 y z) := by
  fin_cases y <;> fin_cases z <;> rfl

theorem formX1_encodes (y z : Fin 8) :
    FormEncodes (packFields 1 y z) (.implied (ldForm (operand8OfCode y) (operand8OfCode z))) := by
  fin_cases y <;> fin_cases z <;> rfl

theorem formX2_encodes (y z : Fin 8) : FormEncodes (packFields 2 y z) (.implied (aluForm y (operand8OfCode z))) := by
  fin_cases y <;> fin_cases z <;> rfl

theorem formX3_encodes (y z : Fin 8) : FormEncodes (packFields 3 y z) (formX3 y z) := by
  fin_cases y <;> fin_cases z <;> rfl

theorem packFields_fields (op : Byte) : packFields (fieldX op) (fieldY op) (fieldZ op) = op := by
  revert op
  decide

theorem formEncodes_of_packed {op : Byte} {x : Fin 4} {f : OpForm} (hx : fieldX op = x)
    (h : FormEncodes (packFields x (fieldY op) (fieldZ op)) f) : FormEncodes op f := by
  rwa [← hx, packFields_fields] at h

theorem opForm_encodes (op : Byte) : FormEncodes op (opForm op) := by
  unfold opForm
  split
  · next hx => exact formEncodes_of_packed hx (formX0_encodes _ _)
  · next hx => exact formEncodes_of_packed hx (formX1_encodes _ _)
  · next hx => exact formEncodes_of_packed hx (formX2_encodes _ _)
  · next hx => exact formEncodes_of_packed hx (formX3_encodes _ _)

theorem encode_decodeCb (sub : Byte) : encode (decodeCb sub) = [0xCB, sub] := by
  revert sub
  decide

/-- How a byte string decodes: by the form of its first byte, from as many operand bytes as that takes. -/
inductive DecodesByForm : List Byte → Instr → List Byte → Prop where
  | implied {op : Byte} {i : Instr} {rest : List Byte} (hf : opForm op = .implied i) : DecodesByForm (op :: rest) i rest
  | unread {op : Byte} {i : Instr} {rest : List Byte} (hf : opForm op = .unreadByte i) (b : Byte) :
    DecodesByForm (op :: b :: rest) i rest
  | unreadAtEnd {op : Byte} {i : Instr} (hf : opForm op = .unreadByte i) : DecodesByForm [op] i []
  | prefixed {op : Byte} {rest : List Byte} (hf : opForm op = .prefixed) (sub : Byte) :
    DecodesByForm (op :: sub :: rest) (decodeCb sub) rest
  | withByte {op : Byte} {g : Byte → Instr} {rest : List Byte} (hf : opForm op = .withByte g) (n : Byte) :
    DecodesByForm (op :: n :: rest) (g n) rest
  | withWord {op : Byte} {g : Word → Instr} {rest : List Byte} (hf : opForm op = .withWord g) (lo hi : Byte) :
    DecodesByForm (op :: lo :: hi :: rest) (g (joinBytes hi lo)) rest

theorem decodesByForm_of_decode {bytes rest : List Byte} {i : Instr} (h : decode bytes = .ok (i, rest)) :
    DecodesByForm bytes i rest := by
  cases bytes with
  | nil => cases h
  | cons op tl =>
    cases hf : opForm op <;> simp only [decode, hf] at h
    case implied j => cases h; exact .implied hf
    case unreadByte j =>
      cases h
      cases tl with
      | nil => exact .unreadAtEnd hf
      | cons b tl => exact .unread hf b
    case prefixed => split at h <;> cases h; exact .prefixed hf _
    case withByte g => split at h <;> cases h; exact .withByte hf _
    case withWord g => split at h <;> cases h; exact .withWord hf _ _

theorem DecodesByForm.wellFormed {bytes rest : List Byte} {i : Instr} (h : DecodesByForm bytes i rest) : i.wellFormed = true := by
  have formed {op : Byte} {f : OpForm} (hf : opForm op = f) (b1 b2 : Byte) : (formInstr f b1 b2).wellFormed = true :=
    hf ▸ opForm_wellFormed op b1 b2
  cases h with
  | implied hf | unread hf | unreadAtEnd hf => exact formed hf 0 0
  | prefixed _ sub => exact decodeCb_wellFormed sub
  | withByte hf n => exact formed hf n 0
  | withWord hf lo hi => exact formed hf lo hi

theorem ne_stop_of_encode {op : Byte} {i : Instr} {l : List Byte} (h : encode i = op :: l) (hop : op ≠ 0x10) : i ≠ .stop := by
  rintro rfl
  exact hop (List.cons.inj h).1.symm

/-- The opcode byte of STOP is the one whose form has an unread byte. -/
theorem ne_of_opForm {op : Byte} {f : OpForm} (hf : opForm op = f) (hne : f ≠ .unreadByte .stop) : op ≠ 0x10 := by
  rintro rfl
  exact hne hf.symm

/-- Settles O2: by the form of the opcode byte, each of which the encoder writes back. -/
theorem decodedBytesAreTheEncoding : Obligations.DecodedBytesAreTheEncoding := by
  intro bytes rest i h
  have hform := decodesByForm_of_decode h
  refine ⟨hform.wellFormed, ?_⟩
  have spelled {op : Byte} {l : List Byte} (henc : encode i = op :: l) (hop : op ≠ 0x10) (hbytes : bytes = op :: l ++ rest) :
      i ≠ .stop ∧ bytes = encode i ++ rest := ⟨ne_stop_of_encode henc hop, henc ▸ hbytes⟩
  have encodes {op : Byte} {f : OpForm} (hf : opForm op = f) : FormEncodes op f := hf ▸ opForm_encodes op
  cases hform with
  | implied hf => exact .inl (spelled (encodes hf) (ne_of_opForm hf nofun) rfl)
  | unread hf b =>
    obtain rfl := opForm_unreadByte hf
    exact .inr ⟨rfl, .inl ⟨b, by rw [(List.cons.inj (encodes hf)).1]⟩⟩
  | unreadAtEnd hf =>
    obtain rfl := opForm_unreadByte hf
    exact .inr ⟨rfl, .inr ⟨by rw [(List.cons.inj (encodes hf)).1], rfl⟩⟩
  | prefixed hf sub =>
    obtain rfl := encodes hf
    exact .inl (spelled (encode_decodeCb sub) (by decide) rfl)
  | withByte hf n => exact .inl (spelled (congrFun (encodes hf) n) (ne_of_opForm hf nofun) rfl)
  | @withWord op g _ hf lo hi =>
    have hword : encode (g (joinBytes hi lo)) = [op, lo, hi] := by
      rw [congrFun (encodes hf) (joinBytes hi lo), encodeWord, loByte_join, hiByte_join]
    exact .inl (spelled hword (ne_of_opForm hf nofun) rfl)

/-- Settles O3: each word is the encoding of its instruction. -/
theorem writtenWordsDecode : Obligations.WrittenWordsDecode := by
  have spelled {i : Instr} {bytes : List Byte} (hi : i.wellFormed = true) (h : encode i = bytes) : SpelledBy i bytes :=
    fun rest => h ▸ decodeInvertsEncode i rest hi
  exact ⟨spelled rfl rfl, spelled rfl rfl, spelled rfl rfl, spelled rfl rfl, spelled rfl rfl, spelled rfl rfl, spelled rfl rfl,
    spelled rfl rfl, spelled rfl rfl, spelled rfl rfl, spelled rfl rfl, spelled rfl rfl, spelled rfl rfl⟩

end Sys2Proof.Machine
end

section
/-! The address map (20_memory.md R52 to R70): where an access answers, what a read returns and a write changes there, that a byte
stored in RAM reads back, and the obligations on them. -/

namespace Sys2Proof.Machine

/-! ### Where an access answers -/

/-- Settles O40: a read and a write answer at the mapped addresses and are fatal elsewhere. -/
theorem accessAnswersIffMapped : Obligations.AccessAnswersIffMapped := by
  intro s a v
  exact ⟨⟨memRead_of_mapped, fun ⟨_, h⟩ => mapped_of_memRead h⟩, ⟨(memWrite_of_mapped · v), fun ⟨_, h⟩ => mapped_of_memWrite h⟩,
    fun h => ⟨memRead_of_not_mapped h, memWrite_of_not_mapped h v⟩⟩

/-- The addresses between OAM and high RAM that no register answers (R62, R64, R354). -/
theorem not_mapped_of_gap (s : State) {a : Word} (h : 0xFEA0 ≤ a.toNat ∧ a.toNat ≤ 0xFF0E ∨ 0xFF10 ≤ a.toNat ∧ a.toNat ≤ 0xFF3F ∨
    a.toNat = 0xFF46 ∨ 0xFF4C ≤ a.toNat ∧ a.toNat ≤ 0xFF7F) : ¬Mapped s a := by
  simp only [Mapped, mappedAddr, Bool.or_eq_true, Bool.and_eq_true, decide_eq_true_eq]
  omega

theorem mapped_of_wram (s : State) {a : Word} (h1 : 0xC000 ≤ a.toNat) (h2 : a.toNat ≤ 0xFDFF) : Mapped s a := by
  simp only [Mapped, mappedAddr, Bool.or_eq_true, Bool.and_eq_true, decide_eq_true_eq]
  omega

section Conditional
variable {s : State} {a : Word} {o : Owner} {c : Prop} [Decidable c] (h : owner a = o)
include h

/-- A read at an address whose owner answers under a condition. -/
theorem memRead_of_owner_ite {v : Byte} (hv : s.ownerRead o = if c then some v else none) :
    if c then memRead s a = .ok v else memRead s a = .error (.unmappedAddress a .read) := by
  split
  · next hc => exact memRead_of_owner h (hv.trans (if_pos hc))
  · next hc => exact memRead_eq_error.2 ⟨h ▸ hv.trans (if_neg hc), rfl⟩

/-- A write at an address whose owner answers under a condition. -/
theorem memWrite_of_owner_ite {v : Byte} {t : State} (ht : s.ownerWrite o v = if c then some t else none) :
    if c then memWrite s a v = .ok t else memWrite s a v = .error (.unmappedAddress a .write) := by
  split
  · next hc => exact memWrite_of_owner h (ht.trans (if_pos hc))
  · next hc => exact memWrite_eq_error.2 ⟨h ▸ ht.trans (if_neg hc), rfl⟩

end Conditional

/-- High RAM ends where the offset reaches its size. -/
theorem hram_offset_lt_iff {n size : Nat} (h : 0xFF80 ≤ n) : n < 0xFF80 + size ↔ n - 0xFF80 < size := by omega

/-! ### Addresses with one owner -/

section Alias
variable {s : State} {a b : Word} (h : owner a = owner b) (hb : Mapped s b)
include h hb

theorem memRead_of_owner_eq : memRead s a = memRead s b := by
  obtain ⟨v, hv⟩ := memRead_of_mapped hb
  rw [hv]
  exact memRead_eq_ok.2 (h ▸ memRead_eq_ok.1 hv)

theorem memWrite_of_owner_eq (v : Byte) : memWrite s a v = memWrite s b v := by
  obtain ⟨t, ht⟩ := memWrite_of_mapped hb v
  rw [ht]
  exact memWrite_eq_ok.2 (h ▸ memWrite_eq_ok.1 ht)

end Alias

theorem mapped_of_mirror (s : State) {a : Word} (h1 : 0xE000 ≤ a.toNat) (h2 : a.toNat ≤ 0xFDFF) : Mapped s (a - 0x2000) := by
  have hn : (a - 0x2000).toNat = a.toNat - 0x2000 := by bv_omega
  exact mapped_of_wram s (by omega) (by omega)

/-! ### What a read returns -/

/-- The upper three bits of IF read as 1 (R65). -/
theorem ones_append_irq (q : BitVec 5) : 0b111#3 ++ q = BitVec.ofNat 8 (0xE0 + q.toNat) := by
  apply BitVec.eq_of_toNat_eq
  have hq := q.isLt
  rw [toNat_append_eq_add, BitVec.toNat_ofNat, BitVec.toNat_ofNat]
  omega

/-- Settles O41: range by range, by the owner of the address. -/
theorem readsFollowAddressMap : Obligations.ReadsFollowAddressMap := by
  intro s a n fatal
  refine ⟨?vram, ?wram0, ?wram1, ?mirror, ?oam, ?hole, ?requests, ?sound, ?noDisplay, ?hram, ?enables⟩
  case vram => exact fun h1 h2 => memRead_of_owner_ite (owner_vram h1 h2) rfl
  case wram0 => exact fun h1 h2 => memRead_of_owner (owner_wram0 h1 h2) rfl
  case wram1 => exact fun h1 h2 => memRead_of_owner (owner_wram1 h1 h2) rfl
  case mirror => exact fun h1 h2 => memRead_of_owner_eq (owner_mirror h1 h2) (mapped_of_mirror s h1 h2)
  case oam => exact fun h1 h2 => memRead_of_owner_ite (owner_oam h1 h2) rfl
  case hole => exact fun h1 h2 => memRead_of_not_mapped (not_mapped_of_gap s (.inl ⟨h1, h2⟩))
  case sound => exact fun h1 h2 => memRead_of_not_mapped (not_mapped_of_gap s (.inr (.inl ⟨h1, h2⟩)))
  case noDisplay => exact fun h => memRead_of_not_mapped (not_mapped_of_gap s (.inr (.inr h)))
  case requests =>
    intro h
    obtain rfl : a = 0xFF0F := BitVec.eq_of_toNat_eq h
    rw [← ones_append_irq]
    rfl
  case hram =>
    intro h1 h2
    simp only [hram_offset_lt_iff h1]
    exact memRead_of_owner_ite (owner_hram h1 h2) rfl
  case enables =>
    intro h
    obtain rfl : a = 0xFFFF := BitVec.eq_of_toNat_eq h
    rfl

/-! ### What a write changes -/

/-- Settles O42: range by range, by the owner of the address. -/
theorem writesFollowAddressMap : Obligations.WritesFollowAddressMap := by
  intro s a v n fatal
  refine ⟨?vram, ?wram0, ?wram1, ?mirror, ?oam, ?hole, ?requests, ?sound, ?noDisplay, ?hram, ?enables⟩
  case vram => exact fun h1 h2 => memWrite_of_owner_ite (owner_vram h1 h2) rfl
  case wram0 => exact fun h1 h2 => memWrite_of_owner (owner_wram0 h1 h2) rfl
  case wram1 => exact fun h1 h2 => memWrite_of_owner (owner_wram1 h1 h2) rfl
  case mirror => exact fun h1 h2 => memWrite_of_owner_eq (owner_mirror h1 h2) (mapped_of_mirror s h1 h2) v
  case oam => exact fun h1 h2 => memWrite_of_owner_ite (owner_oam h1 h2) rfl
  case hole => exact fun h1 h2 => memWrite_of_not_mapped (not_mapped_of_gap s (.inl ⟨h1, h2⟩)) v
  case sound => exact fun h1 h2 => memWrite_of_not_mapped (not_mapped_of_gap s (.inr (.inl ⟨h1, h2⟩))) v
  case noDisplay => exact fun h => memWrite_of_not_mapped (not_mapped_of_gap s (.inr (.inr h))) v
  case requests =>
    intro h
    obtain rfl : a = 0xFF0F := BitVec.eq_of_toNat_eq h
    rw [BitVec.setWidth_eq_extractLsb' (by decide)]
    rfl
  case hram =>
    intro h1 h2
    simp only [hram_offset_lt_iff h1]
    exact memWrite_of_owner_ite (owner_hram h1 h2) rfl
  case enables =>
    intro h
    obtain rfl : a = 0xFFFF := BitVec.eq_of_toNat_eq h
    rfl

/-! ### A byte stored in RAM -/

/-- The owner is cell `k` of a block of RAM that every machine has: work RAM or high RAM. -/
def RamCell (o : Owner) (k : Nat) : Prop := o = .wram0 k ∨ o = .wram1 k ∨ o = .hram k

/-- Work RAM, its mirror and high RAM are such cells, and since every block begins at an even address, the parity of the address is
that of the cell. -/
theorem owner_ramCell {a : Word} (h : 0xC000 ≤ a.toNat ∧ a.toNat ≤ 0xFDFF ∨ 0xFF80 ≤ a.toNat ∧ a.toNat ≤ 0xFFFE) :
    ∃ k, RamCell (owner a) k ∧ k % 2 = a.toNat % 2 := by
  obtain h | h | h | h | h : 0xC000 ≤ a.toNat ∧ a.toNat ≤ 0xCFFF ∨ 0xD000 ≤ a.toNat ∧ a.toNat ≤ 0xDFFF ∨
    0xE000 ≤ a.toNat ∧ a.toNat ≤ 0xEFFF ∨ 0xF000 ≤ a.toNat ∧ a.toNat ≤ 0xFDFF ∨ 0xFF80 ≤ a.toNat ∧ a.toNat ≤ 0xFFFE := by omega
  · exact ⟨_, .inl (owner_wram0 h.1 h.2), by omega⟩
  · exact ⟨_, .inr (.inl (owner_wram1 h.1 h.2)), by omega⟩
  · exact ⟨_, .inl (owner_mirror0 h.1 h.2), by omega⟩
  · exact ⟨_, .inr (.inl (owner_mirror1 h.1 h.2)), by omega⟩
  · exact ⟨_, .inr (.inr (owner_hram h.1 h.2)), by omega⟩

theorem RamCell.unique {o : Owner} {k k' : Nat} (h : RamCell o k) (h' : RamCell o k') : k = k' := by
  rcases h with rfl | rfl | rfl <;> rcases h' with h' | h' | h' <;> cases h' <;> rfl

/-- A byte stored in RAM is read back, at every address of its cell. -/
theorem memRead_of_stored {s t : State} {a b : Word} {v : Byte} {k : Nat} (hs : s.ram.Inv s.config) (hk : RamCell (owner a) k)
    (hb : owner b = owner a) (h : memWrite s a v = .ok t) : memRead t b = .ok v := by
  have h := memWrite_eq_ok.1 h
  rw [memRead_eq_ok, hb]
  rcases hk with hk | hk | hk <;> rw [hk] at h ⊢ <;> simp only [State.ownerWrite] at h
  · cases h
    exact congrArg some (Memory.read_write_same hs.wram0.1 k v)
  · cases h
    exact congrArg some (Memory.read_write_same hs.wram1.1 k v)
  · split at h
    · next hlt =>
      cases h
      exact (if_pos hlt).trans (congrArg some (Memory.read_write_same hs.hram.1 k v))
    · cases h

/-- A store in RAM touches its own cell alone. -/
theorem touches_of_ramCell (s : State) {a b : Word} {k : Nat} (hk : RamCell (owner a) k) (hne : owner a ≠ owner b) :
    touches s a b = false := by
  unfold touches
  rcases hk with hk | hk | hk <;> rw [hk] at hne ⊢ <;> exact decide_eq_false hne

/-- Settles O43: an address and its mirror have one owner, which is a cell of RAM. -/
theorem storedByteReadsBack : Obligations.StoredByteReadsBack := by
  intro s t a v hs
  refine ⟨fun h1 h2 hw => ?mirrored, fun h1 h2 hw => ?unmirrored, fun h1 h2 hw => ?hram⟩
  case mirrored =>
    obtain ⟨k, hk, -⟩ := owner_ramCell (a := a) (by omega)
    have hn : (a + 0x2000).toNat = a.toNat + 0x2000 := by bv_omega
    have ho : owner (a + 0x2000) = owner a := by
      rw [owner_mirror (by omega) (by omega), BitVec.add_sub_cancel]
    have hk' : RamCell (owner (a + 0x2000)) k := by rwa [ho]
    rcases hw with hw | hw
    · exact ⟨memRead_of_stored hs hk rfl hw, memRead_of_stored hs hk ho hw⟩
    · exact ⟨memRead_of_stored hs hk' ho.symm hw, memRead_of_stored hs hk' rfl hw⟩
  case unmirrored =>
    obtain ⟨k, hk, -⟩ := owner_ramCell (a := a) (by omega)
    exact memRead_of_stored hs hk rfl hw
  case hram =>
    obtain ⟨k, hk, -⟩ := owner_ramCell (a := a) (by omega)
    exact memRead_of_stored hs hk rfl hw

/-! ### A value pushed -/

/-- A completed push is two completed stores. -/
theorem push16_eq_ok {v : Word} {s t : State} (h : push16 v s = .ok t) :
    ∃ u w, memWrite s (s.sp - 1) (hiByte v) = .ok u ∧ memWrite u (s.sp - 2) (loByte v) = .ok w ∧ t = w.setSp (s.sp - 2) := by
  rw [push16_eq] at h
  cases hb : memWrite s (s.sp - 1) (hiByte v) >>= fun u => memWrite u (s.sp - 2) (loByte v) with
  | error e =>
    rw [hb] at h
    cases h
  | ok w =>
    rw [hb] at h
    cases h
    obtain ⟨u, hu, hw⟩ := Access.bind_eq_ok.1 hb
    exact ⟨u, w, hu, hw, rfl⟩

/-- Settles O28: neighbouring addresses have cells of different parity, so the second store leaves the first byte. -/
theorem popReturnsPushedValue : Obligations.PopReturnsPushedValue := by
  intro s t v hs hsp h
  obtain ⟨u, w, hu, hw, rfl⟩ := push16_eq_ok h
  have hn1 : (s.sp - 1).toNat = s.sp.toNat - 1 := by bv_omega
  have hn2 : (s.sp - 2).toNat = s.sp.toNat - 2 := by bv_omega
  have hlt := s.sp.isLt
  obtain ⟨k1, hk1, hp1⟩ := owner_ramCell (a := s.sp - 1) (by omega)
  obtain ⟨k2, hk2, hp2⟩ := owner_ramCell (a := s.sp - 2) (by omega)
  have hne : owner (s.sp - 2) ≠ owner (s.sp - 1) := by
    intro ho
    have hk : k2 = k1 := (ho ▸ hk2).unique hk1
    omega
  have hlo : memRead w (s.sp - 2) = .ok (loByte v) := memRead_of_stored (memWrite_ram hu hs) hk2 rfl hw
  have hhi : memRead w (s.sp - 1) = .ok (hiByte v) :=
    (memWrite_reads hw (touches_of_ramCell u hk2 hne)).trans (memRead_of_stored hs hk1 rfl hu)
  have hnext : s.sp - 2 + 1 = s.sp - 1 := by bv_omega
  have hback : s.sp - 2 + 2 = s.sp := by bv_omega
  refine ⟨(w.setSp (s.sp - 2)).setSp s.sp, ?_, rfl⟩
  rw [pop16_eq]
  simp only [State.setSp_sp, memRead_setSp, hnext, hback, hlo, hhi, Access.ok_bind]
  exact congrArg (fun x => Except.ok (x, _)) (joinBytes_hi_lo v)

end Sys2Proof.Machine
end

section
/-! One step (30_encoding.md R126 to R128, 60_exceptions.md R302, R312, 40_control_misc.md R151, R154): what `Advance` makes of the
counter, how a step idles, wakes, fetches and closes, and the obligations on them. -/

namespace Sys2Proof.Machine

/-! ### Time -/

theorem entersVblank_nextDot {dot cycles : Nat} :
    entersVblank dot (nextDot dot cycles) = true ↔ dot < 65664 ∧ 65664 ≤ (dot + cycles) % 70224 := by
  rw [entersVblank, Bool.and_eq_true, decide_eq_true_eq, decide_eq_true_eq]
  rfl

/-- Settles O10: `Advance` as `advance_eq` says it, with the crossing of dot 65664 in numbers. -/
theorem advanceMovesCounter : Obligations.AdvanceMovesCounter := by
  intro s
  have hbit : IrqKind.verticalBlank.bit = 0b00001 := by decide
  rw [advance_eq, hbit]
  simp only [entersVblank_nextDot]
  rfl

/-! ### Idle and awake -/

theorem State.idles_of_pending {s : State} (h : s.pending ≠ 0) : s.idles = false := by
  rw [Bool.eq_false_iff]
  exact fun hi => h (State.idles_eq_true.1 hi).2

/-- With a request pending, a step does not look at `halted`. -/
theorem step_of_pending {s : State} (h : s.pending ≠ 0) : step s = step (s.setHalted false) := by
  have h' : (s.setHalted false).pending ≠ 0 := h
  simp only [step, machineStep, State.idles_of_pending h, State.idles_of_pending h']
  rfl

/-- Settles O7: the idle step is `Advance` alone, and a pending request hides `halted`. -/
theorem haltedStepIdlesOrWakes : Obligations.HaltedStepIdlesOrWakes := by
  intro s hh
  refine ⟨fun hp => ?_, step_of_pending⟩
  rw [step_of_idles (State.idles_eq_true.2 ⟨hh, hp⟩), advanceMovesCounter]
  rfl

/-- Settles O12: the one test of HALT. -/
theorem haltSetsHalted : Obligations.HaltSetsHalted := by
  refine ⟨spelledBy_implied rfl, rfl, fun s => ⟨fun hime hp => ?refused, fun h => ?halted⟩⟩
  case refused =>
    refine if_pos ?_
    rw [hime]
    exact decide_eq_true hp
  case halted =>
    refine if_neg fun ht => ?_
    obtain ⟨hime, hp⟩ := Bool.and_eq_true_iff.1 ht
    rcases h with h | h
    · rw [h] at hime
      cases hime
    · exact of_decide_eq_true hp h

/-! ### The instruction at `pc` -/

/-- STOP is told from its first byte, whether or not a second one stands there. -/
theorem head_of_decode_stop {bytes : List Byte} (h : decode bytes = .ok (.stop, [])) : bytes[0]? = some 0x10 := by
  obtain ⟨-, ⟨h, -⟩ | ⟨-, ⟨b, rfl⟩ | ⟨rfl, -⟩⟩⟩ := decodedBytesAreTheEncoding bytes [] .stop h
  · exact absurd rfl h
  · rfl
  · rfl

/-- A step whose instruction is known: the instruction in the awake state, then the close of the step. -/
theorem step_of_aboutToRun {s : State} {i : Instr} {bytes : List Byte} (h : AboutToRun s i bytes) :
    step s = closeStep s.eiPending (exec i (s.afterFetch bytes)) := by
  by_cases hi : i = .stop
  · subst hi
    have hop : memRead s s.pc = .ok 0x10 := by simpa using h.atPc 0 0x10 (head_of_decode_stop h.decodes)
    exact step_of_fatalOpcode h.fetches hop (.inr rfl) fun _ => rfl
  · have hfetch := fetchInstr_of_bytes (s := s.setHalted false) h.atPc h.decodes h.admitted hi
    rw [step_of_fetchesNext h.fetches, cpuStep, hfetch]
    rfl

/-- Settles O5: `closeStep` is the completion of an earlier EI, then `Advance`. -/
theorem stepRunsDecodedInstruction : Obligations.StepRunsDecodedInstruction := by
  intro s i bytes h
  rw [step_of_aboutToRun h]
  cases exec i (s.afterFetch bytes) <;> rfl

/-! ### The enable of EI -/

@[simp] theorem completeEi_ime (was : Bool) (t : State) : (completeEi was t).ime = (was && t.eiPending || t.ime) := by
  unfold completeEi
  cases h : was && t.eiPending <;> simp

@[simp] theorem completeEi_eiPending (was : Bool) (t : State) : (completeEi was t).eiPending = (!was && t.eiPending) := by
  unfold completeEi
  cases was <;> cases h : t.eiPending <;> simp [h]

/-- What DI, EI, RETI and every other instruction make of the interrupt enables. -/
theorem exec_enables {i : Instr} {s t : State} (h : exec i s = .next t) :
    (i = .di ∧ t.ime = false ∧ t.eiPending = false) ∨ (i = .ei ∧ t.ime = s.ime ∧ t.eiPending = true) ∨
      (i = .reti ∧ t.ime = true ∧ t.eiPending = false) ∨
      (i ≠ .di ∧ i ≠ .ei ∧ i ≠ .reti ∧ t.ime = s.ime ∧ t.eiPending = s.eiPending) := by
  by_cases hw : (footprint i).irq = false
  · obtain ⟨hime, hei⟩ := ((exec_runs i s).keeps t h).irq hw
    have out {j : Instr} (hj : (footprint j).irq = true) : i ≠ j := fun e => by
      rw [e, hj] at hw
      cases hw
    exact .inr (.inr (.inr ⟨out rfl, out rfl, out rfl, hime, hei⟩))
  · cases i
    case di => cases h; exact .inl ⟨rfl, rfl, rfl⟩
    case ei => cases h; exact .inr (.inl ⟨rfl, rfl, rfl⟩)
    case reti =>
      obtain ⟨w, hw, rfl⟩ := costing_eq_next.1 h
      obtain ⟨u, -, hu⟩ := Access.bind_eq_ok.1 hw
      cases hu
      exact .inr (.inr (.inl ⟨rfl, rfl, rfl⟩))
    all_goals exact absurd rfl hw

/-- Settles O9: the completion of EI looks at the enables that the instruction leaves. -/
theorem eiEnablesAfterNextInstruction : Obligations.EiEnablesAfterNextInstruction := by
  refine ⟨spelledBy_implied rfl, rfl, fun s => rfl, fun s t i bytes ha hime h => ?_⟩
  rw [step_of_aboutToRun ha] at h
  obtain ⟨u, hu, rfl⟩ := closeStep_eq_next.1 h
  have hime' : (s.afterFetch bytes).ime = false := hime
  have hei' : (s.afterFetch bytes).eiPending = s.eiPending := rfl
  simp only [advance_ime, advance_eiPending, completeEi_ime, completeEi_eiPending]
  rcases exec_enables hu with ⟨rfl, h1, h2⟩ | ⟨rfl, h1, h2⟩ | ⟨rfl, h1, h2⟩ | ⟨hdi, hei, hreti, h1, h2⟩ <;> rw [h1, h2]
  · simp
  · simp [hime']
  · simp
  · simp +contextual [hime', hei', hdi, hei, hreti]

/-! ### Fetches that fail -/

theorem step_of_fetch_error {s : State} {f : Fault} (hs : FetchesNext s) (h : fetchInstr (s.setHalted false) = .error f) :
    step s = .fault f := by
  rw [step_of_fetchesNext hs, cpuStep, h]
  rfl

theorem fetchInstr_of_not_mapped {s : State} (h : ¬Mapped s s.pc) : fetchInstr s = .error (.unmappedAddress s.pc .read) := by
  rw [fetchInstr_eq, memRead_of_not_mapped h]
  rfl

section Fetch
variable {s : State} {op : Byte} (hop : memRead s s.pc = .ok op)
include hop

theorem fetchInstr_of_opcode :
    fetchInstr s = if s.refusesTier op then .error (.unimplementedOpcode op) else fetchForm (opForm op) s := by
  rw [fetchInstr_eq, hop, Access.ok_bind]

theorem fetchInstr_of_not_admitted (h : ¬Admitted s op) : fetchInstr s = .error (.unimplementedOpcode op) := by
  rw [fetchInstr_of_opcode hop, if_pos]
  rwa [← refusesTier_eq_false, Bool.not_eq_false] at h

theorem fetchInstr_of_admitted (h : Admitted s op) : fetchInstr s = fetchForm (opForm op) s := by
  rw [fetchInstr_of_opcode hop, if_neg]
  rw [refusesTier_eq_false.2 h]
  decide

end Fetch

/-- An opcode byte that is no instruction alone makes the fetch read a second byte. -/
theorem fetchForm_error_second {op : Byte} {s : State} (hd : ∃ e, decode [op] = .error e) (hm : ¬Mapped s (s.pc + 1)) :
    fetchForm (opForm op) s = .error (.unmappedAddress (s.pc + 1) .read) := by
  obtain ⟨e, he⟩ := hd
  have hr := memRead_of_not_mapped hm
  cases hf : opForm op <;> simp only [decode, hf] at he
  case implied => cases he
  case unreadByte => cases he
  all_goals
    rw [fetchForm, hr]
    rfl

/-- An opcode byte that is no instruction with any second byte makes the fetch read a third. -/
theorem fetchForm_error_third {op : Byte} {s : State} (hd : ∀ b, ∃ e, decode [op, b] = .error e) (hm : Mapped s (s.pc + 1))
    (hn : ¬Mapped s (s.pc + 2)) : fetchForm (opForm op) s = .error (.unmappedAddress (s.pc + 2) .read) := by
  obtain ⟨lo, hlo⟩ := memRead_of_mapped hm
  have hr := memRead_of_not_mapped hn
  obtain ⟨e, he⟩ := hd lo
  cases hf : opForm op <;> simp only [decode, hf] at he
  case withWord f =>
    rw [fetchForm, hlo, Access.ok_bind, hr]
    rfl
  all_goals cases he

/-- Settles O6: the fetch is the reads of `fetchForm` in address order, after the repertoire's test of the opcode. -/
theorem fetchFailsInOrder : Obligations.FetchFailsInOrder := by
  unfold Obligations.FetchFailsInOrder
  intro tierG
  refine ⟨fun s op => ?tierG, fun s hs => ⟨fun hm => ?opcode, fun op hop => ⟨fun ha => ?refused, fun ha hd =>
    ⟨fun hm => ?second, fun hm hd' hm' => ?third⟩⟩⟩⟩
  case tierG =>
    have hmem : ∀ op : Byte, op ∈ tierGOpcodes ↔ tierG op := by
      simp only [tierG]
      decide
    rw [Admitted, hmem]
  all_goals refine step_of_fetch_error hs ?_
  case opcode => exact fetchInstr_of_not_mapped (s := s.setHalted false) hm
  case refused => exact fetchInstr_of_not_admitted (s := s.setHalted false) hop ha
  case second => exact (fetchInstr_of_admitted (s := s.setHalted false) hop ha).trans (fetchForm_error_second hd hm)
  case third => exact (fetchInstr_of_admitted (s := s.setHalted false) hop ha).trans (fetchForm_error_third hd' hm hm')

/-! ### The 0xCB byte -/

section Answers
variable {i : Instr} {s : State} {a : Word}

/-- The instruction begins with the read at `a`: it completes exactly where that answers. -/
def AnswersAt (i : Instr) (s : State) (a : Word) : Prop :=
  (Mapped s a → ∃ t, exec i s = .next t) ∧ (¬Mapped s a → exec i s = .fault (.unmappedAddress a .read))

theorem LoadsFrom.answersAt {after : Byte → State} (h : LoadsFrom i s a after) : AnswersAt i s a :=
  ⟨fun hm => let ⟨v, _, hv⟩ := h.1 hm; ⟨after v, hv⟩, h.2⟩

theorem Rewrites.answersAt {f : Byte → Byte} {after : Byte → State → State} (h : Rewrites i s a f after) : AnswersAt i s a :=
  ⟨fun hm => let ⟨v, u, _, _, _, hv⟩ := h.1 hm; ⟨after v u, hv⟩, h.2⟩

theorem answersAt_of_rotateOperand {op : Byte → Bool → ShiftOut} {c : Nat} (h : exec i s = rotateOperand op .hlInd c s) :
    AnswersAt i s s.hl := (rewrites_of_stepOperand_hlInd (op := cbRotateOut op) h fun _ => rfl).answersAt

end Answers

theorem exec_cbForm_reg (k : CbOp) (r : Reg8) (s : State) : ∃ t, exec (cbForm k (.reg r)) s = .next t := by
  cases k <;> exact ⟨_, rfl⟩

/-- On the byte at HL every row of the prefixed table begins with a read there. -/
theorem exec_cbForm_hlInd (k : CbOp) (s : State) : AnswersAt (cbForm k .hlInd) s s.hl := by
  cases k
  case rlc | rrc | rl | rr | sla | sra | swap | srl => exact answersAt_of_rotateOperand rfl
  case bit b => exact (loadsFrom_of_testBit_hlInd (b := b) rfl fun _ => rfl).answersAt
  case res b => exact (rewrites_of_changeBit_hlInd (op := resBit b) rfl fun _ => rfl).answersAt
  case set b => exact (rewrites_of_changeBit_hlInd (op := setBit b) rfl fun _ => rfl).answersAt

theorem cbOperand_eq_hlInd_iff (sub : Byte) : cbOperand sub = .hlInd ↔ sub.extractLsb' 0 3 = 6 := by
  revert sub
  decide

/-- Settles O14: the byte 0xCB runs the row of its sub-opcode, on a register or on the byte at HL. -/
theorem prefixDispatchesOnSubOpcode : Obligations.PrefixDispatchesOnSubOpcode := by
  intro sub
  refine ⟨decodeCb sub, decodeCb_wellFormed sub, decode_prefixed sub, fun s => ⟨exec_prefixCb sub s, ?_⟩⟩
  have hsel := cbOperand_eq_hlInd_iff sub
  obtain ⟨hnext, hfault⟩ := exec_cbForm_hlInd (cbOp sub) s
  rw [exec_prefixCb, decodeCb]
  cases ho : cbOperand sub with
  | reg r => exact ⟨fun _ => exec_cbForm_reg _ r s, fun h6 => absurd (ho.symm.trans (hsel.2 h6)) nofun⟩
  | hlInd => exact ⟨fun h => hnext (h.resolve_left fun hne => hne (hsel.1 ho)), fun _ => hfault⟩

end Sys2Proof.Machine
end

section
/-! Load and reset (70_reset_and_hazards.md R370, 21_cartridge_mbc1.md R90 to R92, R105): what the header selects, when a launch boots
and with which cartridge, and the obligations on them. -/

namespace Sys2Proof.Machine

/-! ### The header -/

theorem legalImageLength_iff {n : Nat} : legalImageLength n = true ↔ n % 16384 = 0 ∧ 32768 ≤ n := by
  rw [legalImageLength, Bool.and_eq_true, decide_eq_true_eq, decide_eq_true_eq]
  rfl

/-- A legal image is a whole number of banks, at least two. -/
theorem banks_of_legal {n : Nat} (h : legalImageLength n = true) : n / romBankSize * romBankSize = n ∧ 2 ≤ n / romBankSize := by
  have h := legalImageLength_iff.1 h
  rw [romBankSize]
  omega

theorem variantOfCode_unknown {code : Byte} (h : code.toNat > 3) : variantOfCode code = none := by
  revert code
  decide

theorem variantOfCode_mbc1 {code : Byte} (h1 : 1 ≤ code.toNat) (h3 : code.toNat ≤ 3) : variantOfCode code = some .mbc1 := by
  revert code
  decide

/-! ### The cartridge of an image -/

section Load
variable {cfg : Config} {img : Image} {cartRam : Memory}

theorem loadCart_illegal (h : legalImageLength img.length = false) :
    loadCart cfg img cartRam = .error (.malformedCartridgeHeader (.length img.length)) := by
  simp [loadCart, h]

variable (h : legalImageLength img.length = true)
include h

theorem loadCart_unknown (hv : variantOfCode (img.bytes.read typeOffset) = none) :
    loadCart cfg img cartRam = .error (.malformedCartridgeHeader (.byteAt typeOffset (img.bytes.read typeOffset))) := by
  simp [loadCart, h, hv]

theorem loadCart_noController (hv : variantOfCode (img.bytes.read typeOffset) = some .noController) :
    loadCart cfg img cartRam = .ok (Cart.initial .noController img.bytes (img.length / romBankSize) [] 0) := by
  simp [loadCart, h, hv]

variable (hv : variantOfCode (img.bytes.read typeOffset) = some .mbc1)
include hv

theorem loadCart_mbc1_unknown (hr : ramSizeOfCode cfg.ramSizeTable (img.bytes.read ramSizeOffset) = none) :
    loadCart cfg img cartRam = .error (.malformedCartridgeHeader (.byteAt ramSizeOffset (img.bytes.read ramSizeOffset))) := by
  simp [loadCart, h, hv, hr]

theorem loadCart_mbc1 {n : Nat} (hr : ramSizeOfCode cfg.ramSizeTable (img.bytes.read ramSizeOffset) = some n) :
    loadCart cfg img cartRam = .ok (Cart.initial .mbc1 img.bytes (img.length / romBankSize) cartRam n) := by
  simp [loadCart, h, hv, hr]

end Load

/-- The cartridges that construction gives, and from which images. -/
theorem loadCart_eq_ok {cfg : Config} {img : Image} {cartRam : Memory} {c : Cart} (h : loadCart cfg img cartRam = .ok c) :
    legalImageLength img.length = true ∧
      (variantOfCode (img.bytes.read typeOffset) = some .noController ∧
          c = Cart.initial .noController img.bytes (img.length / romBankSize) [] 0 ∨
        variantOfCode (img.bytes.read typeOffset) = some .mbc1 ∧
          ∃ n, ramSizeOfCode cfg.ramSizeTable (img.bytes.read ramSizeOffset) = some n ∧
            c = Cart.initial .mbc1 img.bytes (img.length / romBankSize) cartRam n) := by
  cases hl : legalImageLength img.length with
  | false => rw [loadCart_illegal hl] at h; cases h
  | true =>
    refine ⟨rfl, ?_⟩
    cases hv : variantOfCode (img.bytes.read typeOffset) with
    | none => rw [loadCart_unknown hl hv] at h; cases h
    | some variant =>
      cases variant with
      | noController =>
        rw [loadCart_noController hl hv] at h
        exact .inl ⟨rfl, (Except.ok.inj h).symm⟩
      | mbc1 =>
        cases hr : ramSizeOfCode cfg.ramSizeTable (img.bytes.read ramSizeOffset) with
        | none => rw [loadCart_mbc1_unknown hl hv hr] at h; cases h
        | some n =>
          rw [loadCart_mbc1 hl hv hr] at h
          exact .inr ⟨rfl, n, rfl, (Except.ok.inj h).symm⟩

/-! ### The launch -/

theorem boot_of_loadCart {l : Launch} {img : Image} (hi : l.image = some img) {c : Cart}
    (h : loadCart l.config img l.cartRam = .ok c) : boot l = .next (State.initial l.config c l.ram) := by
  simp [boot, hi, h]

theorem boot_of_loadCart_error {l : Launch} {img : Image} (hi : l.image = some img) {f : Fault}
    (h : loadCart l.config img l.cartRam = .error f) : boot l = .fault f := by
  simp [boot, hi, h]

theorem boot_eq_next {l : Launch} {t : State} (h : boot l = .next t) :
    ∃ img c, l.image = some img ∧ loadCart l.config img l.cartRam = .ok c ∧ t = State.initial l.config c l.ram := by
  cases hi : l.image with
  | none => simp [boot, hi] at h
  | some img =>
    cases hc : loadCart l.config img l.cartRam with
    | ok c =>
      rw [boot_of_loadCart hi hc] at h
      exact ⟨img, c, rfl, hc, (Host.Outcome.next.inj h).symm⟩
    | error f => rw [boot_of_loadCart_error hi hc] at h; cases h

/-- Settles O51: by the checks of `loadCart` in their order. -/
theorem bootRefusesMalformedImages : Obligations.BootRefusesMalformedImages := by
  refine fun l => ⟨fun hi => ?noImage, fun img hi => ⟨?illegal, ?unknown, ?unknownSize, ?noController, ?mbc1⟩⟩
  case noImage => simp [boot, hi]
  case illegal =>
    exact fun h => boot_of_loadCart_error hi (loadCart_illegal (Bool.eq_false_iff.2 (mt legalImageLength_iff.1 h)))
  case unknown =>
    exact fun h hk => boot_of_loadCart_error hi (loadCart_unknown (legalImageLength_iff.2 h) (variantOfCode_unknown hk))
  case unknownSize =>
    exact fun h h1 h3 hr =>
      boot_of_loadCart_error hi (loadCart_mbc1_unknown (legalImageLength_iff.2 h) (variantOfCode_mbc1 h1 h3) hr)
  case noController =>
    intro h hk
    have hv : variantOfCode (img.bytes.read typeOffset) = some .noController := congrArg variantOfCode hk
    exact ⟨_, boot_of_loadCart hi (loadCart_noController (legalImageLength_iff.2 h) hv), rfl, rfl⟩
  case mbc1 =>
    exact fun n h h1 h3 hr =>
      ⟨_, boot_of_loadCart hi (loadCart_mbc1 (legalImageLength_iff.2 h) (variantOfCode_mbc1 h1 h3) hr), rfl, rfl, rfl⟩

/-- Settles O52: the state is the initial one of its parameters, with the cartridge of `loadCart_eq_ok`. -/
theorem bootGivesResetValues : Obligations.BootGivesResetValues := by
  intro l t h
  obtain ⟨img, c, hi, hc, rfl⟩ := boot_eq_next h
  obtain ⟨hl, hcart⟩ := loadCart_eq_ok hc
  have hlatches : c.ramEn = false ∧ c.bankLo = 1 ∧ c.bankHi = 0 ∧ c.mode = .simpleRom := by
    obtain ⟨-, rfl⟩ | ⟨-, n, -, rfl⟩ := hcart <;> exact ⟨rfl, rfl, rfl, rfl⟩
  have hmbc1 : c.variant = .mbc1 → c.ram = l.cartRam := by
    obtain ⟨-, rfl⟩ | ⟨-, n, -, rfl⟩ := hcart
    · exact nofun
    · exact fun _ => rfl
  have hnone : c.variant = .noController → c.ram = [] ∧ c.ramSize = 0 := by
    obtain ⟨-, rfl⟩ | ⟨-, n, -, rfl⟩ := hcart
    · exact fun _ => ⟨rfl, rfl⟩
    · exact nofun
  have himage : ∀ img', l.image = some img' → c.rom = img'.bytes ∧ c.banks * 16384 = img'.length := by
    intro img' hi'
    obtain rfl : img = img' := Option.some.inj (hi.symm.trans hi')
    obtain ⟨-, rfl⟩ | ⟨-, n, -, rfl⟩ := hcart <;> exact ⟨rfl, (banks_of_legal hl).1⟩
  obtain ⟨hen, hlo, hhi, hmode⟩ := hlatches
  refine ⟨rfl, rfl, rfl, rfl, rfl, rfl, rfl, rfl, rfl, rfl, rfl, rfl, rfl, rfl, rfl, rfl, rfl, rfl, rfl, hen, hlo, hhi, hmode, rfl,
    hmbc1, hnone, himage, fun k hk => ?display, rfl, rfl⟩
  case display =>
    fin_cases hk <;> rfl

/-- Settles O53: by evaluation of the reset state. -/
theorem resetStateHasDefaultValues : Obligations.ResetStateHasDefaultValues := by
  unfold Obligations.ResetStateHasDefaultValues
  decide

/-- Settles O55: a legal image is a whole number of banks, and the launch's memories fit. -/
theorem bootEstablishesInvariant : Obligations.BootEstablishesInvariant := by
  intro l t hl h
  obtain ⟨img, c, hi, hc, rfl⟩ := boot_eq_next h
  obtain ⟨hlegal, hcart⟩ := loadCart_eq_ok hc
  obtain ⟨hlen, hbanks⟩ := banks_of_legal hlegal
  have hrom : img.bytes.fits (img.length / romBankSize * romBankSize) := hlen.symm ▸ hl.image img hi
  have hlo : (1 : BitVec 5) ≠ 0 := by decide
  refine ⟨(by decide : 0 < dotsPerFrame), hl.ram, ?_⟩
  obtain ⟨hv, rfl⟩ | ⟨hv, n, hr, rfl⟩ := hcart
  · exact ⟨hbanks, hrom, Memory.fits_nil 0, hlo, hv, fun _ => rfl, nofun⟩
  · exact ⟨hbanks, hrom, hl.cartRam img n hi hr, hlo, hv, nofun, fun _ => hr⟩

/-- The launch that gives the reset state: default parameters, a blank image and blank memories (logs 2 and 3). -/
def blankLaunch : Launch where
  config := defaultConfig
  image := some ⟨32768, []⟩
  ram := Ram.blank
  cartRam := []

theorem boot_blankLaunch : boot blankLaunch = .next State.reset := rfl

theorem blankLaunch_inv : blankLaunch.Inv where
  ram := Ram.blank_inv _
  image img h := by cases h; exact Memory.fits_nil _
  cartRam _ n _ _ := Memory.fits_nil n

/-- Settles O54: the reset state is a booted one. -/
theorem resetMeetsInvariant : Obligations.ResetMeetsInvariant :=
  bootEstablishesInvariant blankLaunch State.reset blankLaunch_inv boot_blankLaunch

end Sys2Proof.Machine
end

section
/-! Requests of VerticalBlank over time (61_display_timing.md R344, R345), and the obligation on them. -/

namespace Sys2Proof.Machine

/-- The passages of dot 65664 up to dot `x` of an unending count are `(x + 4560) / 70224`: an advance requests once for each. -/
theorem entersVblank_nextDot_toNat {dot c : Nat} (hd : dot < 70224) (hc : c ≤ 24) :
    (entersVblank dot (nextDot dot c)).toNat = (dot + c + 4560) / 70224 - (dot + 4560) / 70224 := by
  have hiff := @entersVblank_nextDot dot c
  generalize entersVblank dot (nextDot dot c) = enters at hiff ⊢
  cases enters with
  | false =>
    have hnot := mt hiff.2 nofun
    rw [Bool.toNat_false]
    omega
  | true =>
    have hin := hiff.1 rfl
    rw [Bool.toNat_true]
    omega

/-- A new frame shifts the count by one frame. -/
theorem passages_of_nextDot (dot c n : Nat) :
    (nextDot dot c + n + 4560) / 70224 - (nextDot dot c + 4560) / 70224 =
      (dot + c + n + 4560) / 70224 - (dot + c + 4560) / 70224 := by
  rw [nextDot, dotsPerFrame]
  omega

/-- Settles O50: by induction on the costs, the passages of each advance add up. -/
theorem oneVblankRequestPerFrame : Obligations.OneVblankRequestPerFrame := by
  intro dot costs hd hc
  induction costs generalizing dot with
  | nil => simp [vblankRequests]
  | cons c rest ih =>
    have hcle : c ≤ 24 := hc c (.head _)
    rw [vblankRequests, ih (nextDot dot c) (nextDot_lt dot c) fun x hx => hc x (.tail _ hx), entersVblank_nextDot_toNat hd hcle,
      passages_of_nextDot, List.sum_cons]
    omega

end Sys2Proof.Machine
end

section
/-! Decimal arithmetic (44_alu8.md R221, R223, R232): DAA after an addition or a subtraction of packed-BCD bytes, and the obligation
on it. -/

namespace Sys2Proof.Machine

/-- Both digits are decimal. -/
def Bcd (v : Byte) : Prop := v.toNat % 16 ≤ 9 ∧ v.toNat / 16 ≤ 9

/-- The number that two decimal digits stand for. -/
def bcdValue (v : Byte) : Nat := 10 * (v.toNat / 16) + v.toNat % 16

/-- A byte made of two decimal digits. -/
theorem bcd_of_digits {v : Byte} {m : Nat} (h : ∃ hi lo, hi ≤ 9 ∧ lo ≤ 9 ∧ v.toNat = 16 * hi + lo ∧ 10 * hi + lo = m) :
    Bcd v ∧ bcdValue v = m := by
  unfold Bcd bcdValue
  omega

theorem Bcd.exists_digits {v : Byte} (h : Bcd v) :
    ∃ hi lo, hi ≤ 9 ∧ lo ≤ 9 ∧ v.toNat = 16 * hi + lo ∧ v.toNat % 16 = lo ∧ bcdValue v = 10 * hi + lo :=
  ⟨_, _, h.2, h.1, (Nat.div_add_mod ..).symm, rfl, rfl⟩

section Digits
variable {ahi alo nhi nlo r : Nat} (hahi : ahi ≤ 9) (halo : alo ≤ 9) (hnhi : nhi ≤ 9) (hnlo : nlo ≤ 9)
include hahi halo hnhi hnlo

/-- A corrected low digit carries into the high one, a corrected high digit out of the byte. -/
theorem digits_of_corrected_sum (hr : r = ((16 * ahi + alo + (16 * nhi + nlo)) % 256 + 6 * (decide (alo + nlo > 9)).toNat +
      96 * (decide (10 * ahi + alo + (10 * nhi + nlo) ≥ 100)).toNat) % 256) :
    ∃ hi lo, hi ≤ 9 ∧ lo ≤ 9 ∧ r = 16 * hi + lo ∧ 10 * hi + lo = (10 * ahi + alo + (10 * nhi + nlo)) % 100 := by
  by_cases hl : alo + nlo > 9 <;> by_cases hh : 10 * ahi + alo + (10 * nhi + nlo) ≥ 100 <;>
    simp only [hl, hh, decide_true, decide_false, Bool.toNat_true, Bool.toNat_false] at hr
  · exact ⟨ahi + nhi + 1 - 10, alo + nlo - 10, by omega⟩
  · exact ⟨ahi + nhi + 1, alo + nlo - 10, by omega⟩
  · exact ⟨ahi + nhi - 10, alo + nlo, by omega⟩
  · exact ⟨ahi + nhi, alo + nlo, by omega⟩

/-- A corrected low digit borrows from the high one, a corrected high digit from outside the byte. -/
theorem digits_of_corrected_difference (hr : r = ((16 * ahi + alo + 256 - (16 * nhi + nlo)) % 256 + 512 -
      6 * (decide (alo < nlo)).toNat - 96 * (decide (10 * ahi + alo < 10 * nhi + nlo)).toNat) % 256) :
    ∃ hi lo, hi ≤ 9 ∧ lo ≤ 9 ∧ r = 16 * hi + lo ∧ 10 * hi + lo = (10 * ahi + alo + 100 - (10 * nhi + nlo)) % 100 := by
  by_cases hl : alo < nlo <;> by_cases hh : 10 * ahi + alo < 10 * nhi + nlo <;>
    simp only [hl, hh, decide_true, decide_false, Bool.toNat_true, Bool.toNat_false] at hr
  · exact ⟨ahi + 9 - nhi, alo + 10 - nlo, by omega⟩
  · exact ⟨ahi - nhi - 1, alo + 10 - nlo, by omega⟩
  · exact ⟨ahi + 10 - nhi, alo - nlo, by omega⟩
  · exact ⟨ahi - nhi, alo - nlo, by omega⟩

end Digits

/-! ### The byte that DAA leaves -/

theorem daaResult_toNat_of_add {a : Byte} {f : Flags} (h : f.n = false) :
    (daaResult a f).toNat = (a.toNat + 6 * (daaLow a f).toNat + 96 * (daaHigh a f).toNat) % 256 := by
  rw [daaResult, h, if_neg (by decide), BitVec.toNat_ofNat, daaAmount, Nat.add_assoc]

theorem daaResult_toNat_of_sub {a : Byte} {f : Flags} (h : f.n = true) :
    (daaResult a f).toNat = (a.toNat + 512 - 6 * (daaLow a f).toNat - 96 * (daaHigh a f).toNat) % 256 := by
  rw [daaResult, h, if_pos rfl, BitVec.toNat_ofInt, daaAmount]
  have hlow := (daaLow a f).toNat_le
  have hhigh := (daaHigh a f).toNat_le
  omega

section Decimal
variable {a n : Byte} (ha : Bcd a) (hn : Bcd n)
include ha hn

/-- After an addition DAA corrects the digits whose sums are not decimal. -/
theorem daaTests_of_add :
    daaLow (add8 a n false).value (add8 a n false).flags = decide (a.toNat % 16 + n.toNat % 16 > 9) ∧
      daaHigh (add8 a n false).value (add8 a n false).flags = decide (bcdValue a + bcdValue n ≥ 100) := by
  obtain ⟨ha0, ha1⟩ := ha
  obtain ⟨hn0, hn1⟩ := hn
  simp only [daaLow, daaHigh, add8, bcdValue, Bool.toNat_false, BitVec.toNat_ofNat, Bool.not_false, Bool.true_and,
    ← Bool.decide_or]
  exact ⟨decide_eq_decide.2 (by omega), decide_eq_decide.2 (by omega)⟩

/-- After a subtraction DAA corrects the digits that borrowed. -/
theorem daaTests_of_sub :
    daaLow (sub8 a n false).value (sub8 a n false).flags = decide (a.toNat % 16 < n.toNat % 16) ∧
      daaHigh (sub8 a n false).value (sub8 a n false).flags = decide (bcdValue a < bcdValue n) := by
  obtain ⟨ha0, ha1⟩ := ha
  obtain ⟨hn0, hn1⟩ := hn
  simp only [daaLow, daaHigh, sub8_eq, subFlags, bcdValue, Bool.toNat_false, Bool.not_true, Bool.false_and, Bool.or_false]
  exact ⟨rfl, decide_eq_decide.2 (by omega)⟩

theorem daaResult_of_add :
    Bcd (daaResult (add8 a n false).value (add8 a n false).flags) ∧
      bcdValue (daaResult (add8 a n false).value (add8 a n false).flags) = (bcdValue a + bcdValue n) % 100 := by
  obtain ⟨hlow, hhigh⟩ := daaTests_of_add ha hn
  obtain ⟨ahi, alo, hahi, halo, haNat, haMod, haValue⟩ := ha.exists_digits
  obtain ⟨nhi, nlo, hnhi, hnlo, hnNat, hnMod, hnValue⟩ := hn.exists_digits
  have hvalue : (add8 a n false).value.toNat = (a.toNat + n.toNat) % 256 := BitVec.toNat_ofNat ..
  have hr := daaResult_toNat_of_add (a := (add8 a n false).value) (f := (add8 a n false).flags) rfl
  rw [hlow, hhigh, hvalue, haMod, hnMod, haNat, hnNat, haValue, hnValue] at hr
  rw [haValue, hnValue]
  exact bcd_of_digits (digits_of_corrected_sum hahi halo hnhi hnlo hr)

theorem daaResult_of_sub :
    Bcd (daaResult (sub8 a n false).value (sub8 a n false).flags) ∧
      bcdValue (daaResult (sub8 a n false).value (sub8 a n false).flags) = (bcdValue a + 100 - bcdValue n) % 100 := by
  obtain ⟨hlow, hhigh⟩ := daaTests_of_sub ha hn
  obtain ⟨ahi, alo, hahi, halo, haNat, haMod, haValue⟩ := ha.exists_digits
  obtain ⟨nhi, nlo, hnhi, hnlo, hnNat, hnMod, hnValue⟩ := hn.exists_digits
  have hvalue : (sub8 a n false).value.toNat = (a.toNat + 256 - n.toNat) % 256 := by
    simp only [sub8_eq, Bool.toNat_false]
    bv_omega
  have hr := daaResult_toNat_of_sub (a := (sub8 a n false).value) (f := (sub8 a n false).flags) rfl
  rw [hlow, hhigh, hvalue, haMod, hnMod, haNat, hnNat, haValue, hnValue] at hr
  rw [haValue, hnValue]
  exact bcd_of_digits (digits_of_corrected_difference hahi halo hnhi hnlo hr)

end Decimal

theorem exec_addAN (n : Byte) (s : State) :
    exec (.addAN n) s = .next ((s.setA (add8 s.regs.a n false)).setCycles s.config.cyc.alu8.add.n) := rfl

theorem exec_subAN (n : Byte) (s : State) :
    exec (.subAN n) s = .next ((s.setA (sub8 s.regs.a n false)).setCycles s.config.cyc.alu8.sub.n) := rfl

theorem exec_daa (s : State) : exec .daa s = .next ((s.setA (daa8 s.regs.a s.flags)).setCycles s.config.cyc.alu8.daa) := rfl

theorem daa8_carry (a : Byte) (f : Flags) : (daa8 a f).flags.c = daaHigh a f := by
  rw [daa8_eq]

theorem daa8_value (a : Byte) (f : Flags) : (daa8 a f).value = daaResult a f := by
  rw [daa8_eq]

/-- Settles O35: the byte is that of `daaResult_of_add` and `daaResult_of_sub`, the carry the correction of the high digit. -/
theorem daaCorrectsBcd : Obligations.DaaCorrectsBcd := by
  intro s n bcd value ha hn
  obtain ⟨hadd, haddValue⟩ := daaResult_of_add ha hn
  obtain ⟨hsub, hsubValue⟩ := daaResult_of_sub ha hn
  rw [← daa8_value] at hadd haddValue hsub hsubValue
  exact ⟨⟨_, _, exec_addAN n s, exec_daa _, hadd, haddValue, (daa8_carry ..).trans (daaTests_of_add ha hn).2⟩,
    _, _, exec_subAN n s, exec_daa _, hsub, hsubValue, (daa8_carry ..).trans (daaTests_of_sub ha hn).2⟩

end Sys2Proof.Machine
end
